-- ==== Sys2Proof/Word.lean ====
section
/-! DEFINITION. The machine's word types: 32-bit words (00_scope R12: REG_W = ADDR_W = 32), 8-bit bytes and
samples (SAMPLE_W = 8). A bit of a bit stream is a `Bool` (00_scope R15: a value in the set 0, 1). -/

namespace Sys2Proof

/-- A host-visible register's contents, a bus address or a command word (R12: REG_W, ADDR_W). -/
abbrev Word := BitVec 32

/-- A byte of a byte sequence, or one channel sample (R12: SAMPLE_W; R15: u8). -/
abbrev Byte := BitVec 8

end Sys2Proof
end

