-- ==== Sys2Proof/Config.lean ====
section
/-! DEFINITION. The implementation parameters (00_scope R12) with the check that they are legal, made once, when a
configuration is built; the reference configuration CFG-T (R14); the fixed end marker (10_state R40). -/

namespace Sys2Proof

/-- The parameters R12 leaves to the implementation (decision D43), and SCC_BASE (20_memory R50, decision D42). -/
structure Params where
  msgCap  : Nat
  pwdCap  : Nat
  pixCap  : Nat
  bitCap  : Nat
  outCap  : Nat
  sccBase : Word
  deriving DecidableEq, Repr

/-- R12: 1 <= MSG_CAP <= 2^25. -/
def Params.msgCapOk (p : Params) : Bool := decide (1 ≤ p.msgCap) && decide (p.msgCap ≤ 0x2000000)

/-- R12: 1 <= PWD_CAP <= 2^26. -/
def Params.pwdCapOk (p : Params) : Bool := decide (1 ≤ p.pwdCap) && decide (p.pwdCap ≤ 0x4000000)

/-- R12: 4 <= PIX_CAP <= 2^29 and PIX_CAP mod 4 = 0. -/
def Params.pixCapOk (p : Params) : Bool :=
  decide (4 ≤ p.pixCap) && decide (p.pixCap ≤ 0x20000000) && decide (p.pixCap % 4 = 0)

/-- R12: 8*MSG_CAP <= BIT_CAP <= 2^28. -/
def Params.bitCapOk (p : Params) : Bool := decide (8 * p.msgCap ≤ p.bitCap) && decide (p.bitCap ≤ 0x10000000)

/-- R12: max(MSG_CAP + 9, BIT_CAP div 8, (3*(PIX_CAP div 4)) div 8) <= OUT_CAP <= 2^26. -/
def Params.outCapOk (p : Params) : Bool :=
  decide (p.msgCap + 9 ≤ p.outCap) && decide (p.bitCap / 8 ≤ p.outCap) &&
    decide (3 * (p.pixCap / 4) / 8 ≤ p.outCap) && decide (p.outCap ≤ 0x4000000)

/-- R50: SCC_BASE is a multiple of 0x4000_0000. -/
def Params.sccBaseOk (p : Params) : Bool := decide (p.sccBase.toNat % 0x40000000 = 0)

/-- All constraints of R12, and R50's on SCC_BASE. "A configuration that breaks one of these constraints is not an SCC." -/
def Params.isLegal (p : Params) : Bool :=
  p.msgCapOk && p.pwdCapOk && p.pixCapOk && p.bitCapOk && p.outCapOk && p.sccBaseOk

/-- A legal configuration: the parameters with the check of R12 made once, so that no illegal one can be written. -/
structure Config extends Params where
  legal : toParams.isLegal = true
  deriving DecidableEq, Repr

/-- Building a configuration makes R12's check, and refuses what breaks it. -/
def Config.build? (p : Params) : Option Config :=
  if h : p.isLegal = true then some { toParams := p, legal := h } else none

/-- CFG-T, the reference configuration of R14; SCC_BASE = 0 is the model's own choice (DESIGN CHOICE, log 4). -/
def Config.cfgT : Config where
  msgCap := 256
  pwdCap := 64
  pixCap := 4096
  bitCap := 2048
  outCap := 384
  sccBase := 0
  legal := by decide

/-- MARKER, the bytes of `###END###` (10_state R40). -/
def marker : List Byte := [0x23, 0x23, 0x23, 0x45, 0x4E, 0x44, 0x23, 0x23, 0x23]

/-- MARKER_LEN (R12). -/
abbrev markerLen : Nat := 9

/-- ID, the constant of 10_state R24. -/
def idConstant : Word := 0x53434331

end Sys2Proof
end

