-- ==== Sys2Proof/Syntax.lean ====
section
/-! DEFINITION. The commands of SCC-CMD version 1, one constructor per row of the opcode table (30_encoding R78).
No command has an operand field (R77): operands are the latched registers and the buffers. -/

namespace Sys2Proof

/-- A command of the SCC (30_encoding R78). -/
inductive Instr where
  /-- serialize MSG into BIT (R105) -/
  | ser
  /-- deserialize BIT into OUT (R108) -/
  | des
  /-- apply the password keystream to MSG (R115); also UNFRAME (R84) -/
  | xor
  /-- build the framed payload in OUT (R122) -/
  | frame
  /-- search MSG for the first end marker (R126) -/
  | find
  /-- write the framed bit stream into the LSBs of PIX (R135) -/
  | embed
  /-- read LSBs of PIX up to the end marker (R150) -/
  | extract
  deriving DecidableEq, Repr

end Sys2Proof
end

