-- ==== Sys2Proof/WellFormed.lean ====
section
/-! DEFINITION. What a well-formed term is. A command has no operand field, so every command is well formed
(30_encoding R77); what can be ill formed is a configuration (00_scope R12, 20_memory R50), checked in Config.lean when
it is built, and a command word (30_encoding R80), whose check stands here apart from the decoder. -/

namespace Sys2Proof

/-- No operand field has a range to check (R77). -/
def Instr.wf : Instr → Bool
  | .ser => true
  | .des => true
  | .xor => true
  | .frame => true
  | .find => true
  | .embed => true
  | .extract => true

/-- R80, first two lines: OP is neither 0x0 nor 0x8 to 0xF. -/
def wordOpOk (c : Word) : Bool := decide (1 ≤ c.toNat % 16) && decide (c.toNat % 16 ≤ 7)

/-- R80, third line: c[31:4] = 0. -/
def wordRsvOk (c : Word) : Bool := decide (c.toNat / 16 = 0)

/-- A word that is no reserved or illegal encoding of R80. -/
def wordWf (c : Word) : Bool := wordOpOk c && wordRsvOk c

end Sys2Proof
end

