-- ==== Sys2Proof/Decode.lean ====
section
/-! DEFINITION. The command decoder, total over all 2^32 words and rejecting by name (30_encoding R79), and the
encoder (R75, R78). A command word is not fetched from memory: it is the data of one 32-bit CMD write, or CUR.word
(R75, R76, R81), so the decoder reads a whole word. -/

namespace Sys2Proof

/-- Why a word is Illegal (R80). -/
inductive DecodeReject where
  /-- c[31:4] != 0 -/
  | reservedBitsSet
  /-- OP = 0x0, or OP = 0x8 to 0xF -/
  | reservedOpcode
  deriving DecidableEq, Repr

/-- The OP field, bits 3:0 (R75). -/
def opField (c : Word) : BitVec 4 := c.extractLsb' 0 4

/-- The RSV field, bits 31:4 (R75). -/
def rsvField (c : Word) : BitVec 28 := c.extractLsb' 4 28

/-- The opcode map of R78. -/
def decodeOp (op : BitVec 4) : Except DecodeReject Instr :=
  match op with
  | 0x1#4 => .ok .ser
  | 0x2#4 => .ok .des
  | 0x3#4 => .ok .xor
  | 0x4#4 => .ok .frame
  | 0x5#4 => .ok .find
  | 0x6#4 => .ok .embed
  | 0x7#4 => .ok .extract
  | _ => .error .reservedOpcode

/-- `decode` of R79. -/
def decode (c : Word) : Except DecodeReject Instr :=
  if rsvField c = 0 then decodeOp (opField c) else .error .reservedBitsSet

/-- The OP of a command (R78). -/
def encodeOp : Instr → BitVec 4
  | .ser => 0x1
  | .des => 0x2
  | .xor => 0x3
  | .frame => 0x4
  | .find => 0x5
  | .embed => 0x6
  | .extract => 0x7

/-- The command word: RSV = 0 above OP (R75). -/
def encode (i : Instr) : Word := (0#28 ++ encodeOp i : BitVec 32)

/-- The host's question of the decoder: the instruction whose bits are `w`, of which the table gives `nbits`, the bits
above them zero. Every command is 32 bits (R76), so there is none of more bits. -/
def decodeTableWord (nbits w : Nat) : Option Instr :=
  if nbits ≤ 32 then (decode (BitVec.ofNat 32 (w % 2 ^ nbits))).toOption else none

end Sys2Proof
end

