-- ==== Sys2Proof/Machine/State.lean ====
section
/-! DEFINITION. The state of the SCC as plain data: every register of 10_state R23 that is storage, the buffers of R41
and R42, the hidden state of R43 to R45, and the model's own fields (the configuration, the coming events, the answer to
the last bus access). Also the reasons a step can stop, and the state after a power-on reset (10_state R47, R48). -/

namespace Sys2Proof.Machine

/-- A sparse array: (offset, value) pairs, offsets strictly rising. An unlisted offset holds NO value: it is
"unwritten" (10_state R48). -/
abbrev Store (α : Type) := List (Nat × α)

/-- A byte buffer: a list of cells. -/
abbrev Memory := Store Byte

/-- The six buffer windows of the address map (20_memory R50). -/
inductive Window where
  | marker | msg | pwd | out | bit | pix
  deriving DecidableEq, Repr

/-- The error codes of 60_exceptions R167, one constructor per code; codes 7 to 15 are never written. -/
inductive ErrCode where
  /-- 0: the command succeeded -/
  | ok
  /-- 1: EMBED with MSG_LEN = 0 -/
  | emptyMessage
  /-- 2: EMBED, framed message does not fit -/
  | capacityExceeded
  /-- 3: DES, BIT_LEN mod 8 != 0 -/
  | malformedBitLength
  /-- 4: EXTRACT, no end marker -/
  | markerNotFound
  /-- 5: an operand register is out of range -/
  | badLength
  /-- 6: a reserved command word -/
  | illegalCommand
  deriving DecidableEq, Repr

/-- A host bus access (20_memory R53): its kind, size, address and, for a WRITE, its data. -/
inductive Access where
  | read8 (addr : Word)
  | read32 (addr : Word)
  | write8 (addr : Word) (data : Byte)
  | write32 (addr : Word) (data : Word)
  deriving DecidableEq, Repr

/-- The answer to an access (R53). ERROR carries no rdata (R58). -/
inductive Response where
  /-- a WRITE answered OKAY -/
  | okay
  /-- a 1-byte READ answered OKAY -/
  | data8 (rdata : Byte)
  /-- a 4-byte READ answered OKAY -/
  | data32 (rdata : Word)
  /-- ERROR -/
  | error
  deriving DecidableEq, Repr

/-- What can happen next (40_command_lifecycle R103). A list of these says in which order the agents move (log 1). -/
inductive Event where
  /-- the host performs one bus access (R53) -/
  | host (a : Access)
  /-- the engine's completion step, when BUSY = 1 (R93) -/
  | engine
  /-- the engine moves its hidden cursor one slot on, while EMBED or EXTRACT runs (R44, R45; log 8) -/
  | work
  /-- the reset input (70 R190) -/
  | reset
  /-- power-on: a reset that leaves every buffer byte unwritten (R192) -/
  | powerOn
  deriving DecidableEq, Repr

/-- CUR: the accepted command word and the operand registers latched with it (10_state R43). -/
structure Cur where
  word   : Word
  msgLen : Word
  pwdLen : Word
  pixLen : Word
  bitLen : Word
  deriving DecidableEq, Repr

/-- EMBED's hidden state (10_state R44): the next bit's index, the current pixel and channel, the shift-out register. -/
structure EmbedPipe where
  k   : Nat
  px  : Nat
  ch  : Nat
  sor : Byte
  deriving DecidableEq, Repr

/-- EXTRACT's hidden state (10_state R45): LSBs read, the shift-in register, bytes decoded, the window of the last nine
decoded bytes, the keystream index. -/
structure ExtractPipe where
  n      : Nat
  sir    : Byte
  nbytes : Nat
  win    : List Byte
  j      : Nat
  deriving DecidableEq, Repr

/-- The engine's hidden cursor state: it exists only while EMBED or EXTRACT runs (R44, R45). -/
inductive Pipe where
  | idle
  | embed (p : EmbedPipe)
  | extract (p : ExtractPipe)
  deriving DecidableEq, Repr

/-- Why the model stops. Every one is a fault the spec tells the model to have, and safe: the hardware goes on. -/
inductive Fault where
  /-- Raised by a host access to buffer `w` while BUSY = 1 (20_memory R68). Safe. -/
  | hostBufferAccessWhileBusy (w : Window)
  /-- Raised by a host READ of a byte of `w` that holds no value (10_state R48, 20_memory R63). Safe. -/
  | hostReadUnwritten (w : Window)
  /-- Raised by a command that reads a byte of `w` that holds no value (10_state R48, 70 R196). Safe. -/
  | commandReadUnwritten (w : Window)
  deriving DecidableEq, Repr

/-- Why the model gives an instruction no meaning. -/
inductive Refusal where
  /-- Raised by an arm of `exec` that has no meaning yet; no arm is left so. Safe. -/
  | notModelled (mnemonic : String)
  deriving DecidableEq, Repr

/-- The SCC. -/
structure State where
  /-- parameters, constant (00_scope R12, 20_memory R50) -/
  cfg      : Config
  /-- CTRL.IE (10_state R25) -/
  ie       : Bool
  /-- STATUS.BUSY (R28) -/
  busy     : Bool
  /-- STATUS.DONE (R29) -/
  done     : Bool
  /-- STATUS.FOUND (R30) -/
  found    : Bool
  /-- STATUS.OVR (R31) -/
  ovr      : Bool
  /-- STATUS.ERR (R32) -/
  err      : ErrCode
  /-- MSG_LEN (R33) -/
  msgLen   : Word
  /-- PWD_LEN (R33) -/
  pwdLen   : Word
  /-- PIX_LEN (R33) -/
  pixLen   : Word
  /-- BIT_LEN (R34) -/
  bitLen   : Word
  /-- OUT_LEN (R36) -/
  outLen   : Word
  /-- REQ_BITS (R37) -/
  reqBits  : Word
  /-- BITS_DONE (R38) -/
  bitsDone : Word
  /-- CUR (R43); without meaning while BUSY = 0 -/
  cur      : Cur
  /-- the engine's hidden cursor state (R44, R45) -/
  pipe     : Pipe
  /-- MSG (R41) -/
  msg      : Memory
  /-- PWD (R41) -/
  pwd      : Memory
  /-- OUT (R41) -/
  out      : Memory
  /-- BIT: one-bit cells (R42) -/
  bit      : Store Bool
  /-- PIX (R41) -/
  pix      : Memory
  /-- the model's own: the SCC's answer to the last host access (20_memory R53; log 9) -/
  answer   : Option Response
  /-- the model's own: the events to come, first first (log 1) -/
  agenda   : List Event
  deriving DecidableEq, Repr

/-- CUR before any command: it has no meaning (R47), and nothing reads it while BUSY = 0 (DESIGN CHOICE, log 7). -/
def Cur.blank : Cur := { word := 0, msgLen := 0, pwdLen := 0, pixLen := 0, bitLen := 0 }

/-- After a power-on reset (10_state R47, R48; 70 R190, R192), in configuration CFG-T (log 4), with no event to come
(log 1, log 5). -/
def State.reset : State where
  cfg := Config.cfgT
  ie := false
  busy := false
  done := false
  found := false
  ovr := false
  err := .ok
  msgLen := 0
  pwdLen := 0
  pixLen := 0
  bitLen := 0
  outLen := 0
  reqBits := 0
  bitsDone := 0
  cur := Cur.blank
  pipe := .idle
  msg := []
  pwd := []
  out := []
  bit := []
  pix := []
  answer := none
  agenda := []

end Sys2Proof.Machine
end

