-- ==== Sys2Proof/Machine/Ops.lean ====
section
/-! DEFINITION. The shared operations: sparse buffers (00_scope R15's MemRead and MemWrite), bit helpers (00_scope R18),
the pixel walk's slots (44_embed R139), acceptance and drop of a command word (40 R90, R91), and the SCC's one trap-like event, the
completion of a command (40 R93, 60 R173), with its return, the acknowledgement (60 R174). -/

namespace Sys2Proof.Machine

/-! ### Sparse buffers -/

/-- The value at offset `a`, or none when it is unwritten (10_state R48). -/
def Store.read {α : Type} : Store α → Nat → Option α
  | [], _ => none
  | (b, v) :: m, a => if a = b then some v else Store.read m a

/-- Store `v` at offset `a`, keeping the offsets in rising order. -/
def Store.write {α : Type} : Store α → Nat → α → Store α
  | [], a, v => [(a, v)]
  | (b, w) :: m, a, v =>
    if a < b then (a, v) :: (b, w) :: m
    else if a = b then (a, v) :: m
    else (b, w) :: Store.write m a v

/-- Make every offset that `p` picks unwritten (10_state R48: "any byte that a rule declares unspecified"). -/
def Store.forget {α : Type} (m : Store α) (p : Nat → Bool) : Store α :=
  m.filter (fun c => !p c.1)

/-- MemRead (R15): the `n` values from offset `a` on; none when one of them is unwritten. -/
def Store.readFrom {α : Type} (m : Store α) : Nat → Nat → Option (List α)
  | _, 0 => some []
  | a, n + 1 =>
    match Store.read m a with
    | none => none
    | some v =>
      match Store.readFrom m (a + 1) n with
      | none => none
      | some vs => some (v :: vs)

/-- MemWrite (R15): the values stored from offset `a` on. -/
def Store.writeFrom {α : Type} (m : Store α) : Nat → List α → Store α
  | _, [] => m
  | a, v :: vs => Store.writeFrom (Store.write m a v) (a + 1) vs

/-- Canonical form: offsets strictly rising, each below the buffer's capacity `cap` (10_state R41: offsets from 0 to the
capacity minus 1). -/
def Store.wf {α : Type} (cap : Nat) : Store α → Bool
  | [] => true
  | [(a, _)] => decide (a < cap)
  | (a, _) :: (b, w) :: m => decide (a < b) && Store.wf cap ((b, w) :: m)

/-- The canonical form of a byte buffer. -/
abbrev Memory.wf (cap : Nat) (m : Memory) : Bool := Store.wf cap m

/-! ### Bits, bytes and words -/

/-- `zext_8` of a bit (10_state R42, 20_memory R60). -/
def bitByte (b : Bool) : Byte := (BitVec.ofBool b).setWidth 8

/-- The LSB read, `v AND 1` (45_extract R152). -/
def lsb (v : Byte) : Bool := v.getLsbD 0

/-- The LSB write, `(v AND 0xFE) OR b` (44_embed R140). -/
def withLsb (v : Byte) (b : Bool) : Byte := (v &&& 0xFE#8) ||| bitByte b

/-- Four bytes as a little-endian word, `b0` the byte at the lowest offset (20_memory R54). -/
def packWord (b0 b1 b2 b3 : Byte) : Word := (b3 ++ b2 ++ b1 ++ b0 : BitVec 32)

/-- Byte `k` of a word, byte 0 in bits [7:0] (20_memory R54). -/
def wordByte (w : Word) (k : Nat) : Byte := w.extractLsb' (8 * k) 8

/-- A count stored in a 32-bit register (00_scope R17: only after it is known to fit). -/
def wordOf (n : Nat) : Word := BitVec.ofNat 32 n

/-! ### Counts and slots -/

/-- `3 * (n div 4)`: the LSB slots of a pixel buffer of `n` bytes (10_state R35). -/
def capacityOf (n : Nat) : Nat := 3 * (n / 4)

/-- `8 * (n + MARKER_LEN)`: the framed bit length of a message of `n` bytes (10_state R37, 43_framer R123). -/
def requiredBits (n : Nat) : Nat := 8 * (n + markerLen)

/-- The PIX offset of slot `k`: pixel `k div 3`, channel `k mod 3` (44_embed R139, 45_extract R151). -/
def slotOffset (k : Nat) : Nat := 4 * (k / 3) + k % 3

/-! ### Acceptance and drop -/

/-- The engine's hidden cursor at the start of a command: offset 0 of every buffer (10_state R22, R44, R45). The spec gives
SOR (before EMBED's first load) and SIR (before EXTRACT's first shift) no value; both start at 0 (DESIGN CHOICE, log 20). -/
def Pipe.start (c : Word) : Pipe :=
  match decode c with
  | .ok .embed => .embed { k := 0, px := 0, ch := 0, sor := 0 }
  | .ok .extract => .extract { n := 0, sir := 0, nbytes := 0, win := [], j := 0 }
  | _ => .idle

/-- Acceptance of command word `c` (40 R90). OVR, CTRL, the buffers and every other register are unchanged. -/
def accept (c : Word) (s : State) : State :=
  { s with
    cur := { word := c, msgLen := s.msgLen, pwdLen := s.pwdLen, pixLen := s.pixLen, bitLen := s.bitLen }
    busy := true
    done := false
    found := false
    err := .ok
    pipe := Pipe.start c }

/-- A CMD write (10_state R26): accepted while idle (40 R90), dropped with OVR set while a command runs (40 R91). -/
def offer (c : Word) (s : State) : State :=
  if s.busy then { s with ovr := true } else accept c s

/-! ### Completion ("trap entry") and acknowledgement ("trap return") -/

/-- The completion step's part common to every command (40 R93, 60 R173): ERR, BUSY <- 0, DONE <- 1; the hidden cursor
is lost (10_state R44, R45). -/
def complete (code : ErrCode) (s : State) : State :=
  { s with err := code, busy := false, done := true, pipe := .idle }

/-- `raise` (00_scope R15): the command ends at once with `code`. -/
def raise (code : ErrCode) (s : State) : Host.Outcome State Fault Refusal :=
  .next (complete code s)

/-- An Illegal command word completes with IllegalCommand and nothing else (40 R95). -/
def completeIllegal (s : State) : Host.Outcome State Fault Refusal :=
  raise .illegalCommand s

/-- A STATUS write of `w` (10_state R27): bit 1 clears DONE, bit 3 clears OVR. `ack` (30_encoding R85) is such a write
of 0x0000000A: the return from a completion (60 R174). -/
def acknowledge (w : Word) (s : State) : State :=
  { s with
    done := s.done && !w.getLsbD 1
    ovr := s.ovr && !w.getLsbD 3 }

end Sys2Proof.Machine
end

