-- ==== Sys2Proof/Machine/Flags.lean ====
section
/-! DEFINITION. The STATUS and CTRL registers as the host reads them, the error codes' numbers, and the interrupt output. -/

namespace Sys2Proof.Machine

/-- The numbers of the error codes (60_exceptions R167). -/
def ErrCode.code : ErrCode → BitVec 4
  | .ok => 0
  | .emptyMessage => 1
  | .capacityExceeded => 2
  | .malformedBitLength => 3
  | .markerNotFound => 4
  | .badLength => 5
  | .illegalCommand => 6

/-- STATUS as read: BUSY in bit 0, DONE in 1, FOUND in 2, OVR in 3, ERR in [11:8], every other bit 0 (10_state R27). -/
def State.status (s : State) : Word :=
  (0#20 ++ s.err.code ++ 0#4 ++ BitVec.ofBool s.ovr ++ BitVec.ofBool s.found ++ BitVec.ofBool s.done ++
    BitVec.ofBool s.busy : BitVec 32)

/-- CTRL as read: IE in bit 0, bits [31:1] read 0 (10_state R25). -/
def State.ctrl (s : State) : Word := (BitVec.ofBool s.ie).setWidth 32

/-- A CTRL write keeps bit 0 only (10_state R25). -/
def writeCtrl (w : Word) (s : State) : State := { s with ie := w.getLsbD 0 }

/-- The interrupt output: STATUS.DONE AND CTRL.IE (60_exceptions R175, 10_state R46). -/
def State.irq (s : State) : Bool := s.done && s.ie

/-- CAPACITY as read, from the current PIX_LEN (10_state R35). -/
def State.capacity (s : State) : Word := wordOf (capacityOf s.pixLen.toNat)

end Sys2Proof.Machine
end

