-- ==== Sys2Proof/Machine/Bus.lean ====
section
/-! DEFINITION. The host bus: the address map (20_memory R50 to R52), the registers (10_state R23 to R39) and the buffer
windows (20_memory R54 to R60), with the hazard of R68. Every access is one `hostStep`, answered OKAY or ERROR (R53). -/

namespace Sys2Proof.Machine

/-! ### Address map -/

/-- Where an address lies: an offset of the REG window, an offset of a buffer window, or outside every window. -/
inductive Place where
  | reg (off : Nat)
  | buffer (w : Window) (off : Nat)
  | outside
  deriving DecidableEq, Repr

/-- The base of a buffer window, from SCC_BASE (20_memory R50). -/
def Window.base : Window → Nat
  | .marker => 0x00001000
  | .msg => 0x04000000
  | .pwd => 0x08000000
  | .out => 0x0C000000
  | .bit => 0x10000000
  | .pix => 0x20000000

/-- The window size of a buffer (20_memory R50). -/
def Window.size : Window → Nat
  | .marker => 0x00001000
  | .msg => 0x04000000
  | .pwd => 0x04000000
  | .out => 0x04000000
  | .bit => 0x10000000
  | .pix => 0x20000000

/-- The number of valid offsets of a buffer (20_memory R50). -/
def capOf (c : Config) : Window → Nat
  | .marker => markerLen
  | .msg => c.msgCap
  | .pwd => c.pwdCap
  | .out => c.outCap
  | .bit => c.bitCap
  | .pix => c.pixCap

/-- The place of an offset from SCC_BASE (20_memory R50). -/
def placeAt (rel : Nat) : Place :=
  if rel < 0x1000 then .reg rel
  else if rel < Window.marker.base + Window.marker.size then .buffer .marker (rel - Window.marker.base)
  else if rel < Window.msg.base then .outside
  else if rel < Window.msg.base + Window.msg.size then .buffer .msg (rel - Window.msg.base)
  else if rel < Window.pwd.base + Window.pwd.size then .buffer .pwd (rel - Window.pwd.base)
  else if rel < Window.out.base + Window.out.size then .buffer .out (rel - Window.out.base)
  else if rel < Window.bit.base + Window.bit.size then .buffer .bit (rel - Window.bit.base)
  else if rel < Window.pix.base + Window.pix.size then .buffer .pix (rel - Window.pix.base)
  else .outside

/-- The place of a host address (20_memory R50). -/
def placeOf (c : Config) (a : Word) : Place :=
  if a.toNat < c.sccBase.toNat then .outside else placeAt (a.toNat - c.sccBase.toNat)

/-- The address of an access. -/
def Access.addr : Access → Word
  | .read8 a => a
  | .read32 a => a
  | .write8 a _ => a
  | .write32 a _ => a

/-! ### Registers -/

/-- The registers of 10_state R23. -/
inductive Reg where
  | id | ctrl | cmd | status | msgLen | pwdLen | pixLen | bitLen | outLen | capacity | reqBits | bitsDone
  | msgCapR | pwdCapR | pixCapR | outCapR | bitCapR | markerLenR
  deriving DecidableEq, Repr

/-- The register at an offset of the REG window (R23). None: a reserved offset, or one that is no multiple of 4
(20_memory R51, R56). -/
def Reg.atOffset (off : Nat) : Option Reg :=
  match off with
  | 0x000 => some .id
  | 0x004 => some .ctrl
  | 0x008 => some .cmd
  | 0x00C => some .status
  | 0x010 => some .msgLen
  | 0x014 => some .pwdLen
  | 0x018 => some .pixLen
  | 0x01C => some .bitLen
  | 0x020 => some .outLen
  | 0x024 => some .capacity
  | 0x028 => some .reqBits
  | 0x02C => some .bitsDone
  | 0x030 => some .msgCapR
  | 0x034 => some .pwdCapR
  | 0x038 => some .pixCapR
  | 0x03C => some .outCapR
  | 0x040 => some .bitCapR
  | 0x044 => some .markerLenR
  | _ => none

/-- A register read; CMD is write only (10_state R24 to R39). -/
def readReg (s : State) : Reg → Option Word
  | .id => some idConstant
  | .ctrl => some s.ctrl
  | .cmd => none
  | .status => some s.status
  | .msgLen => some s.msgLen
  | .pwdLen => some s.pwdLen
  | .pixLen => some s.pixLen
  | .bitLen => some s.bitLen
  | .outLen => some s.outLen
  | .capacity => some s.capacity
  | .reqBits => some s.reqBits
  | .bitsDone => some s.bitsDone
  | .msgCapR => some (wordOf s.cfg.msgCap)
  | .pwdCapR => some (wordOf s.cfg.pwdCap)
  | .pixCapR => some (wordOf s.cfg.pixCap)
  | .outCapR => some (wordOf s.cfg.outCap)
  | .bitCapR => some (wordOf s.cfg.bitCap)
  | .markerLenR => some (wordOf markerLen)

/-- A register write; none for a read-only register (R23). -/
def writeReg (s : State) (r : Reg) (w : Word) : Option State :=
  match r with
  | .ctrl => some (writeCtrl w s)
  | .cmd => some (offer w s)
  | .status => some (acknowledge w s)
  | .msgLen => some { s with msgLen := w }
  | .pwdLen => some { s with pwdLen := w }
  | .pixLen => some { s with pixLen := w }
  | .bitLen => some { s with bitLen := w }
  | .id => none
  | .outLen => none
  | .capacity => none
  | .reqBits => none
  | .bitsDone => none
  | .msgCapR => none
  | .pwdCapR => none
  | .pixCapR => none
  | .outCapR => none
  | .bitCapR => none
  | .markerLenR => none

/-! ### Buffers -/

/-- The model's read of one byte: the byte at offset `a` of buffer `w`, none when it is unwritten; a BIT cell reads as its
bit in bit 0 (10_state R42). -/
def State.byteAt (s : State) (w : Window) (a : Nat) : Option Byte :=
  match w with
  | .marker => marker[a]?
  | .msg => s.msg.read a
  | .pwd => s.pwd.read a
  | .out => s.out.read a
  | .bit => (s.bit.read a).map bitByte
  | .pix => s.pix.read a

/-- Whether the host may write a buffer (20_memory R50, R59). -/
def Window.hostWritable : Window → Bool
  | .marker => false
  | .msg => true
  | .pwd => true
  | .out => false
  | .bit => true
  | .pix => true

/-- A host write of one byte of a buffer; a BIT cell keeps bit 0 (10_state R42). MARKER and OUT take none (R59). -/
def setByte (w : Window) (a : Nat) (v : Byte) (s : State) : State :=
  match w with
  | .marker => s
  | .msg => { s with msg := s.msg.write a v }
  | .pwd => { s with pwd := s.pwd.write a v }
  | .out => s
  | .bit => { s with bit := s.bit.write a (lsb v) }
  | .pix => { s with pix := s.pix.write a v }

/-- The little-endian word at offset `a` (20_memory R54); none when one of its bytes is unwritten. -/
def State.wordAt (s : State) (w : Window) (a : Nat) : Option Word :=
  match s.byteAt w a, s.byteAt w (a + 1), s.byteAt w (a + 2), s.byteAt w (a + 3) with
  | some b0, some b1, some b2, some b3 => some (packWord b0 b1 b2 b3)
  | _, _, _, _ => none

/-- A little-endian word stored at offset `a` (20_memory R54). -/
def setWord (w : Window) (a : Nat) (v : Word) (s : State) : State :=
  setByte w (a + 3) (wordByte v 3) (setByte w (a + 2) (wordByte v 2)
    (setByte w (a + 1) (wordByte v 1) (setByte w a (wordByte v 0) s)))

/-- A 4-byte access is aligned and wholly inside the buffer (20_memory R57). -/
def wordFits (c : Config) (w : Window) (a : Nat) : Bool :=
  decide (a % 4 = 0) && decide (a + 3 < capOf c w)

/-- A host access to MSG, PWD, OUT, BIT or PIX while BUSY = 1 (20_memory R68); MARKER is not among them. -/
def hazard (s : State) (w : Window) : Bool := s.busy && decide (w ≠ .marker)

/-! ### The access -/

/-- The SCC answers an access (R53). -/
def answered (r : Response) (s : State) : Host.Outcome State Fault Refusal :=
  .next { s with answer := some r }

/-- An access to the REG window: aligned 32-bit accesses only (20_memory R56). -/
def regAccess (a : Access) (off : Nat) (s : State) : Host.Outcome State Fault Refusal :=
  match a, Reg.atOffset off with
  | .read32 _, some r =>
    match readReg s r with
    | some v => answered (.data32 v) s
    | none => answered .error s
  | .write32 _ v, some r =>
    match writeReg s r v with
    | some t => answered .okay t
    | none => answered .error s
  | _, _ => answered .error s

/-- An access to a buffer window: an offset that is not valid gets ERROR (20_memory R51); then the hazard of R68 (log 10);
then size, alignment and direction (R57, R59). -/
def bufferAccess (a : Access) (w : Window) (o : Nat) (s : State) : Host.Outcome State Fault Refusal :=
  if capOf s.cfg w ≤ o then answered .error s
  else if hazard s w then .fault (.hostBufferAccessWhileBusy w)
  else
    match a with
    | .read8 _ =>
      match s.byteAt w o with
      | some v => answered (.data8 v) s
      | none => .fault (.hostReadUnwritten w)
    | .read32 _ =>
      if wordFits s.cfg w o then
        match s.wordAt w o with
        | some v => answered (.data32 v) s
        | none => .fault (.hostReadUnwritten w)
      else answered .error s
    | .write8 _ v =>
      if w.hostWritable then answered .okay (setByte w o v s) else answered .error s
    | .write32 _ v =>
      if w.hostWritable && wordFits s.cfg w o then answered .okay (setWord w o v s) else answered .error s

/-- The host step: one bus access (40_command_lifecycle R103). -/
def hostStep (a : Access) (s : State) : Host.Outcome State Fault Refusal :=
  match placeOf s.cfg a.addr with
  | .reg off => regAccess a off s
  | .buffer w o => bufferAccess a w o s
  | .outside => answered .error s

end Sys2Proof.Machine
end

