-- ==== Sys2Proof/Machine/Operands.lean ====
section
/-! DEFINITION. The operands of the commands: the latched operand registers (10_state R43), the length checks of 40 R96,
and the reads of the input buffers, which fault on an unwritten byte (10_state R48). -/

namespace Sys2Proof.Machine

/-- The latched MSG_LEN as a count (R43). -/
def State.curMsgLen (s : State) : Nat := s.cur.msgLen.toNat

/-- The latched PWD_LEN as a count (R43). -/
def State.curPwdLen (s : State) : Nat := s.cur.pwdLen.toNat

/-- The latched PIX_LEN as a count (R43). -/
def State.curPixLen (s : State) : Nat := s.cur.pixLen.toNat

/-- The latched BIT_LEN as a count (R43). -/
def State.curBitLen (s : State) : Nat := s.cur.bitLen.toNat

/-- MSG_LEN <= MSG_CAP -/
def msgLenOk (s : State) : Bool := decide (s.curMsgLen ≤ s.cfg.msgCap)

/-- PWD_LEN <= PWD_CAP -/
def pwdLenOk (s : State) : Bool := decide (s.curPwdLen ≤ s.cfg.pwdCap)

/-- PIX_LEN <= PIX_CAP and PIX_LEN mod 4 = 0 -/
def pixLenOk (s : State) : Bool := decide (s.curPixLen ≤ s.cfg.pixCap) && decide (s.curPixLen % 4 = 0)

/-- BIT_LEN <= BIT_CAP -/
def bitLenOk (s : State) : Bool := decide (s.curBitLen ≤ s.cfg.bitCap)

/-- The table of length checks (40 R96). A command checks no register that it does not read. -/
def lengthsOk (i : Instr) (s : State) : Bool :=
  match i with
  | .ser => msgLenOk s
  | .des => bitLenOk s
  | .xor => msgLenOk s && pwdLenOk s
  | .frame => msgLenOk s && pwdLenOk s
  | .find => msgLenOk s
  | .embed => msgLenOk s && pwdLenOk s && pixLenOk s
  | .extract => pwdLenOk s && pixLenOk s

/-- MemRead(MSG, 0, MSG_LEN). -/
def readMsg (s : State) : Except Fault (List Byte) :=
  match s.msg.readFrom 0 s.curMsgLen with
  | some x => .ok x
  | none => .error (.commandReadUnwritten .msg)

/-- The password bytes that an input of `n` bytes uses: PWD[0..min(PWD_LEN, n)) (42_cipher R116). -/
def readPwd (n : Nat) (s : State) : Except Fault (List Byte) :=
  match s.pwd.readFrom 0 (min s.curPwdLen n) with
  | some p => .ok p
  | none => .error (.commandReadUnwritten .pwd)

/-- BIT cells 0 to BIT_LEN-1. -/
def readBits (s : State) : Except Fault (List Bool) :=
  match s.bit.readFrom 0 s.curBitLen with
  | some b => .ok b
  | none => .error (.commandReadUnwritten .bit)

end Sys2Proof.Machine
end

