-- ==== Sys2Proof/Machine/BitCodec.lean ====
section
/-! DEFINITION. The Bit Codec: SER and DES (41_bit_codec). -/

namespace Sys2Proof.Machine

/-- The 8 bits of a byte, MSB first (R105's inner loop). -/
def byteBits (b : Byte) : List Bool :=
  [b.getLsbD 7, b.getLsbD 6, b.getLsbD 5, b.getLsbD 4, b.getLsbD 3, b.getLsbD 2, b.getLsbD 1, b.getLsbD 0]

/-- `bytesToBits` (R105). -/
def bytesToBits (x : List Byte) : List Bool := x.flatMap byteBits

/-- `b <- 2*b + s` over a chunk of bits, the first the MSB (R108's inner loop). -/
def bitsByte (bits : List Bool) : Byte := BitVec.ofNat 8 (bits.foldl (fun b t => 2 * b + t.toNat) 0)

/-- The bytes of the whole 8-bit chunks of a bit sequence, in order (R108's outer loop). -/
def wholeBytes : List Bool → List Byte
  | b7 :: b6 :: b5 :: b4 :: b3 :: b2 :: b1 :: b0 :: rest => bitsByte [b7, b6, b5, b4, b3, b2, b1, b0] :: wholeBytes rest
  | _ => []

/-- `bitsToBytes` (R108): none is MalformedBitLength. -/
def bitsToBytes (bits : List Bool) : Option (List Byte) :=
  if bits.length % 8 = 0 then some (wholeBytes bits) else none

/-- SER (R105). -/
def execSer (s : State) : Host.Outcome State Fault Refusal :=
  if lengthsOk .ser s then
    match readMsg s with
    | .error f => .fault f
    | .ok x =>
      .next (complete .ok { s with
        bit := s.bit.writeFrom 0 (bytesToBits x)
        bitLen := wordOf (8 * s.curMsgLen) })
  else raise .badLength s

/-- DES (R108). MalformedBitLength is found from BIT_LEN before any cell is read (70 R196: the cells are read "only
when BIT_LEN mod 8 = 0"). -/
def execDes (s : State) : Host.Outcome State Fault Refusal :=
  if lengthsOk .des s then
    if s.curBitLen % 8 = 0 then
      match readBits s with
      | .error f => .fault f
      | .ok bits =>
        match bitsToBytes bits with
        | none => raise .malformedBitLength s
        | some r => .next (complete .ok { s with out := s.out.writeFrom 0 r, outLen := wordOf r.length })
    else raise .malformedBitLength s
  else raise .badLength s

end Sys2Proof.Machine
end

