-- ==== Sys2Proof/Machine/Cipher.lean ====
section
/-! DEFINITION. The Obfuscation Cipher: XOR, and UNFRAME by alias (42_cipher, 30_encoding R84). -/

namespace Sys2Proof.Machine

/-- `x[i] XOR p[i mod len(p)]`, the index counted from `i` (R115, R116). -/
def applyFrom (p : List Byte) : Nat → List Byte → List Byte
  | _, [] => []
  | i, b :: bs => (b ^^^ p.getD (i % p.length) 0) :: applyFrom p (i + 1) bs

/-- `apply` (R115). -/
def apply (x p : List Byte) : List Byte := if p = [] then x else applyFrom p 0 x

/-- XOR (R115). The password bytes read are PWD[0..min(PWD_LEN, MSG_LEN)), the ones `apply` uses (R116). -/
def execXor (s : State) : Host.Outcome State Fault Refusal :=
  if lengthsOk .xor s then
    match readMsg s with
    | .error f => .fault f
    | .ok x =>
      match readPwd s.curMsgLen s with
      | .error f => .fault f
      | .ok p =>
        .next (complete .ok { s with out := s.out.writeFrom 0 (apply x p), outLen := wordOf s.curMsgLen })
  else raise .badLength s

end Sys2Proof.Machine
end

