-- ==== Sys2Proof/Machine/Framer.lean ====
section
/-! DEFINITION. The Payload Framer and end-marker detector: FRAME and FIND (43_framer). -/

namespace Sys2Proof.Machine

/-- `frame` (R122): the obfuscated message, then the raw marker. -/
def frame (m p : List Byte) : List Byte := apply m p ++ marker

/-- `first_index(x, pat)` (00_scope R15): the least index at which `pat` stands in `x`. -/
def firstIndex (pat : List Byte) : List Byte → Option Nat
  | [] => if pat = [] then some 0 else none
  | b :: bs => if pat.isPrefixOf (b :: bs) then some 0 else (firstIndex pat bs).map (· + 1)

/-- `findAndStrip` (R125): the bytes before the first marker. -/
def findAndStrip (x : List Byte) : Option (List Byte) := (firstIndex marker x).map x.take

/-- FRAME (R122). -/
def execFrame (s : State) : Host.Outcome State Fault Refusal :=
  if lengthsOk .frame s then
    match readMsg s with
    | .error f => .fault f
    | .ok x =>
      match readPwd s.curMsgLen s with
      | .error f => .fault f
      | .ok p =>
        .next (complete .ok { s with
          out := s.out.writeFrom 0 (frame x p)
          outLen := wordOf (s.curMsgLen + markerLen) })
  else raise .badLength s

/-- FIND (R126, R128). On None FOUND keeps the 0 that acceptance wrote, and OUT is unchanged. -/
def execFind (s : State) : Host.Outcome State Fault Refusal :=
  if lengthsOk .find s then
    match readMsg s with
    | .error f => .fault f
    | .ok x =>
      match findAndStrip x with
      | some y =>
        .next (complete .ok { s with
          out := s.out.writeFrom 0 y
          outLen := wordOf y.length
          found := true })
      | none => .next (complete .ok { s with outLen := 0 })
  else raise .badLength s

end Sys2Proof.Machine
end

