-- ==== Sys2Proof/Machine/Embed.lean ====
section
/-! DEFINITION. The Embedding Engine: EMBED (44_embed). -/

namespace Sys2Proof.Machine

/-- The pixel walk of R135 from stream bit `k` on: bit `k` goes into the LSB of slot `k` (R139, R140). None: a sample it
reads is unwritten. The walk ends when the bits are consumed (40 R101), so nothing beyond the last slot is touched (R141). -/
def embedWalk : Memory → Nat → List Bool → Option Memory
  | pix, _, [] => some pix
  | pix, k, b :: bs =>
    match Store.read pix (slotOffset k) with
    | none => none
    | some v => embedWalk (Store.write pix (slotOffset k) (withLsb v b)) (k + 1) bs

/-- EMBED (R135). The checks come before any buffer read (R147), CapacityExceeded before EmptyMessage (R138); both
write REQ_BITS and BITS_DONE (R137). -/
def execEmbed (s : State) : Host.Outcome State Fault Refusal :=
  if lengthsOk .embed s then
    if capacityOf s.curPixLen < requiredBits s.curMsgLen then
      raise .capacityExceeded { s with reqBits := wordOf (requiredBits s.curMsgLen), bitsDone := 0 }
    else if s.curMsgLen = 0 then
      raise .emptyMessage { s with reqBits := wordOf (requiredBits s.curMsgLen), bitsDone := 0 }
    else
      match readMsg s with
      | .error f => .fault f
      | .ok x =>
        match readPwd s.curMsgLen s with
        | .error f => .fault f
        | .ok p =>
          match embedWalk s.pix 0 (bytesToBits (frame x p)) with
          | none => .fault (.commandReadUnwritten .pix)
          | some pix =>
            .next (complete .ok { s with
              pix := pix
              reqBits := wordOf (requiredBits s.curMsgLen)
              bitsDone := wordOf (requiredBits s.curMsgLen) })
  else raise .badLength s

end Sys2Proof.Machine
end

