-- ==== Sys2Proof/Machine/Extract.lean ====
section
/-! DEFINITION. The Extraction Engine: EXTRACT (45_extract). -/

namespace Sys2Proof.Machine

/-- How the scan of the LSBs ends. -/
inductive Scan where
  /-- the marker was decoded at accumulator length `n`; `y` is the payload before it (R154) -/
  | found (y : List Byte) (n : Nat)
  /-- every slot was read and no marker decoded (R157) -/
  | exhausted
  /-- a sample it reads is unwritten (10_state R48) -/
  | unwritten
  deriving DecidableEq, Repr

/-- The loop of R150 with `left` slots still to read and `acc` the bits accumulated so far: it reads slot `len(acc)`
(R151), checks after every complete byte (R153) and stops at the first marker (R154). -/
def extractScan (pix : Memory) : Nat → List Bool → Scan
  | 0, _ => .exhausted
  | left + 1, acc =>
    match Store.read pix (slotOffset acc.length) with
    | none => .unwritten
    | some v =>
      if (acc.length + 1) % 8 = 0 then
        match (bitsToBytes (acc ++ [lsb v])).bind findAndStrip with
        | some y => .found y (acc.length + 1)
        | none => extractScan pix left (acc ++ [lsb v])
      else extractScan pix left (acc ++ [lsb v])

/-- EXTRACT (R150). On MarkerNotFound OUT[0..C div 8) becomes unwritten and FOUND keeps the 0 that acceptance wrote
(R157). -/
def execExtract (s : State) : Host.Outcome State Fault Refusal :=
  if lengthsOk .extract s then
    match extractScan s.pix (capacityOf s.curPixLen) [] with
    | .unwritten => .fault (.commandReadUnwritten .pix)
    | .exhausted =>
      raise .markerNotFound { s with
        out := s.out.forget (fun a => decide (a < capacityOf s.curPixLen / 8))
        outLen := 0
        bitsDone := wordOf (capacityOf s.curPixLen) }
    | .found y n =>
      match readPwd y.length s with
      | .error f => .fault f
      | .ok p =>
        .next (complete .ok { s with
          out := s.out.writeFrom 0 (apply y p)
          outLen := wordOf y.length
          bitsDone := wordOf n
          found := true })
  else raise .badLength s

end Sys2Proof.Machine
end

