-- ==== Sys2Proof/Machine/Dispatch.lean ====
section
/-! DEFINITION. One arm per command: the engine's completion step for that command (40_command_lifecycle R92, R93), from
the latched operands and the buffers. -/

namespace Sys2Proof.Machine

def exec (i : Instr) (s : State) : Host.Outcome State Fault Refusal :=
  match i with
  | .ser => Sys2Proof.Machine.execSer s
  | .des => Sys2Proof.Machine.execDes s
  | .xor => Sys2Proof.Machine.execXor s
  | .frame => Sys2Proof.Machine.execFrame s
  | .find => Sys2Proof.Machine.execFind s
  | .embed => Sys2Proof.Machine.execEmbed s
  | .extract => Sys2Proof.Machine.execExtract s

end Sys2Proof.Machine
end

