-- ==== Sys2Proof/Machine/Pipeline.lean ====
section
/-! DEFINITION. The engine's hidden cursor state while EMBED or EXTRACT runs (10_state R44, R45), moved one slot at a time
by a `work` event (log 8), and the datapaths the spec describes as informative: shift-out, shift-in and the window
detector (41 R113, 44 R147, 45 R158). No visible result rests on this file: the effects of the commands are those of their
`exec` meanings, and Certificates/ states that the two agree. -/

namespace Sys2Proof.Machine

/-! ### SER and DES (41_bit_codec R113) -/

/-- The `t` bits an 8-bit shift-out register emits at its bit 7, shifting left once per cell. -/
def shiftOut : Nat → Byte → List Bool
  | 0, _ => []
  | t + 1, sor => sor.getLsbD 7 :: shiftOut t (sor <<< 1)

/-- SER's datapath: each byte through the shift-out register. -/
def serDatapath (x : List Byte) : List Bool := x.flatMap (shiftOut 8)

/-- `SIR <- (SIR << 1 | cell) AND 0xFF` -/
def shiftIn (sir : Byte) (cell : Bool) : Byte := (sir <<< 1) ||| bitByte cell

/-- DES's datapath: `t` cells of the current byte are in SIR, which is stored after every 8th cell. -/
def desDatapath : Nat → Byte → List Bool → List Byte
  | _, _, [] => []
  | t, sir, b :: bs =>
    if t = 7 then shiftIn sir b :: desDatapath 0 (shiftIn sir b) bs
    else desDatapath (t + 1) (shiftIn sir b) bs

/-! ### EMBED (10_state R44, 44_embed R147) -/

/-- The PIX offset under the cursor. -/
def EmbedPipe.offset (p : EmbedPipe) : Nat := 4 * p.px + p.ch

/-- The next stream bit, `SOR[7]`. -/
def EmbedPipe.bit (p : EmbedPipe) : Bool := p.sor.getLsbD 7

/-- Load SOR with a byte of the framed payload. -/
def EmbedPipe.load (p : EmbedPipe) (b : Byte) : EmbedPipe := { p with sor := b }

/-- After a slot: SOR shifts left, and the cursor moves from channel 0 to 2 and then to the next pixel. -/
def EmbedPipe.advance (p : EmbedPipe) : EmbedPipe where
  k := p.k + 1
  px := if p.ch = 2 then p.px + 1 else p.px
  ch := if p.ch = 2 then 0 else p.ch + 1
  sor := p.sor <<< 1

/-- The (offset, bit) pairs the pipeline writes in the next `left` slots, over the framed payload `framed`. -/
def embedSlots (framed : List Byte) : Nat → EmbedPipe → List (Nat × Bool)
  | 0, _ => []
  | left + 1, p =>
    let q := if p.k % 8 = 0 then p.load (framed.getD (p.k / 8) 0) else p
    (q.offset, q.bit) :: embedSlots framed left q.advance

/-- Byte `j` of the framed payload, from the buffers (R147). -/
def framedByte (s : State) (j : Nat) : Except Fault Byte :=
  if j < s.curMsgLen then
    match s.msg.read j with
    | none => .error (.commandReadUnwritten .msg)
    | some m =>
      if s.curPwdLen = 0 then .ok m
      else
        match s.pwd.read (j % s.curPwdLen) with
        | none => .error (.commandReadUnwritten .pwd)
        | some p => .ok (m ^^^ p)
  else .ok (marker.getD (j - s.curMsgLen) 0)

/-- All of EMBED's checks pass (R138). -/
def embedPasses (s : State) : Bool :=
  lengthsOk .embed s && decide (requiredBits s.curMsgLen ≤ capacityOf s.curPixLen) && decide (0 < s.curMsgLen)

/-- The hidden cursor moves over one slot: it reloads SOR after 8 slots and reads the sample. The buffer itself changes, for
every observer, at completion only (20_memory R67). -/
def workEmbed (p : EmbedPipe) (s : State) : Host.Outcome State Fault Refusal :=
  if embedPasses s && decide (p.k < requiredBits s.curMsgLen) then
    match if p.k % 8 = 0 then framedByte s (p.k / 8) else .ok p.sor with
    | .error f => .fault f
    | .ok sor =>
      match s.pix.read p.offset with
      | none => .fault (.commandReadUnwritten .pix)
      | some _ => .next { s with pipe := .embed (p.load sor).advance }
  else .next s

/-! ### EXTRACT (10_state R45, 45_extract R158) -/

/-- WIN holds the marker: success. -/
def ExtractPipe.matched (p : ExtractPipe) : Bool := decide (p.win = marker)

/-- The byte pushed out of a full window by the next complete byte, at decoded index `p.j`. -/
def ExtractPipe.pushedOut (p : ExtractPipe) : Option Byte :=
  if (p.n + 1) % 8 = 0 ∧ p.win.length = markerLen then p.win.head? else none

/-- One LSB shifted into SIR; after every 8th bit SIR is pushed into WIN. -/
def ExtractPipe.take (p : ExtractPipe) (b : Bool) : ExtractPipe :=
  if (p.n + 1) % 8 = 0 then
    { n := p.n + 1
      sir := shiftIn p.sir b
      nbytes := p.nbytes + 1
      win := (if p.win.length = markerLen then p.win.drop 1 else p.win) ++ [shiftIn p.sir b]
      j := if p.win.length = markerLen then p.j + 1 else p.j }
  else { p with n := p.n + 1, sir := shiftIn p.sir b }

/-- `byte XOR PWD[j mod PWD_LEN]`, or the byte unchanged when there is no password. -/
def unmask (pwd : List Byte) (j : Nat) (b : Byte) : Byte :=
  if pwd = [] then b else b ^^^ pwd.getD (j % pwd.length) 0

/-- OUT after the next complete byte: the byte that it pushes out of a full window is stored, unmasked. -/
def outNext (pwd : List Byte) (p : ExtractPipe) (out : List Byte) : List Byte :=
  match p.pushedOut with
  | some v => out ++ [unmask pwd p.j v]
  | none => out

/-- The window detector over the LSBs in slot order: the bytes written to OUT so far and the number of LSBs read, when the
window matches; none when the LSBs end first. -/
def windowDetect (pwd : List Byte) : ExtractPipe → List Byte → List Bool → Option (List Byte × Nat)
  | _, _, [] => none
  | p, out, b :: bs =>
    if (p.take b).matched then some (outNext pwd p out, (p.take b).n)
    else windowDetect pwd (p.take b) (outNext pwd p out) bs

/-- The hidden cursor reads one LSB, unless the scan has stopped (R154, R157). -/
def workExtract (p : ExtractPipe) (s : State) : Host.Outcome State Fault Refusal :=
  if lengthsOk .extract s && decide (p.n < capacityOf s.curPixLen) && !p.matched then
    match s.pix.read (slotOffset p.n) with
    | none => .fault (.commandReadUnwritten .pix)
    | some v => .next { s with pipe := .extract (p.take (lsb v)) }
  else .next s

/-- A `work` event: the hidden cursor moves one slot on; without EMBED or EXTRACT running there is none (log 3). -/
def workStep (s : State) : Host.Outcome State Fault Refusal :=
  match s.pipe with
  | .idle => .next s
  | .embed p => workEmbed p s
  | .extract p => workExtract p s

end Sys2Proof.Machine
end

