-- ==== Sys2Proof/Machine/Reset.lean ====
section
/-! DEFINITION. The reset step (70_reset_and_hazards R190 to R192) and power-on. -/

namespace Sys2Proof.Machine

/-- The buffer bytes that a reset makes unspecified when it aborts command `i`, by the table of 70 R191; the lengths are
CUR's. In the model they become unwritten. -/
def loseBytes (i : Instr) (s : State) : State :=
  match i with
  | .ser => { s with bit := s.bit.forget (fun a => decide (a < 8 * s.curMsgLen)) }
  | .des => { s with out := s.out.forget (fun a => decide (a < s.curBitLen / 8)) }
  | .xor => { s with out := s.out.forget (fun a => decide (a < s.curMsgLen)) }
  | .frame => { s with out := s.out.forget (fun a => decide (a < s.curMsgLen + markerLen)) }
  | .find => { s with out := s.out.forget (fun a => decide (a < s.curMsgLen)) }
  | .embed => { s with pix := s.pix.forget (fun a => decide (a < s.curPixLen) && decide (a % 4 ≠ 3)) }
  | .extract => { s with out := s.out.forget (fun a => decide (a < capacityOf s.curPixLen / 8)) }

/-- A reset while BUSY = 1 aborts the running command (R191); an Illegal word, or lengths that fail the command's checks,
lose no byte. -/
def abortCommand (s : State) : State :=
  if s.busy then
    match decode s.cur.word with
    | .ok i => if lengthsOk i s then loseBytes i s else s
    | .error _ => s
  else s

/-- Every register takes its reset value, CUR and the hidden state are discarded, and the buffers stay (R190, R192). -/
def resetRegisters (s : State) : State :=
  { State.reset with
    cfg := s.cfg
    msg := s.msg
    pwd := s.pwd
    out := s.out
    bit := s.bit
    pix := s.pix
    agenda := s.agenda }

/-- The reset step, at any time (R190, R191, R192). -/
def warmReset (s : State) : State := resetRegisters (abortCommand s)

/-- A power-on reset: the same, with every buffer byte unwritten (R192). -/
def powerOnReset (s : State) : State :=
  { State.reset with cfg := s.cfg, agenda := s.agenda }

end Sys2Proof.Machine
end

