-- ==== Sys2Proof/Machine/Step.lean ====
section
/-! DEFINITION. The step relation of 40_command_lifecycle R103 as one function: the head of the agenda says which agent
moves (log 1). -/

namespace Sys2Proof.Machine

/-- The engine's completion step (R93), for the word latched at acceptance (30_encoding R79, 40 R95). -/
def engineStep (s : State) : Host.Outcome State Fault Refusal :=
  match decode s.cur.word with
  | .ok i => exec i s
  | .error _ => completeIllegal s

/-- The engine's turn: enabled only when BUSY = 1 (R103); otherwise nothing happens (log 3). -/
def engineTurn (s : State) : Host.Outcome State Fault Refusal :=
  if s.busy then engineStep s else .next s

/-- One event (R103). -/
def takeEvent (e : Event) (s : State) : Host.Outcome State Fault Refusal :=
  match e with
  | .host a => hostStep a s
  | .engine => engineTurn s
  | .work => workStep s
  | .reset => .next (warmReset s)
  | .powerOn => .next (powerOnReset s)

/-- One step: the next event of the agenda; with none left, the engine's turn (R94: a running command completes; log 2). -/
def step (s : State) : Host.Outcome State Fault Refusal :=
  match s.agenda with
  | [] => engineTurn s
  | e :: rest => takeEvent e { s with agenda := rest }

/-- `s` with command word `w` accepted (40 R90), and the engine's turn next, so that the very next step runs it (log 5). -/
def State.withFetchWord (s : State) (nbits w : Nat) : State :=
  let t := accept (BitVec.ofNat 32 (w % 2 ^ nbits)) s
  { t with agenda := .engine :: t.agenda }

end Sys2Proof.Machine
end

