-- ==== Sys2Proof/Machine/HostScript.lean ====
section
/-! DEFINITION. The host-script notation (30_encoding R82 to R85): each line as the bus access it makes, the host-side
branch, and the pseudo-instructions. A script is the HOST's program; the SCC sees only the accesses, and `step` reads none of
this. The end of a run (40 R104) stands in Safety.lean. -/

namespace Sys2Proof.Machine

/-- A line of a host script (R82). -/
inductive ScriptLine where
  | st32 (addr : Word) (value : Word)
  | st8 (addr : Word) (value : Byte)
  | ld32 (addr : Word)
  | ld8 (addr : Word)
  | label (name : String)
  | bnz32 (addr : Word) (mask : Word) (target : String)
  deriving DecidableEq, Repr

/-- The bus access of a line; a label makes none (R82). -/
def ScriptLine.access : ScriptLine → Option Access
  | .st32 a v => some (.write32 a v)
  | .st8 a v => some (.write8 a v)
  | .ld32 a => some (.read32 a)
  | .ld8 a => some (.read8 a)
  | .label _ => none
  | .bnz32 a _ _ => some (.read32 a)

/-- The lines that define a label, the first line being line `i`. -/
def labelLines (name : String) : Nat → List ScriptLine → List Nat
  | _, [] => []
  | i, l :: ls => if l = .label name then i :: labelLines name (i + 1) ls else labelLines name (i + 1) ls

/-- The line of a label. R82 is silent on a label that no line defines or that several do: such a label names no line (DESIGN
CHOICE, log 22). -/
def lineOf (name : String) (script : List ScriptLine) : Option Nat :=
  match labelLines name 0 script with
  | [i] => some i
  | _ => none

/-- The line after line `i`, given the answer to its access: a `bnz32` branches when `(rdata AND MASK) != 0` (R82). None: the
script has no line `i`, or the host is outside the model: a `bnz32` whose READ has no rdata (20_memory R58, 93 S4; log 21), or
a branch to a label that names no line (log 22). -/
def nextLine (script : List ScriptLine) (i : Nat) (r : Option Response) : Option Nat :=
  match script[i]?, r with
  | none, _ => none
  | some (.bnz32 _ mask target), some (.data32 v) => if v &&& mask ≠ 0 then lineOf target script else some (i + 1)
  | some (.bnz32 _ _ _), _ => none
  | some _, _ => some (i + 1)

/-- `WINDOW+OFFSET` (R82). -/
def bufferAddr (c : Config) (w : Window) (off : Nat) : Word := c.sccBase + BitVec.ofNat 32 (w.base + off)

/-- `REG+OFFSET`, or a register's name (R82; the offsets of 10_state R23). -/
def regAddr (c : Config) (off : Nat) : Word := c.sccBase + BitVec.ofNat 32 off

/-- A register's offset (10_state R23). -/
def Reg.offset : Reg → Nat
  | .id => 0x000
  | .ctrl => 0x004
  | .cmd => 0x008
  | .status => 0x00C
  | .msgLen => 0x010
  | .pwdLen => 0x014
  | .pixLen => 0x018
  | .bitLen => 0x01C
  | .outLen => 0x020
  | .capacity => 0x024
  | .reqBits => 0x028
  | .bitsDone => 0x02C
  | .msgCapR => 0x030
  | .pwdCapR => 0x034
  | .pixCapR => 0x038
  | .outCapR => 0x03C
  | .bitCapR => 0x040
  | .markerLenR => 0x044

/-- The command mnemonics (R83): one CMD write each. -/
def scriptCommand (c : Config) (i : Instr) : List ScriptLine := [.st32 (regAddr c 0x008) (encode i)]

/-- `unframe` expands to `xor` (R84). -/
def scriptUnframe (c : Config) : List ScriptLine := scriptCommand c .xor

/-- `wait`: poll until BUSY = 0 (R85). The name of the label is the script's: each `wait` of a script takes its own (log 22). -/
def scriptWait (c : Config) (name : String) : List ScriptLine := [.label name, .bnz32 (regAddr c 0x00C) 0x1 name]

/-- `ack`: clear DONE and OVR (R85). -/
def scriptAck (c : Config) : List ScriptLine := [.st32 (regAddr c 0x00C) 0x0000000A]

/-- `setlen R, n` (R85): `r` one of MSG_LEN, PWD_LEN, PIX_LEN and BIT_LEN. -/
def scriptSetlen (c : Config) (r : Reg) (n : Word) : List ScriptLine := [.st32 (regAddr c r.offset) n]

/-- `run op`: `op`, then `wait` (R85). -/
def scriptRun (c : Config) (i : Instr) (name : String) : List ScriptLine := scriptCommand c i ++ scriptWait c name

end Sys2Proof.Machine
end

