-- ==== Sys2Proof/Safety.lean ====
section
/-! DEFINITION. What counts as a safe run, in the terms the statements use: no fault; the end of a run (40 R104); the bytes a
command must find written (70 R196); the invariants of the state. -/

namespace Sys2Proof.Machine

/-- The run of `k` steps from `s` meets no fault and no refusal. -/
def SafeFor (s : State) (k : Nat) : Prop := ∃ t : State, Sys2Proof.core.run k s = .next t

/-- No run from `s` ever stops. -/
def Safe (s : State) : Prop := ∀ k, SafeFor s k

/-- The end of a run: no event is left and BUSY = 0 (40 R104). A faulted run has no state. -/
def State.ended (s : State) : Bool := s.agenda.isEmpty && !s.busy

/-- The end of a run of a host script of which `line` lines are done (40 R104). -/
def scriptEnded (script : List ScriptLine) (line : Nat) (s : State) : Bool :=
  decide (script.length ≤ line) && !s.busy

/-- Offsets 0 to `n`-1 hold a value (10_state R48). -/
def Written {α : Type} (m : Store α) (n : Nat) : Prop := ∀ a, a < n → (m.read a).isSome = true

/-- The LSBs of the first slots are `bits` (45_extract R151, R152). -/
def LsbsAre (pix : Memory) (bits : List Bool) : Prop :=
  ∀ k, k < bits.length → (pix.read (slotOffset k)).map lsb = bits[k]?

/-- The table of 70 R196: the bytes a command reads once its length checks have passed. -/
def ReadsWritten (i : Instr) (s : State) : Prop :=
  match i with
  | .ser => Written s.msg s.curMsgLen
  | .des => s.curBitLen % 8 = 0 → Written s.bit s.curBitLen
  | .xor => Written s.msg s.curMsgLen ∧ Written s.pwd (min s.curPwdLen s.curMsgLen)
  | .frame => Written s.msg s.curMsgLen ∧ Written s.pwd (min s.curPwdLen s.curMsgLen)
  | .find => Written s.msg s.curMsgLen
  | .embed =>
    requiredBits s.curMsgLen ≤ capacityOf s.curPixLen → 0 < s.curMsgLen →
      Written s.msg s.curMsgLen ∧ Written s.pwd (min s.curPwdLen s.curMsgLen) ∧
        ∀ k, k < requiredBits s.curMsgLen → (s.pix.read (slotOffset k)).isSome = true
  | .extract =>
    ∃ bits : List Bool, bits.length ≤ capacityOf s.curPixLen ∧ LsbsAre s.pix bits ∧
      (bits.length = capacityOf s.curPixLen ∨ (findAndStrip (wholeBytes bits)).isSome = true) ∧
      ∀ y, findAndStrip (wholeBytes bits) = some y → Written s.pwd (min s.curPwdLen y.length)

/-- Every buffer is in canonical form within its capacity (10_state R41). -/
def State.memoryWf (s : State) : Bool :=
  Memory.wf s.cfg.msgCap s.msg && Memory.wf s.cfg.pwdCap s.pwd && Memory.wf s.cfg.outCap s.out &&
    Store.wf s.cfg.bitCap s.bit && Memory.wf s.cfg.pixCap s.pix

/-- While a command runs DONE, FOUND and ERR are 0, as its acceptance left them (40 R90); FOUND = 1 goes with ERR = 0
(10_state R30, 43 R128, 45 R156). -/
def State.statusWf (s : State) : Bool :=
  (!s.busy || (!s.done && !s.found && decide (s.err = .ok))) && (!s.found || decide (s.err = .ok))

/-- OUT[0..OUT_LEN) holds values within OUT_CAP: the host may read it (10_state R36, 70 R205). -/
def State.OutReadable (s : State) : Prop := s.outLen.toNat ≤ s.cfg.outCap ∧ Written s.out s.outLen.toNat

/-- The hidden state exists only while EMBED or EXTRACT runs, and its counters are those of one walk (10_state R44,
R45): pixel and channel are those of slot `k` (44_embed R139), WIN holds the last min(nbytes, 9) bytes, `j` counts the
bytes pushed out of it. -/
def State.pipeWf (s : State) : Bool :=
  match s.pipe with
  | .idle => true
  | .embed p =>
    s.busy && decide (s.cur.word = encode .embed) && decide (p.k ≤ requiredBits s.curMsgLen) &&
      decide (p.px = p.k / 3) && decide (p.ch = p.k % 3)
  | .extract p =>
    s.busy && decide (s.cur.word = encode .extract) && decide (p.n ≤ capacityOf s.curPixLen) &&
      decide (p.nbytes = p.n / 8) && decide (p.win.length = min p.nbytes markerLen) &&
      decide (p.j = p.nbytes - markerLen)

end Sys2Proof.Machine
end

