-- ==== Sys2Proof/Certificates/Slice0/Obligations.lean ====
section
/-! DEFINITION. The statements for the provers, from the numbered rules of spec/. Before them, the few words they are
written in: operands are given as functions from an index to a byte, results byte by byte through the model's read. -/

namespace Sys2Proof.Machine

/-- What EVERY completion leaves (40 R93, R99; 30_encoding R86's last sentence): ERR holds the code, BUSY = 0, DONE = 1, no
hidden state; the configuration, CTRL.IE, OVR, the three operand registers the engine never writes, CUR, MSG, PWD, the last
bus answer and the coming events are as before. -/
structure Completes (s t : State) (code : ErrCode) : Prop where
  err    : t.err = code
  busy   : t.busy = false
  done   : t.done = true
  pipe   : t.pipe = .idle
  cfg    : t.cfg = s.cfg
  ie     : t.ie = s.ie
  ovr    : t.ovr = s.ovr
  msgLen : t.msgLen = s.msgLen
  pwdLen : t.pwdLen = s.pwdLen
  pixLen : t.pixLen = s.pixLen
  cur    : t.cur = s.cur
  msg    : ∀ a, t.msg.read a = s.msg.read a
  pwd    : ∀ a, t.pwd.read a = s.pwd.read a
  answer : t.answer = s.answer
  agenda : t.agenda = s.agenda

/-- The BIT side of the state is as before: cells and BIT_LEN. -/
def BitKept (s t : State) : Prop := (∀ a, t.bit.read a = s.bit.read a) ∧ t.bitLen = s.bitLen

/-- The OUT side of the state is as before: bytes and OUT_LEN. -/
def OutKept (s t : State) : Prop := (∀ a, t.out.read a = s.out.read a) ∧ t.outLen = s.outLen

/-- PIX is as before. -/
def PixKept (s t : State) : Prop := ∀ a, t.pix.read a = s.pix.read a

/-- The counts of EMBED and EXTRACT are as before. -/
def CountsKept (s t : State) : Prop := t.reqBits = s.reqBits ∧ t.bitsDone = s.bitsDone

/-- Byte `i` of `apply(x, p)` for a password of `plen` bytes (42_cipher R115). -/
def cipherByte (x p : Nat → Byte) (plen i : Nat) : Byte := if plen = 0 then x i else x i ^^^ p (i % plen)

/-- Byte `j` of `frame(m, p)` for a message of `n` bytes (43_framer R122). -/
def payloadByte (x p : Nat → Byte) (plen n j : Nat) : Byte :=
  if j < n then cipherByte x p plen j else marker.getD (j - n) 0

/-- Bit `k` of the stream of the bytes `y`: bit `7 - (k mod 8)` of byte `k div 8` (41_bit_codec R106). -/
def streamBit (y : Nat → Byte) (k : Nat) : Bool := (y (k / 8)).getLsbD (7 - k % 8)

/-- The marker stands at index `i` of the bytes `y`. -/
def MarkerAt (y : Nat → Byte) (i : Nat) : Prop := ∀ j, j < markerLen → y (i + j) = marker.getD j 0

/-- The first `n` bytes of `m` are `x`. -/
def Holds (m : Memory) (n : Nat) (x : Nat → Byte) : Prop := ∀ i, i < n → m.read i = some (x i)

/-- The first `n` slots of PIX carry the bits of the stream of `y` in their LSBs. -/
def SlotsCarry (m : Memory) (n : Nat) (y : Nat → Byte) : Prop :=
  ∀ k, k < n → (m.read (slotOffset k)).map lsb = some (streamBit y k)

/-- The length checks of 40 R96, as the table gives them, of the latched registers. -/
def LengthsLegal (i : Instr) (s : State) : Prop :=
  match i with
  | .ser => s.cur.msgLen.toNat ≤ s.cfg.msgCap
  | .des => s.cur.bitLen.toNat ≤ s.cfg.bitCap
  | .xor => s.cur.msgLen.toNat ≤ s.cfg.msgCap ∧ s.cur.pwdLen.toNat ≤ s.cfg.pwdCap
  | .frame => s.cur.msgLen.toNat ≤ s.cfg.msgCap ∧ s.cur.pwdLen.toNat ≤ s.cfg.pwdCap
  | .find => s.cur.msgLen.toNat ≤ s.cfg.msgCap
  | .embed => s.cur.msgLen.toNat ≤ s.cfg.msgCap ∧ s.cur.pwdLen.toNat ≤ s.cfg.pwdCap ∧
      s.cur.pixLen.toNat ≤ s.cfg.pixCap ∧ s.cur.pixLen.toNat % 4 = 0
  | .extract => s.cur.pwdLen.toNat ≤ s.cfg.pwdCap ∧ s.cur.pixLen.toNat ≤ s.cfg.pixCap ∧ s.cur.pixLen.toNat % 4 = 0

/-- The codes a command can end with (60 R168). -/
def PossibleCode (i : Instr) (code : ErrCode) : Prop :=
  match i with
  | .ser => code = .ok ∨ code = .badLength
  | .des => code = .ok ∨ code = .malformedBitLength ∨ code = .badLength
  | .xor => code = .ok ∨ code = .badLength
  | .frame => code = .ok ∨ code = .badLength
  | .find => code = .ok ∨ code = .badLength
  | .embed => code = .ok ∨ code = .emptyMessage ∨ code = .capacityExceeded ∨ code = .badLength
  | .extract => code = .ok ∨ code = .markerNotFound ∨ code = .badLength

/-- The bytes a reset makes unspecified when it aborts a command (70 R191's table), of the latched lengths. -/
def LostByte (i : Instr) (s : State) (w : Window) (a : Nat) : Prop :=
  match i with
  | .ser => w = .bit ∧ a < 8 * s.cur.msgLen.toNat
  | .des => w = .out ∧ a < s.cur.bitLen.toNat / 8
  | .xor => w = .out ∧ a < s.cur.msgLen.toNat
  | .frame => w = .out ∧ a < s.cur.msgLen.toNat + 9
  | .find => w = .out ∧ a < s.cur.msgLen.toNat
  | .embed => w = .pix ∧ a < s.cur.pixLen.toNat ∧ a % 4 ≠ 3
  | .extract => w = .out ∧ a < 3 * (s.cur.pixLen.toNat / 4) / 8

/-- The registers after a reset (10_state R23, R47); the configuration and the coming events are as before. -/
structure ResetRegisters (s t : State) : Prop where
  ie       : t.ie = false
  busy     : t.busy = false
  done     : t.done = false
  found    : t.found = false
  ovr      : t.ovr = false
  err      : t.err = .ok
  msgLen   : t.msgLen = 0
  pwdLen   : t.pwdLen = 0
  pixLen   : t.pixLen = 0
  bitLen   : t.bitLen = 0
  outLen   : t.outLen = 0
  reqBits  : t.reqBits = 0
  bitsDone : t.bitsDone = 0
  pipe     : t.pipe = .idle
  irq      : t.irq = false
  cfg      : t.cfg = s.cfg

/-- `y` can be framed and found again: it holds no marker and does not end with `###END`, `###END#` or `###END##`
(43_framer R132). -/
def CollisionFree (y : List Byte) : Prop :=
  ¬ marker <:+: y ∧ ¬ marker.take 6 <:+ y ∧ ¬ marker.take 7 <:+ y ∧ ¬ marker.take 8 <:+ y

/-- The host address of an offset of a buffer. -/
def AddressOf (c : Config) (w : Window) (o : Nat) (a : Word) : Prop := a.toNat = c.sccBase.toNat + w.base + o

/-- The host address of an offset of the REG window. -/
def RegAddressOf (c : Config) (o : Nat) (a : Word) : Prop := a.toNat = c.sccBase.toNat + o

/-- The next event is a 32-bit host WRITE of `v` at an offset of the REG window (log 1). -/
def RegWriteComes (s : State) (o : Nat) (v : Word) : Prop :=
  ∃ a rest, s.agenda = .host (.write32 a v) :: rest ∧ RegAddressOf s.cfg o a

/-- The next event is a host WRITE, of either size, at a valid offset of a buffer, and no command runs (log 1). -/
def BufferWriteComes (s : State) (w : Window) : Prop :=
  s.busy = false ∧ ∃ acc o rest, s.agenda = .host acc :: rest ∧ ((∃ a v, acc = .write8 a v) ∨ ∃ a v, acc = .write32 a v) ∧
    AddressOf s.cfg w o acc.addr ∧ o < capOf s.cfg w

/-- The engine's turn comes: its event is next (log 1), or no event is left (log 2). -/
def EngineComes (s : State) : Prop := s.agenda = [] ∨ ∃ rest, s.agenda = .engine :: rest

/-- A warm reset comes (log 1). -/
def ResetComes (s : State) : Prop := ∃ rest, s.agenda = .reset :: rest

/-- A power-on comes (log 1, log 14). -/
def PowerOnComes (s : State) : Prop := ∃ rest, s.agenda = .powerOn :: rest

/-- Between `s` and `t` the running command `i` ends: it completes, or a warm reset aborts it. -/
def CommandEnds (i : Instr) (s t : State) : Prop :=
  s.busy = true ∧ t.busy = false ∧ decode s.cur.word = .ok i ∧ (EngineComes s ∨ ResetComes s)

/-- `s` and `u` agree on what command `i` reads: the configuration, and the latched registers and the buffers of its row
(30_encoding R86). -/
def AgreeOnReads (i : Instr) (s u : State) : Prop :=
  u.cfg = s.cfg ∧ match i with
    | .ser => u.cur.msgLen = s.cur.msgLen ∧ u.msg = s.msg
    | .des => u.cur.bitLen = s.cur.bitLen ∧ u.bit = s.bit
    | .xor => u.cur.msgLen = s.cur.msgLen ∧ u.cur.pwdLen = s.cur.pwdLen ∧ u.msg = s.msg ∧ u.pwd = s.pwd
    | .frame => u.cur.msgLen = s.cur.msgLen ∧ u.cur.pwdLen = s.cur.pwdLen ∧ u.msg = s.msg ∧ u.pwd = s.pwd
    | .find => u.cur.msgLen = s.cur.msgLen ∧ u.msg = s.msg
    | .embed => u.cur.msgLen = s.cur.msgLen ∧ u.cur.pwdLen = s.cur.pwdLen ∧ u.cur.pixLen = s.cur.pixLen ∧ u.msg = s.msg ∧
        u.pwd = s.pwd ∧ u.pix = s.pix
    | .extract => u.cur.pwdLen = s.cur.pwdLen ∧ u.cur.pixLen = s.cur.pixLen ∧ u.pwd = s.pwd ∧ u.pix = s.pix

/-- A location that held `x` and `y` in two states holds one value after a command, or is as it was in both. -/
def SameOrKept {α : Type} (x y x' y' : α) : Prop := y' = x' ∨ (x' = x ∧ y' = y)

/-- The command had one result from `s` to `s'` and from `u` to `u'`: the same code, and every result register and every byte
of OUT, BIT and PIX the same, or as it was in both. -/
structure SameResult (s u s' u' : State) : Prop where
  err      : u'.err = s'.err
  found    : SameOrKept s.found u.found s'.found u'.found
  bitLen   : SameOrKept s.bitLen u.bitLen s'.bitLen u'.bitLen
  outLen   : SameOrKept s.outLen u.outLen s'.outLen u'.outLen
  reqBits  : SameOrKept s.reqBits u.reqBits s'.reqBits u'.reqBits
  bitsDone : SameOrKept s.bitsDone u.bitsDone s'.bitsDone u'.bitsDone
  out      : ∀ a, SameOrKept (s.out.read a) (u.out.read a) (s'.out.read a) (u'.out.read a)
  bit      : ∀ a, SameOrKept (s.bit.read a) (u.bit.read a) (s'.bit.read a) (u'.bit.read a)
  pix      : ∀ a, SameOrKept (s.pix.read a) (u.pix.read a) (s'.pix.read a) (u'.pix.read a)

/-- Byte `i` of the keystream of a password (42_cipher R116); 0 for the empty password, under which `apply` changes nothing. -/
def keyByte (p : List Byte) (i : Nat) : Byte := if p.length = 0 then 0 else p.getD (i % p.length) 0

end Sys2Proof.Machine

open Sys2Proof Sys2Proof.Machine

/-! ### Encoding -/

/-- R75, R78: the decoder reads back every command's word. -/
def Obligations.DecodeOfEncodeIsTheCommand : Prop :=
  ∀ i : Instr, i.wf = true → decode (encode i) = .ok i

/-- R79: a word decodes to a command exactly when it is one of 0x00000001 to 0x00000007, and then to the one whose word it is;
every other word completes with IllegalCommand (R95). -/
def Obligations.ExactlySevenWordsDecode : Prop :=
  (∀ (c : Word) (i : Instr), decode c = .ok i ↔ c = encode i) ∧
  (∀ c : Word, (∃ i, decode c = .ok i) ↔ 1 ≤ c.toNat ∧ c.toNat ≤ 7) ∧
  ∀ s : State, s.busy = true → ¬ (1 ≤ s.cur.word.toNat ∧ s.cur.word.toNat ≤ 7) →
    engineTurn s = .next { s with err := .illegalCommand, busy := false, done := true, pipe := .idle }

/-- R80: the reserved encodings, each with its reason; no other word is rejected. -/
def Obligations.ReservedWordsAreRejectedByName : Prop :=
  ∀ c : Word, (c.toNat / 16 ≠ 0 ↔ decode c = .error .reservedBitsSet) ∧
    ((c.toNat = 0 ∨ 8 ≤ c.toNat ∧ c.toNat ≤ 15) ↔ decode c = .error .reservedOpcode)

/-- R78, R87: words written out from the opcode map. -/
def Obligations.WorkedEncodingsDecode : Prop :=
  decode 0x00000001 = .ok .ser ∧ decode 0x00000002 = .ok .des ∧ decode 0x00000003 = .ok .xor ∧
  decode 0x00000004 = .ok .frame ∧ decode 0x00000005 = .ok .find ∧ decode 0x00000006 = .ok .embed ∧
  decode 0x00000007 = .ok .extract ∧ decode 0x00000016 = .error .reservedBitsSet ∧
  decode 0x80000007 = .error .reservedBitsSet ∧ decode 0x0000000F = .error .reservedOpcode

/-! ### The command lifecycle -/

/-- R93, R103: the engine's turn runs the command that CUR.word decodes to; the agenda is the model's own (log 1, log 2). -/
def Obligations.StepRunsTheDecodedCommand : Prop :=
  ∀ (s : State) (i : Instr), s.busy = true → decode s.cur.word = .ok i →
    (∀ rest, s.agenda = .engine :: rest → step s = exec i { s with agenda := rest }) ∧
    (s.agenda = [] → step s = exec i s)

/-- R103: a step is the next event's: the host's access, the engine's turn (which changes nothing while BUSY = 0), a slot of the
hidden cursor, a reset or a power-on; with no event left, the engine's turn. The agenda is the model's own (log 1, log 2, log 3,
log 8). -/
def Obligations.StepTakesTheNextEvent : Prop :=
  (∀ (s : State) (rest : List Event),
    (∀ a, s.agenda = .host a :: rest → step s = hostStep a { s with agenda := rest }) ∧
    (s.agenda = .engine :: rest → step s = engineTurn { s with agenda := rest }) ∧
    (s.agenda = .work :: rest → step s = workStep { s with agenda := rest }) ∧
    (s.agenda = .reset :: rest → step s = .next (warmReset { s with agenda := rest })) ∧
    (s.agenda = .powerOn :: rest → step s = .next (powerOnReset { s with agenda := rest }))) ∧
  (∀ s : State, s.agenda = [] → step s = engineTurn s) ∧
  ∀ s : State, s.busy = false → engineTurn s = .next s

/-- R95: an Illegal word completes with ERR = 6, and no buffer and no register other than STATUS changes (FOUND stays as it
was). -/
def Obligations.IllegalWordCompletesWithIllegalCommand : Prop :=
  ∀ (s : State) (r : DecodeReject), s.busy = true → decode s.cur.word = .error r →
    engineTurn s = .next { s with err := .illegalCommand, busy := false, done := true, pipe := .idle }

/-- R90: a CMD write of `c` while BUSY = 0 latches `c` and the operand registers, sets BUSY, clears DONE, FOUND and ERR, is
answered OKAY, and changes nothing else (but the hidden cursor, which starts: R22). -/
def Obligations.CmdWriteWhileIdleIsAccepted : Prop :=
  ∀ (s : State) (a c : Word), s.busy = false → RegAddressOf s.cfg 0x008 a →
    hostStep (.write32 a c) s = .next { s with
      cur := { word := c, msgLen := s.msgLen, pwdLen := s.pwdLen, pixLen := s.pixLen, bitLen := s.bitLen }
      busy := true, done := false, found := false, err := .ok
      pipe := Pipe.start c, answer := some .okay }

/-- R91: a CMD write while BUSY = 1 is answered OKAY, sets OVR, and changes nothing else. -/
def Obligations.CmdWriteWhileBusyIsDropped : Prop :=
  ∀ (s : State) (a c : Word), s.busy = true → RegAddressOf s.cfg 0x008 a →
    hostStep (.write32 a c) s = .next { s with ovr := true, answer := some .okay }

/-- R67, R100: while a command runs and until its completion, no step changes a buffer, a result register, FOUND, ERR, DONE
or CUR; BIT_LEN changes only at a host WRITE to it (R34). -/
def Obligations.NothingShowsBeforeCompletion : Prop :=
  ∀ s t : State, s.busy = true → s.done = false → step s = .next t → t.busy = true →
    t.msg = s.msg ∧ t.pwd = s.pwd ∧ t.out = s.out ∧ t.bit = s.bit ∧ t.pix = s.pix ∧ t.outLen = s.outLen ∧
    t.reqBits = s.reqBits ∧ t.bitsDone = s.bitsDone ∧ t.found = s.found ∧ t.err = s.err ∧ t.done = s.done ∧ t.cur = s.cur ∧
    (t.bitLen = s.bitLen ∨ ∃ v, RegWriteComes s 0x01C v)

/-- R28 to R32: every change of a STATUS bit is at an event the rules name. BUSY rises at a CMD write while idle and falls at the
engine's completion or a reset. DONE rises at the engine's completion and falls at a STATUS write with bit 1, an acceptance or a
reset. FOUND rises at the completion of FIND or EXTRACT and falls at an acceptance or a reset. OVR rises at a CMD write while
BUSY = 1 and falls at a STATUS write with bit 3 or a reset. ERR changes at an acceptance, the engine's completion or a reset. The
agenda is the model's own (log 1), and so is the engine's turn when it is empty (log 2). -/
def Obligations.StatusBitsChangeOnlyAsTheRulesSay : Prop :=
  ∀ s t : State, step s = .next t →
    (s.busy = false → t.busy = true → ∃ c, RegWriteComes s 0x008 c ∧ t.cur.word = c) ∧
    (s.busy = true → t.busy = false → EngineComes s ∨ ResetComes s ∨ PowerOnComes s) ∧
    (s.done = false → t.done = true → s.busy = true ∧ t.busy = false ∧ EngineComes s) ∧
    (s.done = true → t.done = false → (∃ v, RegWriteComes s 0x00C v ∧ v.getLsbD 1 = true) ∨
      (s.busy = false ∧ ∃ c, RegWriteComes s 0x008 c) ∨ ResetComes s ∨ PowerOnComes s) ∧
    (s.found = false → t.found = true → s.busy = true ∧ t.busy = false ∧ EngineComes s ∧
      (decode s.cur.word = .ok .find ∨ decode s.cur.word = .ok .extract)) ∧
    (s.found = true → t.found = false →
      (s.busy = false ∧ ∃ c, RegWriteComes s 0x008 c) ∨ ResetComes s ∨ PowerOnComes s) ∧
    (s.ovr = false → t.ovr = true → s.busy = true ∧ ∃ c, RegWriteComes s 0x008 c) ∧
    (s.ovr = true → t.ovr = false → (∃ v, RegWriteComes s 0x00C v ∧ v.getLsbD 3 = true) ∨ ResetComes s ∨ PowerOnComes s) ∧
    (t.err ≠ s.err → (s.busy = false ∧ ∃ c, RegWriteComes s 0x008 c) ∨ (s.busy = true ∧ t.busy = false ∧ EngineComes s) ∨
      ResetComes s ∨ PowerOnComes s)

/-- R94, R104: run long enough to take every event and once more, the machine either meets a fault or has ended: no event
left, BUSY = 0. The agenda is the model's own (log 1, log 2). -/
def Obligations.EveryRunEndsIdle : Prop :=
  ∀ s : State, match Sys2Proof.core.run (s.agenda.length + 1) s with
    | .next t => t.ended = true
    | .fault _ => True
    | .refused _ => False

/-! ### Registers -/

/-- R27: the layout of STATUS as read, its value at reset, and what a STATUS write does, at any time; and the numbers of the error
codes (R167). -/
def Obligations.StatusRegister : Prop :=
  (ErrCode.ok.code = 0 ∧ ErrCode.emptyMessage.code = 1 ∧ ErrCode.capacityExceeded.code = 2 ∧
    ErrCode.malformedBitLength.code = 3 ∧ ErrCode.markerNotFound.code = 4 ∧ ErrCode.badLength.code = 5 ∧
    ErrCode.illegalCommand.code = 6) ∧
  ∀ s : State, (s.status.getLsbD 0 = s.busy ∧ s.status.getLsbD 1 = s.done ∧ s.status.getLsbD 2 = s.found ∧
    s.status.getLsbD 3 = s.ovr ∧ s.status.extractLsb' 8 4 = s.err.code ∧
    (∀ k, 4 ≤ k → k ≤ 7 → s.status.getLsbD k = false) ∧ ∀ k, 12 ≤ k → k ≤ 31 → s.status.getLsbD k = false) ∧
    State.reset.status = 0 ∧
    ∀ a w : Word, RegAddressOf s.cfg 0x00C a →
      hostStep (.read32 a) s = .next { s with answer := some (.data32 s.status) } ∧
      hostStep (.write32 a w) s = .next { s with
        done := if w.getLsbD 1 then false else s.done
        ovr := if w.getLsbD 3 then false else s.ovr
        answer := some .okay }

/-- R25: CTRL reads IE in bit 0 and 0 above it; a write of any value keeps bit 0 alone, at any time; IE is 0 at reset, and enables
irq. -/
def Obligations.CtrlRegister : Prop :=
  ∀ (s : State) (a w : Word), RegAddressOf s.cfg 0x004 a →
    (∃ v : Word, hostStep (.read32 a) s = .next { s with answer := some (.data32 v) } ∧ v.getLsbD 0 = s.ie ∧
      ∀ k, 1 ≤ k → k ≤ 31 → v.getLsbD k = false) ∧
    hostStep (.write32 a w) s = .next { s with ie := w.getLsbD 0, answer := some .okay } ∧
    State.reset.ie = false ∧ s.irq = (s.done && s.ie)

/-- R23, R24, R33 to R39: what a 32-bit READ of each register answers, at any time; the read changes nothing but the bus
answer. -/
def Obligations.RegisterReadsAnswer : Prop :=
  ∀ (s : State) (a : Word) (off : Nat) (v : Word), RegAddressOf s.cfg off a →
    (off, v) ∈ [(0x000, 0x53434331), (0x010, s.msgLen), (0x014, s.pwdLen), (0x018, s.pixLen), (0x01C, s.bitLen),
      (0x020, s.outLen), (0x024, BitVec.ofNat 32 (3 * (s.pixLen.toNat / 4))), (0x028, s.reqBits), (0x02C, s.bitsDone),
      (0x030, BitVec.ofNat 32 s.cfg.msgCap), (0x034, BitVec.ofNat 32 s.cfg.pwdCap),
      (0x038, BitVec.ofNat 32 s.cfg.pixCap), (0x03C, BitVec.ofNat 32 s.cfg.outCap),
      (0x040, BitVec.ofNat 32 s.cfg.bitCap), (0x044, 9)] →
      hostStep (.read32 a) s = .next { s with answer := some (.data32 v) }

/-- R33, R34: the operand registers store every 32-bit value the host writes, at any time, and nothing else changes. -/
def Obligations.OperandRegistersStoreEveryValue : Prop :=
  ∀ (s : State) (a w : Word),
    (RegAddressOf s.cfg 0x010 a → hostStep (.write32 a w) s = .next { s with msgLen := w, answer := some .okay }) ∧
    (RegAddressOf s.cfg 0x014 a → hostStep (.write32 a w) s = .next { s with pwdLen := w, answer := some .okay }) ∧
    (RegAddressOf s.cfg 0x018 a → hostStep (.write32 a w) s = .next { s with pixLen := w, answer := some .okay }) ∧
    (RegAddressOf s.cfg 0x01C a → hostStep (.write32 a w) s = .next { s with bitLen := w, answer := some .okay })

/-- R35: CAPACITY reads 3 * (PIX_LEN div 4) of the current PIX_LEN, the value fits in 32 bits, and a write gets ERROR. -/
def Obligations.CapacityReadsLivePixLen : Prop :=
  ∀ (s : State) (a w : Word), RegAddressOf s.cfg 0x024 a →
    (∃ v : Word, hostStep (.read32 a) s = .next { s with answer := some (.data32 v) } ∧ v.toNat = 3 * (s.pixLen.toNat / 4)) ∧
    hostStep (.write32 a w) s = .next { s with answer := some .error }

/-- R175: irq is DONE AND IE; so the completion of any command, an Illegal word's too, drives it to IE, a CTRL write to DONE AND its bit 0, an
acknowledgement, an acceptance and a reset drive it low. -/
def Obligations.IrqIsDoneAndIe : Prop :=
  (∀ s : State, s.irq = (s.done && s.ie)) ∧
  (∀ (i : Instr) (s t : State), exec i s = .next t → t.irq = s.ie) ∧
  (∀ s t : State, s.busy = true → engineTurn s = .next t → t.irq = s.ie) ∧
  (∀ (s : State) (w : Word), (writeCtrl w s).irq = (s.done && w.getLsbD 0)) ∧
  (∀ (s : State) (w : Word), w.getLsbD 1 = true → (acknowledge w s).irq = false) ∧
  (∀ (s : State) (c : Word), (accept c s).irq = false) ∧
  ∀ s : State, (warmReset s).irq = false ∧ (powerOnReset s).irq = false

/-! ### The host bus -/

/-- R56, R51: the REG window answers ERROR to a 1-byte access, to an offset that is no multiple of 4, and to a reserved
offset, and nothing else changes. -/
def Obligations.BadRegisterAccessGetsError : Prop :=
  ∀ (s : State) (acc : Access) (off : Nat), RegAddressOf s.cfg off acc.addr → off < 0x1000 →
    ((∃ a, acc = .read8 a) ∨ (∃ a v, acc = .write8 a v) ∨ off % 4 ≠ 0 ∨ 0x048 ≤ off) →
      hostStep acc s = .next { s with answer := some .error }

/-- R51: an access outside every window, or at an offset at or beyond a buffer's valid offsets, gets ERROR and nothing else
changes. That it gets ERROR also while BUSY = 1, and not R68's hazard, is the model's choice for an offset of a buffer's window
(log 10). -/
def Obligations.UnmappedAccessGetsError : Prop :=
  ∀ (s : State) (acc : Access),
    (acc.addr.toNat < s.cfg.sccBase.toNat ∨ s.cfg.sccBase.toNat + 0x40000000 ≤ acc.addr.toNat ∨
      (s.cfg.sccBase.toNat + 0x2000 ≤ acc.addr.toNat ∧ acc.addr.toNat < s.cfg.sccBase.toNat + 0x04000000) ∨
      ∃ (w : Window) (o : Nat), AddressOf s.cfg w o acc.addr ∧ capOf s.cfg w ≤ o ∧ o < w.size) →
      hostStep acc s = .next { s with answer := some .error }

/-- R57, R48, R42: while BUSY = 0, or in MARKER, a 1-byte READ at a valid offset answers the byte there, and faults when
the byte is unwritten. -/
def Obligations.ByteReadAnswersTheByte : Prop :=
  ∀ (s : State) (w : Window) (o : Nat) (a : Word), AddressOf s.cfg w o a → o < capOf s.cfg w →
    (s.busy = false ∨ w = .marker) →
    (∀ v, s.byteAt w o = some v → hostStep (.read8 a) s = .next { s with answer := some (.data8 v) }) ∧
    (s.byteAt w o = none → hostStep (.read8 a) s = .fault (.hostReadUnwritten w))

/-- R57, R60, R42: while BUSY = 0 a 1-byte WRITE to MSG, PWD, BIT or PIX at a valid offset stores the byte (a BIT cell keeps
bit 0) and changes no other byte of any buffer and no register. -/
def Obligations.ByteWriteStoresTheByte : Prop :=
  ∀ (s : State) (w : Window) (o : Nat) (a : Word) (v : Byte), AddressOf s.cfg w o a → o < capOf s.cfg w →
    s.busy = false → w ≠ .marker → w ≠ .out →
      ∃ t, hostStep (.write8 a v) s = .next t ∧ t.answer = some .okay ∧
        t.byteAt w o = some (if w = .bit then v &&& 1 else v) ∧
        (∀ w' o', (w' ≠ w ∨ o' ≠ o) → t.byteAt w' o' = s.byteAt w' o') ∧
        t = { s with msg := t.msg, pwd := t.pwd, bit := t.bit, pix := t.pix, answer := some .okay }

/-- R54: a 4-byte access at an aligned offset wholly inside the buffer is little-endian (while BUSY = 0, or a READ of MARKER); of
each byte written to BIT bit 0 is kept (R60). A READ with any of its four bytes unwritten faults (R48, R63). -/
def Obligations.WordAccessIsLittleEndian : Prop :=
  ∀ (s : State) (w : Window) (o : Nat) (a : Word), AddressOf s.cfg w o a → o % 4 = 0 → o + 3 < capOf s.cfg w →
    (∀ b0 b1 b2 b3 : Byte, (s.busy = false ∨ w = .marker) →
      s.byteAt w o = some b0 → s.byteAt w (o + 1) = some b1 → s.byteAt w (o + 2) = some b2 →
      s.byteAt w (o + 3) = some b3 →
      ∃ v : Word, hostStep (.read32 a) s = .next { s with answer := some (.data32 v) } ∧
        v.toNat = b3.toNat * 0x1000000 + b2.toNat * 0x10000 + b1.toNat * 0x100 + b0.toNat) ∧
    ((s.busy = false ∨ w = .marker) → (∃ k, k < 4 ∧ s.byteAt w (o + k) = none) →
      hostStep (.read32 a) s = .fault (.hostReadUnwritten w)) ∧
    (∀ v : Word, s.busy = false → w ≠ .marker → w ≠ .out →
      ∃ t, hostStep (.write32 a v) s = .next t ∧ t.answer = some .okay ∧
        (∀ k, k < 4 → t.byteAt w (o + k) =
          some (if w = .bit then v.extractLsb' (8 * k) 8 &&& 1 else v.extractLsb' (8 * k) 8)) ∧
        (∀ w' o', (w' ≠ w ∨ o' < o ∨ o + 3 < o') → t.byteAt w' o' = s.byteAt w' o') ∧
        t = { s with msg := t.msg, pwd := t.pwd, bit := t.bit, pix := t.pix, answer := some .okay })

/-- R57: while BUSY = 0, or in MARKER, a 4-byte access that is misaligned or not wholly inside the buffer gets ERROR, and nothing
else changes. -/
def Obligations.BadWordAccessGetsError : Prop :=
  ∀ (s : State) (acc : Access) (w : Window) (o : Nat), AddressOf s.cfg w o acc.addr → o < w.size →
    (s.busy = false ∨ w = .marker) → ((∃ a, acc = .read32 a) ∨ ∃ a v, acc = .write32 a v) →
    (o % 4 ≠ 0 ∨ capOf s.cfg w ≤ o + 3) →
      hostStep acc s = .next { s with answer := some .error }

/-- R59: a WRITE to MARKER, a WRITE to OUT (while BUSY = 0: log 10), a WRITE to a read-only register and a READ of CMD get ERROR,
and nothing else changes. -/
def Obligations.WrongDirectionGetsError : Prop :=
  ∀ (s : State) (a : Word),
    (∀ (w : Window) (o : Nat) (acc : Access), AddressOf s.cfg w o a → o < w.size →
      (w = .marker ∨ w = .out ∧ s.busy = false) →
      ((∃ v, acc = .write8 a v) ∨ ∃ v, acc = .write32 a v) → hostStep acc s = .next { s with answer := some .error }) ∧
    (∀ v off, RegAddressOf s.cfg off a →
      off ∈ [0x000, 0x020, 0x024, 0x028, 0x02C, 0x030, 0x034, 0x038, 0x03C, 0x040, 0x044] →
      hostStep (.write32 a v) s = .next { s with answer := some .error }) ∧
    (RegAddressOf s.cfg 0x008 a → hostStep (.read32 a) s = .next { s with answer := some .error })

/-- R68: while BUSY = 1 any host access at a valid offset of MSG, PWD, OUT, BIT or PIX faults (its priority over ERROR is the
model's choice, log 10). -/
def Obligations.BufferAccessWhileBusyFaults : Prop :=
  ∀ (s : State) (acc : Access) (w : Window) (o : Nat), s.busy = true → w ≠ .marker →
    AddressOf s.cfg w o acc.addr → o < capOf s.cfg w →
      hostStep acc s = .fault (.hostBufferAccessWhileBusy w)

/-- R58: an access that gets ERROR changes no register, no buffer and no hidden state. -/
def Obligations.ErrorAnswerChangesNothing : Prop :=
  ∀ (s t : State) (acc : Access), hostStep acc s = .next t → t.answer = some .error →
    t = { s with answer := some .error }

/-- R63: every READ is free of side effects, and a WRITE to any location other than CMD is idempotent. -/
def Obligations.ReadsAreFreeAndWritesIdempotent : Prop :=
  (∀ (s t : State) (acc : Access), ((∃ a, acc = .read8 a) ∨ ∃ a, acc = .read32 a) → hostStep acc s = .next t →
    t = { s with answer := t.answer }) ∧
  ∀ (s t : State) (acc : Access), ((∃ a v, acc = .write8 a v) ∨ ∃ a v, acc = .write32 a v) →
    ¬ RegAddressOf s.cfg 0x008 acc.addr → hostStep acc s = .next t → hostStep acc t = .next t

/-! ### Bit codec, cipher and framer -/

/-- R105, R106: SER writes cell k with bit 7 - (k mod 8) of MSG[k div 8], for k < 8*MSG_LEN, and BIT_LEN; nothing else. With
MSG_LEN > MSG_CAP it ends in BadLength and writes nothing. -/
def Obligations.SerWritesTheBitStream : Prop :=
  decode 0x00000001 = .ok .ser ∧
  (∀ (s : State) (x : Nat → Byte), s.cur.msgLen.toNat ≤ s.cfg.msgCap → Holds s.msg s.cur.msgLen.toNat x →
    ∃ t, exec .ser s = .next t ∧ Completes s t .ok ∧ t.bitLen.toNat = 8 * s.cur.msgLen.toNat ∧
      (∀ k, t.bit.read k = if k < 8 * s.cur.msgLen.toNat then some (streamBit x k) else s.bit.read k) ∧
      OutKept s t ∧ PixKept s t ∧ CountsKept s t ∧ t.found = s.found) ∧
  ∀ s : State, s.cfg.msgCap < s.cur.msgLen.toNat →
    exec .ser s = .next { s with err := .badLength, busy := false, done := true, pipe := .idle }

/-- R108, R109: with BIT_LEN a multiple of 8, DES writes OUT[i] = sum over t of cell 8*i+t times 2^(7-t), and OUT_LEN; nothing
else. With BIT_LEN > BIT_CAP it ends in BadLength, else with BIT_LEN no multiple of 8 in MalformedBitLength, and writes nothing. -/
def Obligations.DesWritesTheBytes : Prop :=
  decode 0x00000002 = .ok .des ∧
  (∀ (s : State) (b : Nat → Bool), s.cur.bitLen.toNat ≤ s.cfg.bitCap → s.cur.bitLen.toNat % 8 = 0 →
    (∀ k, k < s.cur.bitLen.toNat → s.bit.read k = some (b k)) →
    ∃ t, exec .des s = .next t ∧ Completes s t .ok ∧ t.outLen.toNat = s.cur.bitLen.toNat / 8 ∧
      (∀ i, i < s.cur.bitLen.toNat / 8 → ∃ v, t.out.read i = some v ∧
        v.toNat = (b (8 * i)).toNat * 128 + (b (8 * i + 1)).toNat * 64 + (b (8 * i + 2)).toNat * 32 +
          (b (8 * i + 3)).toNat * 16 + (b (8 * i + 4)).toNat * 8 + (b (8 * i + 5)).toNat * 4 +
          (b (8 * i + 6)).toNat * 2 + (b (8 * i + 7)).toNat) ∧
      (∀ i, s.cur.bitLen.toNat / 8 ≤ i → t.out.read i = s.out.read i) ∧
      BitKept s t ∧ PixKept s t ∧ CountsKept s t ∧ t.found = s.found) ∧
  (∀ s : State, s.cfg.bitCap < s.cur.bitLen.toNat →
    exec .des s = .next { s with err := .badLength, busy := false, done := true, pipe := .idle }) ∧
  ∀ s : State, s.cur.bitLen.toNat ≤ s.cfg.bitCap → s.cur.bitLen.toNat % 8 ≠ 0 →
    exec .des s = .next { s with err := .malformedBitLength, busy := false, done := true, pipe := .idle }

/-- R110: the codec round trips, as functions and as the commands SER and then DES with no write to BIT or BIT_LEN in between. -/
def Obligations.CodecRoundTrips : Prop :=
  (∀ x : List Byte, bitsToBytes (bytesToBits x) = some x) ∧
  (∀ b : List Bool, b.length % 8 = 0 → ∃ x, bitsToBytes b = some x ∧ bytesToBits x = b) ∧
  ∀ s t u : State, s.cur.msgLen.toNat ≤ s.cfg.msgCap → exec .ser s = .next t → u.cfg = s.cfg →
    (∀ k, u.bit.read k = t.bit.read k) → u.cur.bitLen = t.bitLen →
    ∃ v, exec .des u = .next v ∧ v.err = .ok ∧ v.outLen = s.cur.msgLen ∧
      ∀ i, i < s.cur.msgLen.toNat → v.out.read i = s.msg.read i

/-- R113: the shift-register datapaths of SER and DES compute the functions of R105 and R108. -/
def Obligations.DatapathsComputeTheCodec : Prop :=
  (∀ x : List Byte, serDatapath x = bytesToBits x) ∧
  ∀ b : List Bool, desDatapath 0 0 b = wholeBytes b

/-- R115: XOR writes MSG[i] XOR PWD[i mod PWD_LEN], or MSG[i] when PWD_LEN = 0, and OUT_LEN; nothing else; only
PWD[0..min(PWD_LEN, MSG_LEN)) need be written. With a length out of range it ends in BadLength and writes nothing. -/
def Obligations.XorAppliesTheKeystream : Prop :=
  decode 0x00000003 = .ok .xor ∧
  (∀ (s : State) (x p : Nat → Byte), s.cur.msgLen.toNat ≤ s.cfg.msgCap → s.cur.pwdLen.toNat ≤ s.cfg.pwdCap →
    Holds s.msg s.cur.msgLen.toNat x → Holds s.pwd (min s.cur.pwdLen.toNat s.cur.msgLen.toNat) p →
    ∃ t, exec .xor s = .next t ∧ Completes s t .ok ∧ t.outLen = s.cur.msgLen ∧
      (∀ a, t.out.read a = if a < s.cur.msgLen.toNat then some (cipherByte x p s.cur.pwdLen.toNat a) else s.out.read a) ∧
      BitKept s t ∧ PixKept s t ∧ CountsKept s t ∧ t.found = s.found) ∧
  ∀ s : State, (s.cfg.msgCap < s.cur.msgLen.toNat ∨ s.cfg.pwdCap < s.cur.pwdLen.toNat) →
    exec .xor s = .next { s with err := .badLength, busy := false, done := true, pipe := .idle }

/-- R117: `apply` is an involution, and the identity for the empty password. -/
def Obligations.CipherIsAnInvolution : Prop :=
  (∀ x p : List Byte, apply (apply x p) p = x) ∧ ∀ x : List Byte, apply x [] = x

/-- R116: `apply` uses only the first min(len(p), len(x)) bytes of the password. -/
def Obligations.CipherReadsOnlyThePasswordBytesItUses : Prop :=
  ∀ x p q : List Byte, p.length = q.length → p.take x.length = q.take x.length →
    apply x p = apply x q ∧ apply x p = apply x (p.take x.length)

/-- R122: FRAME writes the obfuscated message and then the raw marker, and OUT_LEN = MSG_LEN + 9; nothing else. With a length out
of range it ends in BadLength and writes nothing. -/
def Obligations.FrameAppendsTheMarker : Prop :=
  decode 0x00000004 = .ok .frame ∧
  (∀ (s : State) (x p : Nat → Byte), s.cur.msgLen.toNat ≤ s.cfg.msgCap → s.cur.pwdLen.toNat ≤ s.cfg.pwdCap →
    Holds s.msg s.cur.msgLen.toNat x → Holds s.pwd (min s.cur.pwdLen.toNat s.cur.msgLen.toNat) p →
    ∃ t, exec .frame s = .next t ∧ Completes s t .ok ∧ t.outLen.toNat = s.cur.msgLen.toNat + 9 ∧
      (∀ a, t.out.read a = if a < s.cur.msgLen.toNat + 9
        then some (payloadByte x p s.cur.pwdLen.toNat s.cur.msgLen.toNat a) else s.out.read a) ∧
      BitKept s t ∧ PixKept s t ∧ CountsKept s t ∧ t.found = s.found) ∧
  ∀ s : State, (s.cfg.msgCap < s.cur.msgLen.toNat ∨ s.cfg.pwdCap < s.cur.pwdLen.toNat) →
    exec .frame s = .next { s with err := .badLength, busy := false, done := true, pipe := .idle }

/-- R126, R128: with a marker in MSG[0..MSG_LEN), FIND copies the bytes before the first one to OUT and sets FOUND; with none, it
ends with ERR = 0 and OUT_LEN = 0, leaves FOUND as acceptance left it, and changes no OUT byte. With MSG_LEN > MSG_CAP it ends in
BadLength and writes nothing. -/
def Obligations.FindCopiesUpToTheFirstMarker : Prop :=
  decode 0x00000005 = .ok .find ∧
  (∀ (s : State) (x : Nat → Byte) (i : Nat), s.cur.msgLen.toNat ≤ s.cfg.msgCap → Holds s.msg s.cur.msgLen.toNat x →
    i + 9 ≤ s.cur.msgLen.toNat → MarkerAt x i → (∀ j, j < i → ¬ MarkerAt x j) →
    ∃ t, exec .find s = .next t ∧ Completes s t .ok ∧ t.found = true ∧ t.outLen.toNat = i ∧
      (∀ a, t.out.read a = if a < i then some (x a) else s.out.read a) ∧ BitKept s t ∧ PixKept s t ∧ CountsKept s t) ∧
  (∀ (s : State) (x : Nat → Byte), s.cur.msgLen.toNat ≤ s.cfg.msgCap → Holds s.msg s.cur.msgLen.toNat x →
    (∀ i, i + 9 ≤ s.cur.msgLen.toNat → ¬ MarkerAt x i) →
    ∃ t, exec .find s = .next t ∧ Completes s t .ok ∧ t.found = s.found ∧ t.outLen = 0 ∧
      (∀ a, t.out.read a = s.out.read a) ∧ BitKept s t ∧ PixKept s t ∧ CountsKept s t) ∧
  ∀ s : State, s.cfg.msgCap < s.cur.msgLen.toNat →
    exec .find s = .next { s with err := .badLength, busy := false, done := true, pipe := .idle }

/-- R132: framing and then finding gives the obfuscated message back exactly when it is collision free. -/
def Obligations.FrameThenFindCollisionCondition : Prop :=
  ∀ m p : List Byte, findAndStrip (frame m p) = some (apply m p) ↔ CollisionFree (apply m p)

/-! ### Embedding and extraction -/

/-- R139, R140, R141: a successful EMBED writes stream bit k into bit 0 of the sample at slot k, keeps bits [7:1], and
changes no other byte of PIX (no alpha byte, no slot from L on, no byte beyond PIX_LEN). -/
def Obligations.EmbedWritesTheStreamIntoTheSlots : Prop :=
  ∀ (s : State) (x p v : Nat → Byte), LengthsLegal .embed s → 0 < s.cur.msgLen.toNat →
    8 * (s.cur.msgLen.toNat + 9) ≤ 3 * (s.cur.pixLen.toNat / 4) →
    Holds s.msg s.cur.msgLen.toNat x → Holds s.pwd (min s.cur.pwdLen.toNat s.cur.msgLen.toNat) p →
    (∀ k, k < 8 * (s.cur.msgLen.toNat + 9) → s.pix.read (4 * (k / 3) + k % 3) = some (v k)) →
    ∃ t, exec .embed s = .next t ∧ Completes s t .ok ∧ t.reqBits.toNat = 8 * (s.cur.msgLen.toNat + 9) ∧
      t.bitsDone = t.reqBits ∧
      (∀ k, k < 8 * (s.cur.msgLen.toNat + 9) → t.pix.read (4 * (k / 3) + k % 3) =
        some ((v k &&& 0xFE) |||
          if streamBit (payloadByte x p s.cur.pwdLen.toNat s.cur.msgLen.toNat) k then 1 else 0)) ∧
      (∀ a, (a % 4 = 3 ∨ 8 * (s.cur.msgLen.toNat + 9) ≤ 3 * (a / 4) + a % 4) → t.pix.read a = s.pix.read a) ∧
      BitKept s t ∧ OutKept s t ∧ t.found = s.found

/-- R138, R146: EMBED's checks in their order: BadLength, then CapacityExceeded (even when the message is empty), then
EmptyMessage; each fails with nothing written but STATUS and, past the length checks, REQ_BITS = L and BITS_DONE = 0 (R137). -/
def Obligations.EmbedChecksComeInOrder : Prop :=
  ∀ s : State,
    (¬ LengthsLegal .embed s →
      exec .embed s = .next { s with err := .badLength, busy := false, done := true, pipe := .idle }) ∧
    (LengthsLegal .embed s → 3 * (s.cur.pixLen.toNat / 4) < 8 * (s.cur.msgLen.toNat + 9) →
      ∃ t, exec .embed s = .next t ∧ Completes s t .capacityExceeded ∧
        t.reqBits.toNat = 8 * (s.cur.msgLen.toNat + 9) ∧ t.bitsDone = 0 ∧ PixKept s t ∧ BitKept s t ∧ OutKept s t ∧
        t.found = s.found) ∧
    (LengthsLegal .embed s → 8 * (s.cur.msgLen.toNat + 9) ≤ 3 * (s.cur.pixLen.toNat / 4) → s.cur.msgLen.toNat = 0 →
      ∃ t, exec .embed s = .next t ∧ Completes s t .emptyMessage ∧ t.reqBits.toNat = 72 ∧ t.bitsDone = 0 ∧
        PixKept s t ∧ BitKept s t ∧ OutKept s t ∧ t.found = s.found)

/-- R143, R144, R146, from the state after alone: whenever EMBED completes, every PIX byte keeps its bits [7:1], an unwritten
byte stays unwritten, and alpha bytes, slots at or beyond CAPACITY and everything on a failure are unchanged. -/
def Obligations.EmbedChangesOnlyBitZeroOfColourSamples : Prop :=
  ∀ s t : State, exec .embed s = .next t → ∀ a,
    (t.pix.read a).map (· &&& 0xFE) = (s.pix.read a).map (· &&& 0xFE) ∧
    ((a % 4 = 3 ∨ s.cur.pixLen.toNat ≤ a ∨ t.err ≠ .ok) → t.pix.read a = s.pix.read a)

/-- R147: over the framed payload, the shift-out pipeline writes stream bit k at the offset of slot k, for every k < L. -/
def Obligations.ShiftOutPipelineWritesTheSlots : Prop :=
  ∀ framed : List Byte, embedSlots framed (8 * framed.length) { k := 0, px := 0, ch := 0, sor := 0 } =
    (bytesToBits framed).mapIdx (fun k b => (slotOffset k, b))

/-- R154 to R156: when the LSBs of the first 8*(n+9) slots decode to `n` bytes and then the marker, with no marker
earlier, EXTRACT writes the unframed bytes to OUT; no later sample need be written. -/
def Obligations.ExtractReturnsThePayload : Prop :=
  ∀ (s : State) (y p : Nat → Byte) (n : Nat), LengthsLegal .extract s → 8 * (n + 9) ≤ 3 * (s.cur.pixLen.toNat / 4) →
    SlotsCarry s.pix (8 * (n + 9)) y → MarkerAt y n → (∀ i, i < n → ¬ MarkerAt y i) →
    Holds s.pwd (min s.cur.pwdLen.toNat n) p →
    ∃ t, exec .extract s = .next t ∧ Completes s t .ok ∧ t.found = true ∧ t.outLen.toNat = n ∧
      t.bitsDone.toNat = 8 * (n + 9) ∧
      (∀ a, t.out.read a = if a < n then some (cipherByte y p s.cur.pwdLen.toNat a) else s.out.read a) ∧
      PixKept s t ∧ BitKept s t ∧ t.reqBits = s.reqBits

/-- R157, R163: when every slot is written and no marker is decoded at a byte boundary, EXTRACT ends in MarkerNotFound:
OUT_LEN = 0, BITS_DONE = C, OUT[0..C div 8) unwritten, the rest of OUT unchanged, FOUND as acceptance left it. -/
def Obligations.ExtractWithoutMarkerFails : Prop :=
  ∀ (s : State) (y : Nat → Byte), LengthsLegal .extract s → SlotsCarry s.pix (3 * (s.cur.pixLen.toNat / 4)) y →
    (∀ i, 8 * (i + 9) ≤ 3 * (s.cur.pixLen.toNat / 4) → ¬ MarkerAt y i) →
    ∃ t, exec .extract s = .next t ∧ Completes s t .markerNotFound ∧ t.found = s.found ∧ t.outLen = 0 ∧
      t.bitsDone.toNat = 3 * (s.cur.pixLen.toNat / 4) ∧
      (∀ a, t.out.read a = if a < 3 * (s.cur.pixLen.toNat / 4) / 8 then none else s.out.read a) ∧
      PixKept s t ∧ BitKept s t ∧ t.reqBits = s.reqBits

/-- R158, R129: the window detector over the LSBs of all slots finds the marker exactly when the scan of R150 does, at the same
count, and has then written to OUT exactly the unframed payload. -/
def Obligations.WindowDetectorAgreesWithTheScan : Prop :=
  ∀ (pix : Memory) (pwd : List Byte) (bits : List Bool), LsbsAre pix bits →
    (windowDetect pwd { n := 0, sir := 0, nbytes := 0, win := [], j := 0 } [] bits = none ↔
      extractScan pix bits.length [] = .exhausted) ∧
    ∀ (out : List Byte) (n : Nat),
      windowDetect pwd { n := 0, sir := 0, nbytes := 0, win := [], j := 0 } [] bits = some (out, n) ↔
        ∃ y, extractScan pix bits.length [] = .found y n ∧ out = apply y pwd

/-- R152, R160, R166, R201: EXTRACT's result does not depend on alpha bytes, on bits [7:1] of any sample, on the latched MSG_LEN
and BIT_LEN, or on MSG and BIT. -/
def Obligations.ExtractDependsOnlyOnTheLsbs : Prop :=
  ∀ (s : State) (pix msg : Memory) (bit : Store Bool) (ml bl : Word),
    (∀ k, k < 3 * (s.cur.pixLen.toNat / 4) →
      (pix.read (slotOffset k)).map lsb = (s.pix.read (slotOffset k)).map lsb) →
    let u : State := { s with pix := pix, msg := msg, bit := bit, cur := { s.cur with msgLen := ml, bitLen := bl } }
    (∀ t, exec .extract s = .next t →
      exec .extract u = .next { t with pix := pix, msg := msg, bit := bit, cur := u.cur }) ∧
    ∀ f, exec .extract s = .fault f → exec .extract u = .fault f

/-- R161, R162: EMBED of a message `x` under password `p`, then EXTRACT with a password `q` and the same PIX_LEN, and no write
to PIX in between. EXTRACT succeeds, finds the first marker of `apply(x, p) ++ M` at some `i`, and returns
`apply(apply(x, p)[0..i), q)`; when `q` is `p`, it returns `x` if and only if `apply(x, p)` is collision free. When that is
collision free, it returns `apply(apply(x, p), q)`, which is `x` if and only if the two keystreams agree over all of `x`. -/
def Obligations.EmbedThenExtractRoundTrip : Prop :=
  ∀ (s t u : State) (x p q : List Byte), LengthsLegal .embed s → 0 < x.length → x.length = s.cur.msgLen.toNat →
    p.length = s.cur.pwdLen.toNat → 8 * (x.length + 9) ≤ 3 * (s.cur.pixLen.toNat / 4) →
    (∀ i, i < x.length → s.msg.read i = x[i]?) → (∀ i, i < min p.length x.length → s.pwd.read i = p[i]?) →
    exec .embed s = .next t →
    (∀ a, u.pix.read a = t.pix.read a) → (∀ i, i < min q.length x.length → u.pwd.read i = q[i]?) → u.cfg = s.cfg →
    q.length = u.cur.pwdLen.toNat → q.length ≤ u.cfg.pwdCap → u.cur.pixLen = s.cur.pixLen →
    ∃ (v : State) (i : Nat), exec .extract u = .next v ∧ v.err = .ok ∧ v.found = true ∧
      firstIndex marker (apply x p ++ marker) = some i ∧ i ≤ x.length ∧ v.outLen.toNat = i ∧
      v.bitsDone.toNat = 8 * (i + 9) ∧
      (∀ k, k < i → v.out.read k = (apply ((apply x p).take i) q)[k]?) ∧
      (q = p → ((v.outLen.toNat = x.length ∧ ∀ k, k < x.length → v.out.read k = x[k]?) ↔ CollisionFree (apply x p))) ∧
      (¬ CollisionFree (apply x p) → i < x.length) ∧
      (CollisionFree (apply x p) → i = x.length ∧ (∀ k, k < x.length → v.out.read k = (apply (apply x p) q)[k]?) ∧
        ((∀ k, k < x.length → v.out.read k = x[k]?) ↔ ∀ k, k < x.length → keyByte p k = keyByte q k))

/-! ### All commands -/

/-- R96: a command whose length checks fail ends in BadLength and changes nothing but STATUS; one whose checks pass never ends in
BadLength. -/
def Obligations.BadLengthExactlyWhenACheckFails : Prop :=
  ∀ (i : Instr) (s : State),
    (¬ LengthsLegal i s →
      exec i s = .next { s with err := .badLength, busy := false, done := true, pipe := .idle }) ∧
    (LengthsLegal i s → ∀ t, exec i s = .next t → t.err ≠ .badLength)

/-- R86, R99, R148, R165, R168: a command that completes does so with a code of its row (an Illegal word with code 6) and writes
nothing outside its row; and it reads nothing outside its row: from two states that agree on its row's reads it has one result, or
stops with one fault. -/
def Obligations.CommandsWriteOnlyTheirRow : Prop :=
  (∀ (i : Instr) (s t : State), exec i s = .next t →
    (∃ code, PossibleCode i code ∧ Completes s t code) ∧
    (i ≠ .ser → BitKept s t) ∧ ((i = .ser ∨ i = .embed) → OutKept s t) ∧ (i ≠ .embed → PixKept s t) ∧
    (i ≠ .embed → t.reqBits = s.reqBits) ∧ ((i ≠ .embed ∧ i ≠ .extract) → t.bitsDone = s.bitsDone) ∧
    ((i ≠ .find ∧ i ≠ .extract) → t.found = s.found)) ∧
  (∀ (s t : State) (r : DecodeReject), s.busy = true → decode s.cur.word = .error r → engineTurn s = .next t →
    t.err = .illegalCommand) ∧
  ∀ (i : Instr) (s u : State), AgreeOnReads i s u →
    (∀ s', exec i s = .next s' → ∃ u', exec i u = .next u' ∧ SameResult s u s' u') ∧
    ∀ f, exec i s = .fault f → exec i u = .fault f

/-- R196: a command whose length checks pass completes exactly when the bytes it reads are written; otherwise it stops with
the fault of 10_state R48. One that fails them reads nothing, and so completes. -/
def Obligations.CommandsCompleteExactlyWhenTheirReadsAreWritten : Prop :=
  ∀ (i : Instr) (s : State),
    (LengthsLegal i s → ((∃ t, exec i s = .next t) ↔ ReadsWritten i s) ∧
      (¬ ReadsWritten i s → ∃ w, exec i s = .fault (.commandReadUnwritten w))) ∧
    (¬ LengthsLegal i s → ∃ t, exec i s = .next t)

/-! ### Reset -/

/-- R190, R191, R192: a reset, at any time, gives every register its reset value and makes unwritten exactly the bytes of the
aborted command's row, when its length checks pass; with no command running, or an Illegal word, it keeps every byte. A power-on
gives the same registers and keeps no byte. -/
def Obligations.ResetStep : Prop :=
  ∀ s : State, ResetRegisters s (warmReset s) ∧ ResetRegisters s (powerOnReset s) ∧
    (∀ (w : Window) (a : Nat),
      ((s.busy = true ∧ ∃ i, decode s.cur.word = .ok i ∧ LengthsLegal i s ∧ LostByte i s w a) →
        (warmReset s).byteAt w a = none) ∧
      (¬ (s.busy = true ∧ ∃ i, decode s.cur.word = .ok i ∧ LengthsLegal i s ∧ LostByte i s w a) →
        (warmReset s).byteAt w a = s.byteAt w a)) ∧
    ∀ (w : Window) (a : Nat), w ≠ .marker → (powerOnReset s).byteAt w a = none

/-- R194: each command issued straight after a reset, with no set-up, whatever the buffers and the configuration. -/
def Obligations.FirstCommandAfterReset : Prop :=
  ∀ (s : State) (i : Instr), ∃ t, exec i (accept (encode i) (warmReset s)) = .next t ∧ t.done = true ∧ t.found = false ∧
    t.err = (match i with
      | .embed => .capacityExceeded
      | .extract => .markerNotFound
      | _ => .ok) ∧
    t.reqBits.toNat = (if i = .embed then 72 else 0) ∧ t.bitsDone = 0 ∧ t.bitLen = 0 ∧
    t.outLen.toNat = (if i = .frame then 9 else 0) ∧
    ∀ a, t.out.read a = if i = .frame ∧ a < 9 then marker[a]? else (warmReset s).out.read a

/-! ### Invariants -/

/-- The state after reset meets the invariants below. -/
def Obligations.ResetMeetsTheInvariants : Prop :=
  State.reset.memoryWf = true ∧ State.reset.statusWf = true ∧ State.reset.OutReadable ∧ State.reset.pipeWf = true

/-- R41, R42: every step keeps every buffer in canonical form within its capacity, and the configuration as it is. -/
def Obligations.StepKeepsMemoryCanonical : Prop :=
  ∀ s t : State, s.memoryWf = true → step s = .next t → t.memoryWf = true ∧ t.cfg = s.cfg

/-- R28 to R32, R90, R128, R156: every step keeps the STATUS bits legal: while a command runs DONE, FOUND and ERR are 0, and
FOUND = 1 goes with ERR = 0. -/
def Obligations.StepKeepsStatusLegal : Prop :=
  ∀ s t : State, s.statusWf = true → step s = .next t → t.statusWf = true

/-- R36, R205, R13: every step keeps OUT[0..OUT_LEN) readable and within OUT_CAP. -/
def Obligations.StepKeepsOutReadable : Prop :=
  ∀ s t : State, s.OutReadable → step s = .next t → t.OutReadable

/-- R44, R45: every step keeps the hidden cursor that of one walk of the running command. The step that moves it is the
model's own (log 8). -/
def Obligations.StepKeepsHiddenCursorLegal : Prop :=
  ∀ s t : State, s.pipeWf = true → step s = .next t → t.pipeWf = true

/-- R41, R148, R165: a buffer changes only by its writers. MSG and PWD at a host WRITE to them while idle; OUT when DES, XOR, FRAME,
FIND or EXTRACT ends; BIT at a host WRITE to it while idle or when SER ends; PIX at a host WRITE to it while idle or when EMBED ends;
a command ends at its completion or at the reset that aborts it; and each of the five at a power-on. The agenda is the model's own
(log 1), and so is the engine's turn when it is empty (log 2). -/
def Obligations.BuffersChangeOnlyByTheirWriters : Prop :=
  ∀ s t : State, step s = .next t →
    (t.msg ≠ s.msg → BufferWriteComes s .msg ∨ PowerOnComes s) ∧
    (t.pwd ≠ s.pwd → BufferWriteComes s .pwd ∨ PowerOnComes s) ∧
    (t.out ≠ s.out → (∃ i, i ∈ [Instr.des, .xor, .frame, .find, .extract] ∧ CommandEnds i s t) ∨ PowerOnComes s) ∧
    (t.bit ≠ s.bit → BufferWriteComes s .bit ∨ CommandEnds .ser s t ∨ PowerOnComes s) ∧
    (t.pix ≠ s.pix → BufferWriteComes s .pix ∨ CommandEnds .embed s t ∨ PowerOnComes s)
end

