-- ==== Sys2Proof/Laws/Codec.lean ====
section
/-! SUPPORT. What the pure functions of the commands compute, index by index: the bit codec (41 R106, R109), the cipher
(42 R115), the marker search (00 R15, 43 R125). -/

namespace Sys2Proof.Machine

/-! ### Bit codec -/

@[simp] theorem length_byteBits (b : Byte) : (byteBits b).length = 8 := rfl

theorem getElem?_byteBits (b : Byte) (t : Nat) (h : t < 8) : (byteBits b)[t]? = some (b.getLsbD (7 - t)) := by
  have : t = 0 ∨ t = 1 ∨ t = 2 ∨ t = 3 ∨ t = 4 ∨ t = 5 ∨ t = 6 ∨ t = 7 := by omega
  rcases this with rfl | rfl | rfl | rfl | rfl | rfl | rfl | rfl <;> rfl

@[simp] theorem bytesToBits_nil : bytesToBits [] = [] := rfl

theorem bytesToBits_cons (b : Byte) (x : List Byte) : bytesToBits (b :: x) = byteBits b ++ bytesToBits x := rfl

@[simp] theorem length_bytesToBits (x : List Byte) : (bytesToBits x).length = 8 * x.length := by
  induction x with
  | nil => rfl
  | cons b x ih => simp [bytesToBits_cons, ih]; omega

/-- Stream bit `k` is bit `7 - (k mod 8)` of byte `k div 8`. -/
theorem getElem?_bytesToBits (x : List Byte) (k : Nat) :
    (bytesToBits x)[k]? = (x[k / 8]?).map (fun b => b.getLsbD (7 - k % 8)) := by
  induction x generalizing k with
  | nil => simp
  | cons b x ih =>
    rw [bytesToBits_cons]
    by_cases h : k < 8
    · rw [List.getElem?_append_left (by simpa using h), getElem?_byteBits b k h]
      simp [Nat.div_eq_of_lt h, Nat.mod_eq_of_lt h]
    · obtain ⟨j, rfl⟩ : ∃ j, k = j + 8 := ⟨k - 8, by omega⟩
      rw [List.getElem?_append_right (by simp), length_byteBits, Nat.add_sub_cancel, ih]
      simp [Nat.add_div_right, Nat.add_mod_right]

/-- A list of whole chunks, taken apart one chunk at a time. -/
theorem wholeBytes_append_chunk (c rest : List Bool) (h : c.length = 8) :
    wholeBytes (c ++ rest) = bitsByte c :: wholeBytes rest := by
  match c, h with
  | [_, _, _, _, _, _, _, _], _ => rfl

theorem wholeBytes_of_lt (b : List Bool) (h : b.length < 8) : wholeBytes b = [] := by
  match b, h with
  | [], _ => rfl
  | [_], _ => rfl
  | [_, _], _ => rfl
  | [_, _, _], _ => rfl
  | [_, _, _, _], _ => rfl
  | [_, _, _, _, _], _ => rfl
  | [_, _, _, _, _, _], _ => rfl
  | [_, _, _, _, _, _, _], _ => rfl
  | _ :: _ :: _ :: _ :: _ :: _ :: _ :: _ :: _, h => simp at h; omega

/-- Induction over the whole chunks of a bit sequence. -/
theorem chunk_induction {P : List Bool → Prop} (short : ∀ b, b.length < 8 → P b)
    (chunk : ∀ c rest, c.length = 8 → P rest → P (c ++ rest)) (b : List Bool) : P b := by
  by_cases h : b.length < 8
  · exact short b h
  · have hc : (b.take 8).length = 8 := by simp; omega
    rw [← List.take_append_drop 8 b]
    exact chunk _ _ hc (chunk_induction short chunk (b.drop 8))
termination_by b.length
decreasing_by simp; omega

@[simp] theorem length_wholeBytes (b : List Bool) : (wholeBytes b).length = b.length / 8 := by
  induction b using chunk_induction with
  | short b h => simp [wholeBytes_of_lt b h, Nat.div_eq_of_lt h]
  | chunk c rest hc ih => simp [wholeBytes_append_chunk c rest hc, ih, hc]

/-- Byte `i` is made of the bits `8*i` to `8*i+7`. -/
theorem getElem?_wholeBytes (b : List Bool) (i : Nat) (h : i < b.length / 8) :
    (wholeBytes b)[i]? = some (bitsByte ((b.drop (8 * i)).take 8)) := by
  induction b using chunk_induction generalizing i with
  | short b hb => simp [Nat.div_eq_of_lt hb] at h
  | chunk c rest hc ih =>
    rw [wholeBytes_append_chunk c rest hc]
    cases i with
    | zero => simp [hc]
    | succ i =>
      have hi : i < rest.length / 8 := by simp [hc] at h; omega
      have e : 8 * (i + 1) = c.length + 8 * i := by omega
      rw [List.getElem?_cons_succ, ih i hi, e, List.drop_length_add_append]

theorem toNat_bitsByte (a b c d e f g h : Bool) :
    (bitsByte [a, b, c, d, e, f, g, h]).toNat =
      a.toNat * 128 + b.toNat * 64 + c.toNat * 32 + d.toNat * 16 + e.toNat * 8 + f.toNat * 4 + g.toNat * 2 + h.toNat := by
  revert a b c d e f g h; decide

theorem bitsByte_byteBits (b : Byte) : bitsByte (byteBits b) = b := by
  revert b; decide

theorem byteBits_bitsByte (c : List Bool) (h : c.length = 8) : byteBits (bitsByte c) = c := by
  match c, h with
  | [a, b, c, d, e, f, g, h], _ => revert a b c d e f g h; decide

/-- Whole bytes of a stream of bytes, whatever stands after it short of a byte. -/
theorem wholeBytes_bytesToBits_append (x : List Byte) (b : List Bool) :
    wholeBytes (bytesToBits x ++ b) = x ++ wholeBytes b := by
  induction x with
  | nil => rfl
  | cons c x ih =>
    rw [bytesToBits_cons, List.append_assoc, wholeBytes_append_chunk _ _ (length_byteBits c), ih, bitsByte_byteBits]
    rfl

theorem bytesToBits_append (x y : List Byte) : bytesToBits (x ++ y) = bytesToBits x ++ bytesToBits y := by
  simp [bytesToBits]

/-- Serializing the whole bytes gives the bits back, less the trailing partial byte. -/
theorem bytesToBits_wholeBytes (b : List Bool) : bytesToBits (wholeBytes b) = b.take (8 * (b.length / 8)) := by
  induction b using chunk_induction with
  | short b h => simp [wholeBytes_of_lt b h, Nat.div_eq_of_lt h]
  | chunk c rest hc ih =>
    rw [wholeBytes_append_chunk c rest hc, bytesToBits_cons, ih, byteBits_bitsByte c hc]
    have e : 8 * ((c ++ rest).length / 8) = c.length + 8 * (rest.length / 8) := by simp [hc]; omega
    rw [e, List.take_length_add_append]

theorem lsb_withLsb (v : Byte) (b : Bool) : lsb (withLsb v b) = b := by
  revert v b; decide

theorem withLsb_upper (v : Byte) (b : Bool) : withLsb v b &&& 0xFE#8 = v &&& 0xFE#8 := by
  revert v b; decide

/-! ### Cipher -/

@[simp] theorem length_applyFrom (p : List Byte) (i : Nat) (x : List Byte) : (applyFrom p i x).length = x.length := by
  induction x generalizing i with
  | nil => rfl
  | cons b x ih => simp [applyFrom, ih]

@[simp] theorem length_apply (x p : List Byte) : (apply x p).length = x.length := by
  unfold apply; split <;> simp

theorem getElem?_applyFrom (p : List Byte) (i : Nat) (x : List Byte) (k : Nat) :
    (applyFrom p i x)[k]? = (x[k]?).map (· ^^^ p.getD ((i + k) % p.length) 0) := by
  induction x generalizing i k with
  | nil => simp [applyFrom]
  | cons b x ih =>
    cases k with
    | zero => simp [applyFrom]
    | succ k => simp [applyFrom, ih, Nat.add_assoc, Nat.add_comm 1 k]

/-- Byte `k` is `x[k] XOR p[k mod len(p)]`, or `x[k]` without a password. -/
theorem getElem?_apply (x p : List Byte) (k : Nat) :
    (apply x p)[k]? = (x[k]?).map (fun b => if p = [] then b else b ^^^ p.getD (k % p.length) 0) := by
  unfold apply
  split
  · simp
  · simp [getElem?_applyFrom]

/-! ### Slots -/

theorem slotOffset_inj {j k : Nat} (h : slotOffset j = slotOffset k) : j = k := by
  unfold slotOffset at h; omega

theorem slotOffset_mod (k : Nat) : slotOffset k % 4 = k % 3 ∧ slotOffset k / 4 = k / 3 := by
  unfold slotOffset; omega

/-! ### Marker search -/

@[simp] theorem length_marker : marker.length = 9 := rfl

theorem isPrefixOf_iff (p x : List Byte) : p.isPrefixOf x = true ↔ x.take p.length = p := by
  rw [List.isPrefixOf_iff_prefix, List.prefix_iff_eq_take, eq_comm]

/-- `first_index` finds the least index at which the pattern stands. -/
theorem firstIndex_eq_some (pat x : List Byte) (i : Nat) :
    firstIndex pat x = some i ↔
      (i ≤ x.length ∧ (x.drop i).take pat.length = pat) ∧ ∀ j, j < i → (x.drop j).take pat.length ≠ pat := by
  induction x generalizing i with
  | nil =>
    simp only [firstIndex, List.length_nil, Nat.le_zero, List.drop_nil, List.take_nil]
    split
    · next h =>
      subst h
      constructor
      · intro h; cases h; exact ⟨⟨rfl, rfl⟩, fun j hj => absurd hj (Nat.not_lt_zero j)⟩
      · rintro ⟨⟨h, _⟩, _⟩; rw [h]
    · next h => simp [Ne.symm h]
  | cons b x ih =>
    simp only [firstIndex, isPrefixOf_iff]
    by_cases h : (b :: x).take pat.length = pat
    · rw [if_pos h]
      constructor
      · intro e; cases e; exact ⟨⟨Nat.zero_le _, h⟩, fun j hj => absurd hj (Nat.not_lt_zero j)⟩
      · rintro ⟨_, hj⟩
        cases i with
        | zero => rfl
        | succ i => exact absurd h (hj 0 (by omega))
    · rw [if_neg h]
      cases i with
      | zero => simp [h]
      | succ i =>
        simp only [Option.map_eq_some_iff, Nat.add_right_cancel_iff, exists_eq_right, ih, List.length_cons,
          Nat.add_le_add_iff_right, List.drop_succ_cons]
        refine and_congr_right fun _ => ⟨fun hj j hji => ?_, fun hj j hji => by simpa using hj (j + 1) (by omega)⟩
        cases j with
        | zero => exact h
        | succ j => simpa using hj j (by omega)

/-- `first_index` finds nothing exactly when the pattern stands nowhere. -/
theorem firstIndex_eq_none (pat x : List Byte) :
    firstIndex pat x = none ↔ ∀ j, j ≤ x.length → (x.drop j).take pat.length ≠ pat := by
  induction x with
  | nil =>
    simp only [firstIndex, List.length_nil, Nat.le_zero, forall_eq, List.drop_nil, List.take_nil]
    split
    · next h => subst h; simp
    · next h => simp [Ne.symm h]
  | cons b x ih =>
    simp only [firstIndex, isPrefixOf_iff]
    by_cases h : (b :: x).take pat.length = pat
    · rw [if_pos h]
      simp only [reduceCtorEq, false_iff]
      exact fun hj => hj 0 (Nat.zero_le _) h
    · rw [if_neg h]
      simp only [Option.map_eq_none_iff, ih, List.length_cons]
      constructor
      · intro hj j hjl
        cases j with
        | zero => exact h
        | succ j => simpa using hj j (by omega)
      · intro hj j hjl; simpa using hj (j + 1) (by omega)

/-- `findAndStrip` gives the bytes before the first marker. -/
theorem findAndStrip_eq_some (x y : List Byte) :
    findAndStrip x = some y ↔ ∃ i, firstIndex marker x = some i ∧ y = x.take i := by
  simp [findAndStrip, eq_comm]

theorem findAndStrip_eq_none (x : List Byte) : findAndStrip x = none ↔ firstIndex marker x = none := by
  simp [findAndStrip]

/-! ### Prefixes of a bit stream -/

theorem bytesToBits_take (l : List Byte) (m : Nat) : (bytesToBits l).take (8 * m) = bytesToBits (l.take m) := by
  conv_lhs => rw [← List.take_append_drop m l, bytesToBits_append]
  by_cases h : m ≤ l.length
  · have : 8 * m = (bytesToBits (l.take m)).length := by simp; omega
    rw [this, List.take_left]
  · rw [List.drop_eq_nil_of_le (by omega), bytesToBits_nil, List.append_nil, List.take_of_length_le (by simp)]

theorem wholeBytes_take (b : List Bool) (m : Nat) : wholeBytes (b.take (8 * m)) = (wholeBytes b).take m := by
  have whole : ∀ l : List Byte, wholeBytes (bytesToBits l) = l := fun l => by
    simpa [wholeBytes] using wholeBytes_bytesToBits_append l []
  rw [← whole ((wholeBytes b).take m), ← bytesToBits_take, bytesToBits_wholeBytes, List.take_take]
  by_cases h : m ≤ b.length / 8
  · rw [Nat.min_eq_left (by omega)]
  · rw [Nat.min_eq_right (by omega)]
    have h1 : 8 * (b.length / 8) ≤ b.length := by omega
    rw [List.take_of_length_le (show b.length ≤ 8 * m by omega)]
    have := wholeBytes_bytesToBits_append (wholeBytes b) (b.drop (8 * (b.length / 8)))
    rw [bytesToBits_wholeBytes, List.take_append_drop] at this
    rw [← bytesToBits_wholeBytes, whole]

/-- A prefix that ends before the first marker does finds none. -/
theorem firstIndex_take_none {l : List Byte} {m : Nat} (h : ∀ i, firstIndex marker l = some i → m < i + 9) :
    firstIndex marker (l.take m) = none := by
  rw [firstIndex_eq_none]
  intro j hj hm
  have hlen := congrArg List.length hm
  simp at hlen
  have hat : (l.drop j).take 9 = marker := by
    rw [List.drop_take, List.take_take] at hm
    rwa [Nat.min_eq_left (show marker.length ≤ m - j by rw [length_marker]; omega)] at hm
  cases hf : firstIndex marker l with
  | none => exact (firstIndex_eq_none _ _).mp hf j (by omega) hat
  | some i =>
    have := h i hf
    have := ((firstIndex_eq_some _ _ _).mp hf).2 j (by omega)
    exact this hat

theorem firstIndex_le {l : List Byte} {i : Nat} (h : firstIndex marker l = some i) : i + 9 ≤ l.length := by
  have h := ((firstIndex_eq_some _ _ _).mp h).1.2
  have := congrArg List.length h
  simp at this
  omega

theorem firstIndex_append {l r : List Byte} {i : Nat} (h : firstIndex marker l = some i) :
    firstIndex marker (l ++ r) = some i := by
  have hle := firstIndex_le h
  rw [firstIndex_eq_some] at h ⊢
  obtain ⟨⟨h1, h2⟩, h3⟩ := h
  have key : ∀ j, j ≤ i → ((l ++ r).drop j).take marker.length = (l.drop j).take marker.length := by
    intro j hj
    rw [List.drop_append_of_le_length (by omega), List.take_append_of_le_length (by simp; omega)]
  refine ⟨⟨by simp; omega, by rw [key i (Nat.le_refl _)]; exact h2⟩, fun j hj => ?_⟩
  rw [key j (by omega)]; exact h3 j hj

theorem firstIndex_take_some {l : List Byte} {i m : Nat} (h : firstIndex marker l = some i) (hm : i + 9 ≤ m) :
    firstIndex marker (l.take m) = some i := by
  cases hf : firstIndex marker (l.take m) with
  | some j => 
    have := firstIndex_append (r := l.drop m) hf
    rw [List.take_append_drop, h] at this
    exact this.symm
  | none =>
    exfalso
    have hle := firstIndex_le h
    have := (firstIndex_eq_none _ _).mp hf i (by simp; omega)
    rw [List.drop_take, List.take_take, Nat.min_eq_left (by rw [length_marker]; omega)] at this
    exact this ((firstIndex_eq_some _ _ _).mp h).1.2

end Sys2Proof.Machine
end

