-- ==== Sys2Proof/Laws/State.lean ====
section
/-! SUPPORT. One lemma per field of State per update, each true by rfl, so that no proof unfolds a record update. -/

namespace Sys2Proof.Machine

/-! ### `accept` -/

@[simp] theorem accept_cfg (c : Word) (s : State) : (accept c s).cfg = s.cfg := rfl
@[simp] theorem accept_ie (c : Word) (s : State) : (accept c s).ie = s.ie := rfl
@[simp] theorem accept_busy (c : Word) (s : State) : (accept c s).busy = true := rfl
@[simp] theorem accept_done (c : Word) (s : State) : (accept c s).done = false := rfl
@[simp] theorem accept_found (c : Word) (s : State) : (accept c s).found = false := rfl
@[simp] theorem accept_ovr (c : Word) (s : State) : (accept c s).ovr = s.ovr := rfl
@[simp] theorem accept_err (c : Word) (s : State) : (accept c s).err = .ok := rfl
@[simp] theorem accept_msgLen (c : Word) (s : State) : (accept c s).msgLen = s.msgLen := rfl
@[simp] theorem accept_pwdLen (c : Word) (s : State) : (accept c s).pwdLen = s.pwdLen := rfl
@[simp] theorem accept_pixLen (c : Word) (s : State) : (accept c s).pixLen = s.pixLen := rfl
@[simp] theorem accept_bitLen (c : Word) (s : State) : (accept c s).bitLen = s.bitLen := rfl
@[simp] theorem accept_outLen (c : Word) (s : State) : (accept c s).outLen = s.outLen := rfl
@[simp] theorem accept_reqBits (c : Word) (s : State) : (accept c s).reqBits = s.reqBits := rfl
@[simp] theorem accept_bitsDone (c : Word) (s : State) : (accept c s).bitsDone = s.bitsDone := rfl
@[simp] theorem accept_cur (c : Word) (s : State) : (accept c s).cur = { word := c, msgLen := s.msgLen, pwdLen := s.pwdLen, pixLen := s.pixLen, bitLen := s.bitLen } := rfl
@[simp] theorem accept_pipe (c : Word) (s : State) : (accept c s).pipe = Pipe.start c := rfl
@[simp] theorem accept_msg (c : Word) (s : State) : (accept c s).msg = s.msg := rfl
@[simp] theorem accept_pwd (c : Word) (s : State) : (accept c s).pwd = s.pwd := rfl
@[simp] theorem accept_out (c : Word) (s : State) : (accept c s).out = s.out := rfl
@[simp] theorem accept_bit (c : Word) (s : State) : (accept c s).bit = s.bit := rfl
@[simp] theorem accept_pix (c : Word) (s : State) : (accept c s).pix = s.pix := rfl
@[simp] theorem accept_answer (c : Word) (s : State) : (accept c s).answer = s.answer := rfl
@[simp] theorem accept_agenda (c : Word) (s : State) : (accept c s).agenda = s.agenda := rfl

/-! ### `complete` -/

@[simp] theorem complete_cfg (code : ErrCode) (s : State) : (complete code s).cfg = s.cfg := rfl
@[simp] theorem complete_ie (code : ErrCode) (s : State) : (complete code s).ie = s.ie := rfl
@[simp] theorem complete_busy (code : ErrCode) (s : State) : (complete code s).busy = false := rfl
@[simp] theorem complete_done (code : ErrCode) (s : State) : (complete code s).done = true := rfl
@[simp] theorem complete_found (code : ErrCode) (s : State) : (complete code s).found = s.found := rfl
@[simp] theorem complete_ovr (code : ErrCode) (s : State) : (complete code s).ovr = s.ovr := rfl
@[simp] theorem complete_err (code : ErrCode) (s : State) : (complete code s).err = code := rfl
@[simp] theorem complete_msgLen (code : ErrCode) (s : State) : (complete code s).msgLen = s.msgLen := rfl
@[simp] theorem complete_pwdLen (code : ErrCode) (s : State) : (complete code s).pwdLen = s.pwdLen := rfl
@[simp] theorem complete_pixLen (code : ErrCode) (s : State) : (complete code s).pixLen = s.pixLen := rfl
@[simp] theorem complete_bitLen (code : ErrCode) (s : State) : (complete code s).bitLen = s.bitLen := rfl
@[simp] theorem complete_outLen (code : ErrCode) (s : State) : (complete code s).outLen = s.outLen := rfl
@[simp] theorem complete_reqBits (code : ErrCode) (s : State) : (complete code s).reqBits = s.reqBits := rfl
@[simp] theorem complete_bitsDone (code : ErrCode) (s : State) : (complete code s).bitsDone = s.bitsDone := rfl
@[simp] theorem complete_cur (code : ErrCode) (s : State) : (complete code s).cur = s.cur := rfl
@[simp] theorem complete_pipe (code : ErrCode) (s : State) : (complete code s).pipe = .idle := rfl
@[simp] theorem complete_msg (code : ErrCode) (s : State) : (complete code s).msg = s.msg := rfl
@[simp] theorem complete_pwd (code : ErrCode) (s : State) : (complete code s).pwd = s.pwd := rfl
@[simp] theorem complete_out (code : ErrCode) (s : State) : (complete code s).out = s.out := rfl
@[simp] theorem complete_bit (code : ErrCode) (s : State) : (complete code s).bit = s.bit := rfl
@[simp] theorem complete_pix (code : ErrCode) (s : State) : (complete code s).pix = s.pix := rfl
@[simp] theorem complete_answer (code : ErrCode) (s : State) : (complete code s).answer = s.answer := rfl
@[simp] theorem complete_agenda (code : ErrCode) (s : State) : (complete code s).agenda = s.agenda := rfl

/-! ### `acknowledge` -/

@[simp] theorem acknowledge_cfg (w : Word) (s : State) : (acknowledge w s).cfg = s.cfg := rfl
@[simp] theorem acknowledge_ie (w : Word) (s : State) : (acknowledge w s).ie = s.ie := rfl
@[simp] theorem acknowledge_busy (w : Word) (s : State) : (acknowledge w s).busy = s.busy := rfl
@[simp] theorem acknowledge_done (w : Word) (s : State) : (acknowledge w s).done = (s.done && !w.getLsbD 1) := rfl
@[simp] theorem acknowledge_found (w : Word) (s : State) : (acknowledge w s).found = s.found := rfl
@[simp] theorem acknowledge_ovr (w : Word) (s : State) : (acknowledge w s).ovr = (s.ovr && !w.getLsbD 3) := rfl
@[simp] theorem acknowledge_err (w : Word) (s : State) : (acknowledge w s).err = s.err := rfl
@[simp] theorem acknowledge_msgLen (w : Word) (s : State) : (acknowledge w s).msgLen = s.msgLen := rfl
@[simp] theorem acknowledge_pwdLen (w : Word) (s : State) : (acknowledge w s).pwdLen = s.pwdLen := rfl
@[simp] theorem acknowledge_pixLen (w : Word) (s : State) : (acknowledge w s).pixLen = s.pixLen := rfl
@[simp] theorem acknowledge_bitLen (w : Word) (s : State) : (acknowledge w s).bitLen = s.bitLen := rfl
@[simp] theorem acknowledge_outLen (w : Word) (s : State) : (acknowledge w s).outLen = s.outLen := rfl
@[simp] theorem acknowledge_reqBits (w : Word) (s : State) : (acknowledge w s).reqBits = s.reqBits := rfl
@[simp] theorem acknowledge_bitsDone (w : Word) (s : State) : (acknowledge w s).bitsDone = s.bitsDone := rfl
@[simp] theorem acknowledge_cur (w : Word) (s : State) : (acknowledge w s).cur = s.cur := rfl
@[simp] theorem acknowledge_pipe (w : Word) (s : State) : (acknowledge w s).pipe = s.pipe := rfl
@[simp] theorem acknowledge_msg (w : Word) (s : State) : (acknowledge w s).msg = s.msg := rfl
@[simp] theorem acknowledge_pwd (w : Word) (s : State) : (acknowledge w s).pwd = s.pwd := rfl
@[simp] theorem acknowledge_out (w : Word) (s : State) : (acknowledge w s).out = s.out := rfl
@[simp] theorem acknowledge_bit (w : Word) (s : State) : (acknowledge w s).bit = s.bit := rfl
@[simp] theorem acknowledge_pix (w : Word) (s : State) : (acknowledge w s).pix = s.pix := rfl
@[simp] theorem acknowledge_answer (w : Word) (s : State) : (acknowledge w s).answer = s.answer := rfl
@[simp] theorem acknowledge_agenda (w : Word) (s : State) : (acknowledge w s).agenda = s.agenda := rfl

/-! ### `writeCtrl` -/

@[simp] theorem writeCtrl_cfg (w : Word) (s : State) : (writeCtrl w s).cfg = s.cfg := rfl
@[simp] theorem writeCtrl_ie (w : Word) (s : State) : (writeCtrl w s).ie = w.getLsbD 0 := rfl
@[simp] theorem writeCtrl_busy (w : Word) (s : State) : (writeCtrl w s).busy = s.busy := rfl
@[simp] theorem writeCtrl_done (w : Word) (s : State) : (writeCtrl w s).done = s.done := rfl
@[simp] theorem writeCtrl_found (w : Word) (s : State) : (writeCtrl w s).found = s.found := rfl
@[simp] theorem writeCtrl_ovr (w : Word) (s : State) : (writeCtrl w s).ovr = s.ovr := rfl
@[simp] theorem writeCtrl_err (w : Word) (s : State) : (writeCtrl w s).err = s.err := rfl
@[simp] theorem writeCtrl_msgLen (w : Word) (s : State) : (writeCtrl w s).msgLen = s.msgLen := rfl
@[simp] theorem writeCtrl_pwdLen (w : Word) (s : State) : (writeCtrl w s).pwdLen = s.pwdLen := rfl
@[simp] theorem writeCtrl_pixLen (w : Word) (s : State) : (writeCtrl w s).pixLen = s.pixLen := rfl
@[simp] theorem writeCtrl_bitLen (w : Word) (s : State) : (writeCtrl w s).bitLen = s.bitLen := rfl
@[simp] theorem writeCtrl_outLen (w : Word) (s : State) : (writeCtrl w s).outLen = s.outLen := rfl
@[simp] theorem writeCtrl_reqBits (w : Word) (s : State) : (writeCtrl w s).reqBits = s.reqBits := rfl
@[simp] theorem writeCtrl_bitsDone (w : Word) (s : State) : (writeCtrl w s).bitsDone = s.bitsDone := rfl
@[simp] theorem writeCtrl_cur (w : Word) (s : State) : (writeCtrl w s).cur = s.cur := rfl
@[simp] theorem writeCtrl_pipe (w : Word) (s : State) : (writeCtrl w s).pipe = s.pipe := rfl
@[simp] theorem writeCtrl_msg (w : Word) (s : State) : (writeCtrl w s).msg = s.msg := rfl
@[simp] theorem writeCtrl_pwd (w : Word) (s : State) : (writeCtrl w s).pwd = s.pwd := rfl
@[simp] theorem writeCtrl_out (w : Word) (s : State) : (writeCtrl w s).out = s.out := rfl
@[simp] theorem writeCtrl_bit (w : Word) (s : State) : (writeCtrl w s).bit = s.bit := rfl
@[simp] theorem writeCtrl_pix (w : Word) (s : State) : (writeCtrl w s).pix = s.pix := rfl
@[simp] theorem writeCtrl_answer (w : Word) (s : State) : (writeCtrl w s).answer = s.answer := rfl
@[simp] theorem writeCtrl_agenda (w : Word) (s : State) : (writeCtrl w s).agenda = s.agenda := rfl

/-! ### `resetRegisters` -/

@[simp] theorem resetRegisters_cfg (s : State) : (resetRegisters s).cfg = s.cfg := rfl
@[simp] theorem resetRegisters_ie (s : State) : (resetRegisters s).ie = State.reset.ie := rfl
@[simp] theorem resetRegisters_busy (s : State) : (resetRegisters s).busy = State.reset.busy := rfl
@[simp] theorem resetRegisters_done (s : State) : (resetRegisters s).done = State.reset.done := rfl
@[simp] theorem resetRegisters_found (s : State) : (resetRegisters s).found = State.reset.found := rfl
@[simp] theorem resetRegisters_ovr (s : State) : (resetRegisters s).ovr = State.reset.ovr := rfl
@[simp] theorem resetRegisters_err (s : State) : (resetRegisters s).err = State.reset.err := rfl
@[simp] theorem resetRegisters_msgLen (s : State) : (resetRegisters s).msgLen = State.reset.msgLen := rfl
@[simp] theorem resetRegisters_pwdLen (s : State) : (resetRegisters s).pwdLen = State.reset.pwdLen := rfl
@[simp] theorem resetRegisters_pixLen (s : State) : (resetRegisters s).pixLen = State.reset.pixLen := rfl
@[simp] theorem resetRegisters_bitLen (s : State) : (resetRegisters s).bitLen = State.reset.bitLen := rfl
@[simp] theorem resetRegisters_outLen (s : State) : (resetRegisters s).outLen = State.reset.outLen := rfl
@[simp] theorem resetRegisters_reqBits (s : State) : (resetRegisters s).reqBits = State.reset.reqBits := rfl
@[simp] theorem resetRegisters_bitsDone (s : State) : (resetRegisters s).bitsDone = State.reset.bitsDone := rfl
@[simp] theorem resetRegisters_cur (s : State) : (resetRegisters s).cur = State.reset.cur := rfl
@[simp] theorem resetRegisters_pipe (s : State) : (resetRegisters s).pipe = State.reset.pipe := rfl
@[simp] theorem resetRegisters_msg (s : State) : (resetRegisters s).msg = s.msg := rfl
@[simp] theorem resetRegisters_pwd (s : State) : (resetRegisters s).pwd = s.pwd := rfl
@[simp] theorem resetRegisters_out (s : State) : (resetRegisters s).out = s.out := rfl
@[simp] theorem resetRegisters_bit (s : State) : (resetRegisters s).bit = s.bit := rfl
@[simp] theorem resetRegisters_pix (s : State) : (resetRegisters s).pix = s.pix := rfl
@[simp] theorem resetRegisters_answer (s : State) : (resetRegisters s).answer = State.reset.answer := rfl
@[simp] theorem resetRegisters_agenda (s : State) : (resetRegisters s).agenda = s.agenda := rfl

/-! ### `powerOnReset` -/

@[simp] theorem powerOnReset_cfg (s : State) : (powerOnReset s).cfg = s.cfg := rfl
@[simp] theorem powerOnReset_ie (s : State) : (powerOnReset s).ie = State.reset.ie := rfl
@[simp] theorem powerOnReset_busy (s : State) : (powerOnReset s).busy = State.reset.busy := rfl
@[simp] theorem powerOnReset_done (s : State) : (powerOnReset s).done = State.reset.done := rfl
@[simp] theorem powerOnReset_found (s : State) : (powerOnReset s).found = State.reset.found := rfl
@[simp] theorem powerOnReset_ovr (s : State) : (powerOnReset s).ovr = State.reset.ovr := rfl
@[simp] theorem powerOnReset_err (s : State) : (powerOnReset s).err = State.reset.err := rfl
@[simp] theorem powerOnReset_msgLen (s : State) : (powerOnReset s).msgLen = State.reset.msgLen := rfl
@[simp] theorem powerOnReset_pwdLen (s : State) : (powerOnReset s).pwdLen = State.reset.pwdLen := rfl
@[simp] theorem powerOnReset_pixLen (s : State) : (powerOnReset s).pixLen = State.reset.pixLen := rfl
@[simp] theorem powerOnReset_bitLen (s : State) : (powerOnReset s).bitLen = State.reset.bitLen := rfl
@[simp] theorem powerOnReset_outLen (s : State) : (powerOnReset s).outLen = State.reset.outLen := rfl
@[simp] theorem powerOnReset_reqBits (s : State) : (powerOnReset s).reqBits = State.reset.reqBits := rfl
@[simp] theorem powerOnReset_bitsDone (s : State) : (powerOnReset s).bitsDone = State.reset.bitsDone := rfl
@[simp] theorem powerOnReset_cur (s : State) : (powerOnReset s).cur = State.reset.cur := rfl
@[simp] theorem powerOnReset_pipe (s : State) : (powerOnReset s).pipe = State.reset.pipe := rfl
@[simp] theorem powerOnReset_msg (s : State) : (powerOnReset s).msg = State.reset.msg := rfl
@[simp] theorem powerOnReset_pwd (s : State) : (powerOnReset s).pwd = State.reset.pwd := rfl
@[simp] theorem powerOnReset_out (s : State) : (powerOnReset s).out = State.reset.out := rfl
@[simp] theorem powerOnReset_bit (s : State) : (powerOnReset s).bit = State.reset.bit := rfl
@[simp] theorem powerOnReset_pix (s : State) : (powerOnReset s).pix = State.reset.pix := rfl
@[simp] theorem powerOnReset_answer (s : State) : (powerOnReset s).answer = State.reset.answer := rfl
@[simp] theorem powerOnReset_agenda (s : State) : (powerOnReset s).agenda = s.agenda := rfl

end Sys2Proof.Machine
end

