-- ==== Sys2Proof/Laws/Store.lean ====
section
/-! SUPPORT. The laws of the sparse buffers: read after write, read after forget, whole reads and writes by index, and that
every memory operation keeps the canonical form. -/

namespace Sys2Proof.Machine

variable {α : Type}

/-! ### Reads after one operation -/

@[simp] theorem read_nil (a : Nat) : Store.read ([] : Store α) a = none := rfl

theorem read_cons (b : Nat) (w : α) (m : Store α) (a : Nat) :
    Store.read ((b, w) :: m) a = if a = b then some w else Store.read m a := rfl

@[simp] theorem read_write_same (m : Store α) (a : Nat) (v : α) : (m.write a v).read a = some v := by
  induction m with
  | nil => simp [Store.write, Store.read]
  | cons c m ih =>
    obtain ⟨b, w⟩ := c
    simp only [Store.write]
    split
    · simp [Store.read]
    · split
      · simp [Store.read]
      · simp [Store.read, *]

theorem read_write_other (m : Store α) {a b : Nat} (v : α) (h : b ≠ a) : (m.write a v).read b = m.read b := by
  induction m with
  | nil => simp [Store.write, Store.read, h]
  | cons c m ih =>
    obtain ⟨d, w⟩ := c
    simp only [Store.write]
    split
    · simp [Store.read, h]
    · split
      · next hd => subst hd; simp [Store.read, h]
      · simp [Store.read, ih]

theorem read_write (m : Store α) (a b : Nat) (v : α) :
    (m.write a v).read b = if b = a then some v else m.read b := by
  by_cases h : b = a
  · subst h; simp
  · simp [h, read_write_other m v h]

theorem read_forget (m : Store α) (p : Nat → Bool) (a : Nat) :
    (m.forget p).read a = if p a then none else m.read a := by
  induction m with
  | nil => simp [Store.forget]
  | cons c m ih =>
    obtain ⟨b, w⟩ := c
    simp only [Store.forget, List.filter_cons] at *
    by_cases hb : p b <;> by_cases ha : a = b <;> simp_all [Store.read]

/-! ### Whole reads and writes -/

/-- A whole read succeeds exactly when every byte is written, and gives the bytes in order. -/
theorem readFrom_eq_some (m : Store α) (a n : Nat) (x : List α) :
    m.readFrom a n = some x ↔ x.length = n ∧ ∀ i, i < n → m.read (a + i) = x[i]? := by
  induction n generalizing a x with
  | zero =>
    simp only [Store.readFrom, Option.some.injEq, Nat.not_lt_zero, false_implies, implies_true, and_true]
    exact ⟨fun h => h ▸ rfl, fun h => (List.length_eq_zero_iff.mp h).symm⟩
  | succ n ih =>
    simp only [Store.readFrom]
    constructor
    · intro h
      split at h
      · cases h
      · next v hv =>
        split at h
        · cases h
        · next vs hvs =>
          cases h
          obtain ⟨hl, hr⟩ := (ih _ _).mp hvs
          refine ⟨by simp [hl], fun i hi => ?_⟩
          cases i with
          | zero => simpa using hv
          | succ i => simpa [Nat.add_assoc, Nat.add_comm 1 i] using hr i (by omega)
    · rintro ⟨hl, hr⟩
      cases x with
      | nil => simp at hl
      | cons v vs =>
        have h0 : m.read a = some v := by simpa using hr 0 (by omega)
        have h1 : m.readFrom (a + 1) n = some vs := by
          refine (ih _ _).mpr ⟨by simpa using hl, fun i hi => ?_⟩
          simpa [Nat.add_assoc, Nat.add_comm 1 i] using hr (i + 1) (by omega)
        simp [h0, h1]

/-- A whole read fails exactly when one of its bytes is unwritten. -/
theorem readFrom_eq_none (m : Store α) (a n : Nat) :
    m.readFrom a n = none ↔ ∃ i, i < n ∧ m.read (a + i) = none := by
  induction n generalizing a with
  | zero => simp [Store.readFrom]
  | succ n ih =>
    simp only [Store.readFrom]
    constructor
    · intro h
      split at h
      · next h0 => exact ⟨0, by omega, h0⟩
      · split at h
        · next h1 =>
          obtain ⟨i, hi, hr⟩ := (ih _).mp h1
          exact ⟨i + 1, by omega, by rw [← hr]; congr 1; omega⟩
        · cases h
    · rintro ⟨i, hi, hr⟩
      cases i with
      | zero => simp only [Nat.add_zero] at hr; simp [hr]
      | succ i =>
        have h1 : m.readFrom (a + 1) n = none := (ih _).mpr ⟨i, by omega, by rw [← hr]; congr 1; omega⟩
        simp only [h1]
        split <;> rfl

/-- What a whole write leaves at each offset. -/
theorem read_writeFrom (m : Store α) (a : Nat) (x : List α) (b : Nat) :
    (m.writeFrom a x).read b = if a ≤ b ∧ b < a + x.length then x[b - a]? else m.read b := by
  induction x generalizing m a with
  | nil => simp [Store.writeFrom]
  | cons v vs ih =>
    simp only [Store.writeFrom, ih, read_write, List.length_cons]
    by_cases h1 : b = a
    · subst h1
      rw [if_neg (by omega), if_pos rfl, if_pos (by omega)]
      simp
    · by_cases h2 : a + 1 ≤ b ∧ b < a + 1 + vs.length
      · rw [if_pos h2, if_pos (by omega)]
        obtain ⟨k, rfl⟩ : ∃ k, b = a + 1 + k := ⟨b - (a + 1), by omega⟩
        have e1 : a + 1 + k - (a + 1) = k := by omega
        have e2 : a + 1 + k - a = k + 1 := by omega
        simp [e1, e2]
      · rw [if_neg h2, if_neg h1, if_neg (by omega)]

/-! ### The canonical form -/

/-- Canonical, in the form that proofs use: below `cap`, and pairwise rising. -/
theorem wf_iff (cap : Nat) (m : Store α) :
    Store.wf cap m = true ↔ (∀ c ∈ m, c.1 < cap) ∧ m.Pairwise (fun c d => c.1 < d.1) := by
  induction m with
  | nil => simp [Store.wf]
  | cons c m ih =>
    obtain ⟨a, v⟩ := c
    cases m with
    | nil => simp [Store.wf]
    | cons d m =>
      obtain ⟨b, w⟩ := d
      simp only [Store.wf, Bool.and_eq_true, decide_eq_true_eq, ih, List.mem_cons, forall_eq_or_imp,
        List.pairwise_cons]
      constructor
      · rintro ⟨hab, ⟨hb, hm⟩, hbm, hp⟩
        exact ⟨⟨by omega, hb, hm⟩, ⟨hab, fun c hc => by have := hbm c hc; omega⟩, hbm, hp⟩
      · rintro ⟨⟨_, hb, hm⟩, ⟨hab, _⟩, hbm, hp⟩
        exact ⟨hab, ⟨hb, hm⟩, hbm, hp⟩

theorem mem_write {m : Store α} {a : Nat} {v : α} {c : Nat × α} (h : c ∈ m.write a v) : c = (a, v) ∨ c ∈ m := by
  induction m with
  | nil => simpa [Store.write] using h
  | cons d m ih =>
    obtain ⟨b, w⟩ := d
    simp only [Store.write] at h
    split at h
    · simpa using h
    · split at h
      · rcases List.mem_cons.mp h with h | h
        · exact .inl h
        · exact .inr (List.mem_cons_of_mem _ h)
      · rcases List.mem_cons.mp h with h | h
        · exact .inr (h ▸ List.mem_cons_self)
        · rcases ih h with h | h
          · exact .inl h
          · exact .inr (List.mem_cons_of_mem _ h)

theorem write_wf {cap : Nat} {m : Store α} {a : Nat} (v : α) (hm : Store.wf cap m = true) (ha : a < cap) :
    Store.wf cap (m.write a v) = true := by
  rw [wf_iff] at hm ⊢
  refine ⟨fun c hc => ?_, ?_⟩
  · rcases mem_write hc with rfl | hc
    · exact ha
    · exact hm.1 c hc
  · replace hm := hm.2
    induction m with
    | nil => simp [Store.write]
    | cons d m ih =>
      obtain ⟨b, w⟩ := d
      rw [List.pairwise_cons] at hm
      simp only [Store.write]
      split
      · next hab =>
        refine List.pairwise_cons.mpr ⟨fun c hc => ?_, List.pairwise_cons.mpr hm⟩
        rcases List.mem_cons.mp hc with rfl | hc
        · exact hab
        · have := hm.1 c hc; simp only at *; omega
      · split
        · next hab => subst hab; exact List.pairwise_cons.mpr hm
        · refine List.pairwise_cons.mpr ⟨fun c hc => ?_, ih hm.2⟩
          rcases mem_write hc with rfl | hc
          · simp only; omega
          · exact hm.1 c hc

theorem writeFrom_wf {cap : Nat} {m : Store α} {a : Nat} (x : List α) (hm : Store.wf cap m = true)
    (ha : a + x.length ≤ cap) : Store.wf cap (m.writeFrom a x) = true := by
  induction x generalizing m a with
  | nil => exact hm
  | cons v vs ih =>
    simp only [List.length_cons] at ha
    exact ih (write_wf v hm (by omega)) (by omega)

theorem forget_wf {cap : Nat} {m : Store α} (p : Nat → Bool) (hm : Store.wf cap m = true) :
    Store.wf cap (m.forget p) = true := by
  rw [wf_iff] at hm ⊢
  exact ⟨fun c hc => hm.1 c (List.mem_filter.mp hc).1, hm.2.filter _⟩

/-- A value stands only at an offset below the capacity. -/
theorem read_lt_of_wf {cap : Nat} {m : Store α} {a : Nat} {v : α} (hm : Store.wf cap m = true) (h : m.read a = some v) :
    a < cap := by
  have hmem : (a, v) ∈ m := by
    clear hm
    induction m with
    | nil => simp at h
    | cons d m ih =>
      obtain ⟨b, w⟩ := d
      rw [read_cons] at h
      split at h
      · next e => subst e; cases h; exact List.mem_cons_self
      · exact List.mem_cons_of_mem _ (ih h)
  exact ((wf_iff cap m).mp hm).1 _ hmem

/-! ### Writing the same value again -/

/-- `v` stands at offset `a`, at the place where a write of `a` looks for it. -/
def StandsAt {α : Type} : Store α → Nat → α → Prop
  | [], _, _ => False
  | (b, w) :: m, a, v => (b < a ∧ StandsAt m a v) ∨ (b = a ∧ w = v)

theorem standsAt_write {α : Type} (m : Store α) (a : Nat) (v : α) : StandsAt (m.write a v) a v := by
  induction m with
  | nil => exact .inr ⟨rfl, rfl⟩
  | cons c m ih =>
    obtain ⟨b, w⟩ := c
    simp only [Store.write]
    split
    · exact .inr ⟨rfl, rfl⟩
    · split
      · exact .inr ⟨rfl, rfl⟩
      · exact .inl ⟨by omega, ih⟩

theorem standsAt_write_other {α : Type} {m : Store α} {a c : Nat} {v : α} (w : α) (h : StandsAt m a v) (hc : c ≠ a) :
    StandsAt (m.write c w) a v := by
  induction m with
  | nil => exact h.elim
  | cons d m ih =>
    obtain ⟨b, x⟩ := d
    simp only [Store.write]
    rcases h with ⟨hb, h⟩ | ⟨rfl, rfl⟩
    · split
      · exact .inl ⟨by omega, .inl ⟨hb, h⟩⟩
      · split
        · exact .inl ⟨by omega, h⟩
        · exact .inl ⟨hb, ih h⟩
    · split
      · exact .inl ⟨by omega, .inr ⟨rfl, rfl⟩⟩
      · exact .inr ⟨rfl, rfl⟩

theorem write_of_standsAt {α : Type} {m : Store α} {a : Nat} {v : α} (h : StandsAt m a v) : m.write a v = m := by
  induction m with
  | nil => exact h.elim
  | cons d m ih =>
    obtain ⟨b, x⟩ := d
    simp only [Store.write]
    rcases h with ⟨hb, h⟩ | ⟨rfl, rfl⟩
    · rw [if_neg (by omega), if_neg (by omega), ih h]
    · simp

theorem write4_idem {α : Type} (m : Store α) (a : Nat) (v0 v1 v2 v3 : α) :
    let n := (((m.write a v0).write (a + 1) v1).write (a + 2) v2).write (a + 3) v3
    (((n.write a v0).write (a + 1) v1).write (a + 2) v2).write (a + 3) v3 = n := by
  intro n
  have h3 : StandsAt n (a + 3) v3 := standsAt_write _ _ _
  have h2 : StandsAt n (a + 2) v2 := standsAt_write_other _ (standsAt_write _ _ _) (by omega)
  have h1 : StandsAt n (a + 1) v1 :=
    standsAt_write_other _ (standsAt_write_other _ (standsAt_write _ _ _) (by omega)) (by omega)
  have h0 : StandsAt n a v0 :=
    standsAt_write_other _ (standsAt_write_other _ (standsAt_write_other _ (standsAt_write _ _ _) (by omega)) (by omega)) (by omega)
  rw [write_of_standsAt h0, write_of_standsAt h1, write_of_standsAt h2, write_of_standsAt h3]

end Sys2Proof.Machine
end

