-- ==== Sys2Proof/Laws/Engine.lean ====
section
/-! SUPPORT. What each shared operation of the engine can do, said once: the bounds a legal configuration gives (00_scope R13),
the operand reads, the pixel walk of EMBED, the scan of EXTRACT, and, per command, the cases of its completion step. -/

namespace Sys2Proof.Machine

/-! ### Bounds -/

/-- R12 as numbers. -/
theorem config_bounds (c : Config) :
    c.msgCap ≤ 0x2000000 ∧ c.pwdCap ≤ 0x4000000 ∧ c.pixCap ≤ 0x20000000 ∧ 8 * c.msgCap ≤ c.bitCap ∧
      c.bitCap ≤ 0x10000000 ∧ c.msgCap + 9 ≤ c.outCap ∧ c.bitCap / 8 ≤ c.outCap ∧ 3 * (c.pixCap / 4) / 8 ≤ c.outCap ∧
      c.outCap ≤ 0x4000000 ∧ c.sccBase.toNat % 0x40000000 = 0 := by
  have h := c.legal
  simp only [Params.isLegal, Params.msgCapOk, Params.pwdCapOk, Params.pixCapOk, Params.bitCapOk, Params.outCapOk,
    Params.sccBaseOk, Bool.and_eq_true, decide_eq_true_eq] at h
  omega

theorem toNat_wordOf {n : Nat} (h : n < 0x100000000) : (wordOf n).toNat = n := by
  simp only [wordOf, BitVec.toNat_ofNat]
  exact Nat.mod_eq_of_lt h

/-! ### Operand reads -/

theorem readMsg_ok (s : State) (x : List Byte) :
    readMsg s = .ok x ↔ x.length = s.curMsgLen ∧ ∀ i, i < s.curMsgLen → s.msg.read i = x[i]? := by
  unfold readMsg
  have h := readFrom_eq_some s.msg 0 s.curMsgLen x
  simp only [Nat.zero_add] at h
  rw [← h]
  cases s.msg.readFrom 0 s.curMsgLen <;> simp

theorem readMsg_error (s : State) (f : Fault) :
    readMsg s = .error f ↔ f = .commandReadUnwritten .msg ∧ ∃ i, i < s.curMsgLen ∧ s.msg.read i = none := by
  unfold readMsg
  have h := readFrom_eq_none s.msg 0 s.curMsgLen
  simp only [Nat.zero_add] at h
  rw [← h]
  cases s.msg.readFrom 0 s.curMsgLen <;> simp [eq_comm]

theorem readPwd_ok (n : Nat) (s : State) (p : List Byte) :
    readPwd n s = .ok p ↔ p.length = min s.curPwdLen n ∧ ∀ i, i < min s.curPwdLen n → s.pwd.read i = p[i]? := by
  unfold readPwd
  have h := readFrom_eq_some s.pwd 0 (min s.curPwdLen n) p
  simp only [Nat.zero_add] at h
  rw [← h]
  cases s.pwd.readFrom 0 (min s.curPwdLen n) <;> simp

theorem readPwd_error (n : Nat) (s : State) (f : Fault) :
    readPwd n s = .error f ↔ f = .commandReadUnwritten .pwd ∧ ∃ i, i < min s.curPwdLen n ∧ s.pwd.read i = none := by
  unfold readPwd
  have h := readFrom_eq_none s.pwd 0 (min s.curPwdLen n)
  simp only [Nat.zero_add] at h
  rw [← h]
  cases s.pwd.readFrom 0 (min s.curPwdLen n) <;> simp [eq_comm]

theorem readBits_ok (s : State) (b : List Bool) :
    readBits s = .ok b ↔ b.length = s.curBitLen ∧ ∀ i, i < s.curBitLen → s.bit.read i = b[i]? := by
  unfold readBits
  have h := readFrom_eq_some s.bit 0 s.curBitLen b
  simp only [Nat.zero_add] at h
  rw [← h]
  cases s.bit.readFrom 0 s.curBitLen <;> simp

theorem readBits_error (s : State) (f : Fault) :
    readBits s = .error f ↔ f = .commandReadUnwritten .bit ∧ ∃ i, i < s.curBitLen ∧ s.bit.read i = none := by
  unfold readBits
  have h := readFrom_eq_none s.bit 0 s.curBitLen
  simp only [Nat.zero_add] at h
  rw [← h]
  cases s.bit.readFrom 0 s.curBitLen <;> simp [eq_comm]

/-! ### The pixel walk of EMBED -/

/-- The walk fails exactly when a sample it reads is unwritten. -/
theorem embedWalk_eq_none (pix : Memory) (k : Nat) (b : List Bool) :
    embedWalk pix k b = none ↔ ∃ i, i < b.length ∧ pix.read (slotOffset (k + i)) = none := by
  induction b generalizing pix k with
  | nil => simp [embedWalk]
  | cons c b ih =>
    simp only [embedWalk]
    cases h : pix.read (slotOffset k) with
    | none => exact ⟨fun _ => ⟨0, by simp, h⟩, fun _ => rfl⟩
    | some v =>
      simp only [ih, List.length_cons]
      have ne : ∀ i, slotOffset (k + 1 + i) ≠ slotOffset k := fun i e => by
        have := slotOffset_inj e; omega
      constructor
      · rintro ⟨i, hi, hr⟩
        rw [read_write_other _ _ (ne i)] at hr
        exact ⟨i + 1, by omega, by rw [← hr]; congr 2; omega⟩
      · rintro ⟨i, hi, hr⟩
        cases i with
        | zero => rw [Nat.add_zero, h] at hr; cases hr
        | succ i =>
          refine ⟨i, by omega, ?_⟩
          rw [read_write_other _ _ (ne i), ← hr]
          congr 2; omega

/-- What the walk leaves at each offset: the LSB of slot `k + i` is bit `i`, and every other byte is as before. -/
theorem read_embedWalk {pix pix' : Memory} {k : Nat} {b : List Bool} (h : embedWalk pix k b = some pix') :
    (∀ i c, b[i]? = some c → pix'.read (slotOffset (k + i)) = (pix.read (slotOffset (k + i))).map (withLsb · c)) ∧
      ∀ a, (∀ i, i < b.length → a ≠ slotOffset (k + i)) → pix'.read a = pix.read a := by
  induction b generalizing pix k with
  | nil => simp only [embedWalk, Option.some.injEq] at h; subst h; simp
  | cons c b ih =>
    simp only [embedWalk] at h
    cases hv : pix.read (slotOffset k) with
    | none => rw [hv] at h; cases h
    | some v =>
      rw [hv] at h
      obtain ⟨hin, hout⟩ := ih h
      have ne : ∀ i, slotOffset (k + 1 + i) ≠ slotOffset k := fun i e => by
        have := slotOffset_inj e; omega
      constructor
      · intro i d hd
        cases i with
        | zero =>
          simp only [List.getElem?_cons_zero, Option.some.injEq] at hd
          subst hd
          rw [Nat.add_zero, hout _ (fun i _ e => ne i e.symm), hv]
          simp
        | succ i =>
          have := hin i d (by simpa using hd)
          rw [read_write_other _ _ (ne i)] at this
          rw [show k + (i + 1) = k + 1 + i by omega]
          exact this
      · intro a ha
        rw [hout a (fun i hi => by
          have := ha (i + 1) (by simpa using hi)
          rwa [show k + (i + 1) = k + 1 + i by omega] at this)]
        exact read_write_other _ _ (by simpa using ha 0 (by simp))

theorem embedWalk_wf {cap : Nat} {pix pix' : Memory} {k : Nat} {b : List Bool} (hm : Store.wf cap pix = true)
    (h : embedWalk pix k b = some pix') : Store.wf cap pix' = true := by
  induction b generalizing pix k with
  | nil => simp only [embedWalk, Option.some.injEq] at h; exact h ▸ hm
  | cons c b ih =>
    simp only [embedWalk] at h
    cases hv : pix.read (slotOffset k) with
    | none => rw [hv] at h; cases h
    | some v => rw [hv] at h; exact ih (write_wf _ hm (read_lt_of_wf hm hv)) h

/-! ### The scan of EXTRACT -/

/-- What the check of R153 sees at accumulator `acc`, when it runs. -/
def checkAt (acc : List Bool) : Option (List Byte) :=
  if acc.length % 8 = 0 then findAndStrip (wholeBytes acc) else none

theorem bitsToBytes_bind (acc : List Bool) (h : acc.length % 8 = 0) :
    (bitsToBytes acc).bind findAndStrip = findAndStrip (wholeBytes acc) := by
  simp [bitsToBytes, h]

/-- One round of the loop of R150. -/
theorem extractScan_succ (pix : Memory) (left : Nat) (acc : List Bool) :
    extractScan pix (left + 1) acc =
      match Store.read pix (slotOffset acc.length) with
      | none => .unwritten
      | some v =>
        match checkAt (acc ++ [lsb v]) with
        | some y => .found y (acc.length + 1)
        | none => extractScan pix left (acc ++ [lsb v]) := by
  simp only [extractScan, checkAt, List.length_append, List.length_singleton]
  cases Store.read pix (slotOffset acc.length) with
  | none => rfl
  | some v =>
    by_cases h : (acc.length + 1) % 8 = 0
    · simp only [h, if_true]
      rw [bitsToBytes_bind _ (by simpa using h)]
      all_goals cases findAndStrip (wholeBytes (acc ++ [lsb v])) <;> rfl
    · simp only [h, if_false]

/-- The scan over slots whose LSBs are `bits` (the next ones after `acc`): it stops at the first prefix whose check finds the
marker. -/
theorem extractScan_found {pix : Memory} {left : Nat} {acc : List Bool} {y : List Byte} {n : Nat} :
    extractScan pix left acc = .found y n ↔
      ∃ bits : List Bool, bits ≠ [] ∧ bits.length ≤ left ∧ n = acc.length + bits.length ∧
        (∀ k, k < bits.length → (pix.read (slotOffset (acc.length + k))).map lsb = bits[k]?) ∧
        (∀ k, 0 < k → k < bits.length → checkAt (acc ++ bits.take k) = none) ∧ checkAt (acc ++ bits) = some y := by
  induction left generalizing acc with
  | zero =>
    simp only [extractScan, reduceCtorEq, Nat.le_zero, List.length_eq_zero_iff, false_iff]
    rintro ⟨bits, hne, h0, _⟩
    exact hne h0
  | succ left ih =>
    rw [extractScan_succ]
    cases hv : Store.read pix (slotOffset acc.length) with
    | none =>
      simp only [reduceCtorEq, false_iff]
      rintro ⟨bits, hne, _, _, hr, _⟩
      cases bits with
      | nil => exact hne rfl
      | cons b bits => have := hr 0 (by simp); simp [hv] at this
    | some v =>
      have key : ∀ bits : List Bool, bits ≠ [] →
          (∀ k, k < bits.length → (pix.read (slotOffset (acc.length + k))).map lsb = bits[k]?) →
          ∃ bs, bits = lsb v :: bs := by
        intro bits hne hr
        cases bits with
        | nil => exact absurd rfl hne
        | cons b bs =>
          have := hr 0 (by simp)
          simp only [Nat.add_zero, hv, Option.map_some, List.getElem?_cons_zero, Option.some.injEq] at this
          exact ⟨bs, by rw [this]⟩
      cases hc : checkAt (acc ++ [lsb v]) with
      | some z =>
        simp only [hc, Scan.found.injEq]
        constructor
        · rintro ⟨rfl, rfl⟩
          refine ⟨[lsb v], by simp, by simp, by simp, fun k hk => ?_, fun k h0 hk => ?_, hc⟩
          · have : k = 0 := by simpa using hk
            subst this; simp [hv]
          · simp only [List.length_singleton] at hk; omega
        · rintro ⟨bits, hne, hl, hn, hr, hnot, hlast⟩
          obtain ⟨bs, rfl⟩ := key bits hne hr
          cases bs with
          | nil => rw [hc] at hlast; cases hlast; exact ⟨rfl, by simp at hn; omega⟩
          | cons b bs =>
            have := hnot 1 (by omega) (by simp)
            rw [List.take_succ_cons, List.take_zero, hc] at this
            cases this
      | none =>
        simp only [hc, ih, List.length_append, List.length_singleton]
        constructor
        · rintro ⟨bs, hne, hl, hn, hr, hnot, hlast⟩
          refine ⟨lsb v :: bs, by simp, by simp; omega, by simp; omega, fun k hk => ?_, fun k h0 hk => ?_, by simpa using hlast⟩
          · cases k with
            | zero => simp [hv]
            | succ k =>
              have := hr k (by simpa using hk)
              rw [show acc.length + (k + 1) = acc.length + 1 + k by omega]
              simpa using this
          · cases k with
            | zero => omega
            | succ k =>
              cases k with
              | zero => simpa using hc
              | succ k =>
                have := hnot (k + 1) (by omega) (by simpa using hk)
                simpa using this
        · rintro ⟨bits, hne, hl, hn, hr, hnot, hlast⟩
          obtain ⟨bs, rfl⟩ := key bits hne hr
          have hbs : bs ≠ [] := by
            rintro rfl
            rw [hc] at hlast; cases hlast
          refine ⟨bs, hbs, by simpa using hl, by simp at hn; omega, fun k hk => ?_, fun k h0 hk => ?_, by simpa using hlast⟩
          · have := hr (k + 1) (by simpa using hk)
            rw [show acc.length + (k + 1) = acc.length + 1 + k by omega] at this
            simpa using this
          · have := hnot (k + 1) (by omega) (by simpa using hk)
            simpa using this

/-- The scan is exhausted exactly when every slot is written and no check finds the marker. -/
theorem extractScan_exhausted {pix : Memory} {left : Nat} {acc : List Bool} :
    extractScan pix left acc = .exhausted ↔
      ∃ bits : List Bool, bits.length = left ∧
        (∀ k, k < bits.length → (pix.read (slotOffset (acc.length + k))).map lsb = bits[k]?) ∧
        (∀ k, 0 < k → k ≤ bits.length → checkAt (acc ++ bits.take k) = none) := by
  induction left generalizing acc with
  | zero =>
    simp only [extractScan, true_iff]
    exact ⟨[], rfl, by simp, fun k h0 hk => by simp at hk; omega⟩
  | succ left ih =>
    rw [extractScan_succ]
    cases hv : Store.read pix (slotOffset acc.length) with
    | none =>
      simp only [reduceCtorEq, false_iff]
      rintro ⟨bits, hl, hr, _⟩
      cases bits with
      | nil => simp at hl
      | cons b bits => have := hr 0 (by simp); simp [hv] at this
    | some v =>
      have key : ∀ bits : List Bool, bits.length = left + 1 →
          (∀ k, k < bits.length → (pix.read (slotOffset (acc.length + k))).map lsb = bits[k]?) →
          ∃ bs, bits = lsb v :: bs := by
        intro bits hne hr
        cases bits with
        | nil => simp at hne
        | cons b bs =>
          have := hr 0 (by simp)
          simp only [Nat.add_zero, hv, Option.map_some, List.getElem?_cons_zero, Option.some.injEq] at this
          exact ⟨bs, by rw [this]⟩
      cases hc : checkAt (acc ++ [lsb v]) with
      | some z =>
        simp only [hc, reduceCtorEq, false_iff]
        rintro ⟨bits, hl, hr, hnot⟩
        obtain ⟨bs, rfl⟩ := key bits hl hr
        have := hnot 1 (by omega) (by simp)
        rw [List.take_succ_cons, List.take_zero, hc] at this
        cases this
      | none =>
        simp only [hc, ih, List.length_append, List.length_singleton]
        constructor
        · rintro ⟨bs, hl, hr, hnot⟩
          refine ⟨lsb v :: bs, by simp [hl], fun k hk => ?_, fun k h0 hk => ?_⟩
          · cases k with
            | zero => simp [hv]
            | succ k =>
              have := hr k (by simpa using hk)
              rw [show acc.length + (k + 1) = acc.length + 1 + k by omega]
              simpa using this
          · cases k with
            | zero => omega
            | succ k =>
              cases k with
              | zero => simpa using hc
              | succ k =>
                have := hnot (k + 1) (by omega) (by simpa using hk)
                simpa using this
        · rintro ⟨bits, hl, hr, hnot⟩
          obtain ⟨bs, rfl⟩ := key bits hl hr
          refine ⟨bs, by simpa using hl, fun k hk => ?_, fun k h0 hk => ?_⟩
          · have := hr (k + 1) (by simpa using hk)
            rw [show acc.length + (k + 1) = acc.length + 1 + k by omega] at this
            simpa using this
          · have := hnot (k + 1) (by omega) (by simpa using hk)
            simpa using this

/-! ### The scan, from the LSBs -/

theorem checkAt_take_none {bits : List Bool} {k : Nat} (h : ∀ i, firstIndex marker (wholeBytes bits) = some i → k < 8 * (i + 9)) 
   (hk : k ≤ bits.length) : checkAt (bits.take k) = none := by
  unfold checkAt
  split
  · next h8 =>
    rw [List.length_take, Nat.min_eq_left hk] at h8
    obtain ⟨m, rfl⟩ : ∃ m, k = 8 * m := ⟨k / 8, by omega⟩
    rw [findAndStrip_eq_none, wholeBytes_take]
    exact firstIndex_take_none fun i hi => by have := h i hi; omega
  · rfl

/-- The scan finds the first marker of the whole bytes of the LSBs. -/
theorem extractScan_firstMarker {pix : Memory} {C : Nat} {bits : List Bool} {i : Nat} (hb : LsbsAre pix bits) (hC : bits.length ≤ C)
    (hf : firstIndex marker (wholeBytes bits) = some i) :
    extractScan pix C [] = .found ((wholeBytes bits).take i) (8 * (i + 9)) := by
  have hle := firstIndex_le hf
  rw [length_wholeBytes] at hle
  rw [extractScan_found]
  have hl : (bits.take (8 * (i + 9))).length = 8 * (i + 9) := by simp; omega
  refine ⟨bits.take (8 * (i + 9)), ?_, by omega, by simp; omega, ?_, ?_, ?_⟩
  · intro h; rw [h] at hl; simp at hl
  · intro k hk
    rw [hl] at hk
    rw [List.length_nil, Nat.zero_add, hb k (by omega), List.getElem?_take_of_lt hk]
  · intro k h0 hk
    rw [hl] at hk
    rw [List.nil_append, List.take_take, Nat.min_eq_left (by omega)]
    exact checkAt_take_none (fun j hj => by rw [hf] at hj; cases hj; exact hk) (by omega)
  · rw [List.nil_append, checkAt, if_pos (by rw [hl]; omega), wholeBytes_take, findAndStrip_eq_some]
    refine ⟨i, firstIndex_take_some hf (Nat.le_refl _), ?_⟩
    rw [List.take_take, Nat.min_eq_left (by omega)]

/-- The scan is exhausted when the whole bytes hold no marker. -/
theorem extractScan_noMarker {pix : Memory} {bits : List Bool} (hb : LsbsAre pix bits) 
    (hf : firstIndex marker (wholeBytes bits) = none) :
    extractScan pix bits.length [] = .exhausted := by
  rw [extractScan_exhausted]
  refine ⟨bits, rfl, fun k hk => ?_, fun k h0 hk => ?_⟩
  · rw [List.length_nil, Nat.zero_add]; exact hb k hk
  · exact checkAt_take_none (fun j hj => by rw [hf] at hj; cases hj) hk

/-- The scan depends on the LSBs alone. -/
theorem extractScan_congr {pix pix' : Memory} {left : Nat} {acc : List Bool}
    (h : ∀ k, k < left → (pix'.read (slotOffset (acc.length + k))).map lsb = (pix.read (slotOffset (acc.length + k))).map lsb) :
    extractScan pix' left acc = extractScan pix left acc := by
  induction left generalizing acc with
  | zero => rfl
  | succ left ih =>
    rw [extractScan_succ, extractScan_succ]
    have h0 := h 0 (by omega)
    rw [Nat.add_zero] at h0
    have hrec : ∀ b, extractScan pix' left (acc ++ [b]) = extractScan pix left (acc ++ [b]) := fun b => ih fun k hk => by
      have := h (k + 1) (by omega)
      simpa [Nat.add_assoc, Nat.add_comm 1 k] using this
    cases h1 : Store.read pix (slotOffset acc.length) with
    | none => rw [h1] at h0; simp at h0; rw [h0]
    | some v =>
      rw [h1] at h0
      simp only [Option.map_some, Option.map_eq_some_iff] at h0
      obtain ⟨v', e, hv⟩ := h0
      simp only [e, hv]
      rw [hrec]

/-- The payload a scan finds lies, with its marker, within the slots (00_scope R13). -/
theorem extractScan_found_length {pix : Memory} {C n : Nat} {y : List Byte} (h : extractScan pix C [] = .found y n) :
    y.length + 9 ≤ C / 8 ∧ n = 8 * (y.length + 9) := by
  obtain ⟨bits, hne, hlen, hn, hr, hnot, hc⟩ := extractScan_found.mp h
  have hb : LsbsAre pix bits := fun k hk => by have := hr k hk; rwa [List.length_nil, Nat.zero_add] at this
  rw [List.nil_append, checkAt] at hc
  split at hc
  · obtain ⟨i, hf, rfl⟩ := (findAndStrip_eq_some _ _).mp hc
    have := extractScan_firstMarker hb hlen hf
    rw [h] at this; cases this
    have := firstIndex_le hf
    rw [length_wholeBytes] at this
    have e : ((wholeBytes bits).take i).length = i := by simp; omega
    rw [e]; omega
  · cases hc

end Sys2Proof.Machine
end

