-- ==== Sys2Proof/Laws/Bus.lean ====
section
/-! SUPPORT. What a host access can do, said once: the address map read both ways, the byte a buffer write leaves, and the cases
of an access that is answered. -/

namespace Sys2Proof.Machine

/-! ### The address map -/

/-- An offset of the REG window, from its address. -/
theorem placeOf_reg {c : Config} {a : Word} {off : Nat} (h : a.toNat = c.sccBase.toNat + off) (ho : off < 0x1000) :
    placeOf c a = .reg off := by
  unfold placeOf
  rw [if_neg (by omega), show a.toNat - c.sccBase.toNat = off by omega]
  simp [placeAt, ho]

/-- The address map with its boundaries as numbers (20_memory R50). -/
theorem placeAt_eq (rel : Nat) : placeAt rel =
    if rel < 0x1000 then .reg rel
    else if rel < 0x2000 then .buffer .marker (rel - 0x1000)
    else if rel < 0x4000000 then .outside
    else if rel < 0x8000000 then .buffer .msg (rel - 0x4000000)
    else if rel < 0xC000000 then .buffer .pwd (rel - 0x8000000)
    else if rel < 0x10000000 then .buffer .out (rel - 0xC000000)
    else if rel < 0x20000000 then .buffer .bit (rel - 0x10000000)
    else if rel < 0x40000000 then .buffer .pix (rel - 0x20000000)
    else .outside := rfl

/-- An offset of a buffer window, from its address. -/
theorem placeOf_buffer {c : Config} {a : Word} {w : Window} {o : Nat} (h : a.toNat = c.sccBase.toNat + w.base + o)
    (ho : o < w.size) : placeOf c a = .buffer w o := by
  unfold placeOf
  rw [if_neg (by omega), placeAt_eq]
  have e : a.toNat - c.sccBase.toNat = w.base + o := by omega
  generalize a.toNat - c.sccBase.toNat = rel at e ⊢
  clear h
  cases w <;> simp only [Window.base, Window.size] at ho e <;> (repeat' split) <;>
    first | omega | (simp only [Place.buffer.injEq, true_and]; omega)

theorem placeOf_eq_reg {c : Config} {a : Word} {off : Nat} (h : placeOf c a = .reg off) :
    a.toNat = c.sccBase.toNat + off ∧ off < 0x1000 := by
  unfold placeOf at h
  rw [placeAt_eq] at h
  repeat' split at h
  all_goals cases h
  omega

theorem placeOf_eq_buffer {c : Config} {a : Word} {w : Window} {o : Nat} (h : placeOf c a = .buffer w o) :
    a.toNat = c.sccBase.toNat + w.base + o ∧ o < w.size := by
  unfold placeOf at h
  rw [placeAt_eq] at h
  repeat' split at h
  all_goals cases h
  all_goals (simp only [Window.base, Window.size]; omega)

theorem atOffset_lt {off : Nat} {r : Reg} (h : Reg.atOffset off = some r) : off < 0x48 ∧ off % 4 = 0 := by
  unfold Reg.atOffset at h
  split at h <;> first | (constructor <;> omega) | cases h

theorem atOffset_cmd {off : Nat} (h : Reg.atOffset off = some .cmd) : off = 8 := by
  unfold Reg.atOffset at h
  split at h <;> first | rfl | cases h

theorem atOffset_status {off : Nat} (h : Reg.atOffset off = some .status) : off = 0xC := by
  unfold Reg.atOffset at h
  split at h <;> first | rfl | cases h

theorem atOffset_bitLen {off : Nat} (h : Reg.atOffset off = some .bitLen) : off = 0x1C := by
  unfold Reg.atOffset at h
  split at h <;> first | rfl | cases h

/-- Every capacity fits its window (20_memory R50). -/
theorem capOf_le_size (c : Config) (w : Window) : capOf c w ≤ w.size := by
  have := config_bounds c
  cases w <;> simp only [capOf, Window.size, markerLen] <;> omega

/-! ### Buffer writes -/

/-- A buffer write touches nothing but MSG, PWD, BIT and PIX. -/
theorem setByte_eq (w : Window) (a : Nat) (v : Byte) (s : State) :
    setByte w a v s = { s with
      msg := (setByte w a v s).msg, pwd := (setByte w a v s).pwd
      bit := (setByte w a v s).bit, pix := (setByte w a v s).pix } := by
  cases w <;> rfl

theorem setWord_eq (w : Window) (a : Nat) (v : Word) (s : State) :
    setWord w a v s = { s with
      msg := (setWord w a v s).msg, pwd := (setWord w a v s).pwd
      bit := (setWord w a v s).bit, pix := (setWord w a v s).pix } := by
  cases w <;> rfl

/-- The byte a buffer write leaves at each offset of each buffer. -/
theorem byteAt_setByte {w : Window} (hw : w.hostWritable = true) (a : Nat) (v : Byte) (s : State) (w' : Window) (a' : Nat) :
    (setByte w a v s).byteAt w' a' =
      if w' = w ∧ a' = a then some (if w = .bit then bitByte (lsb v) else v) else s.byteAt w' a' := by
  cases w <;> cases hw <;> cases w' <;> simp [setByte, State.byteAt, read_write]
  split <;> simp

theorem byteAt_answer (s : State) (r : Option Response) (w : Window) (a : Nat) :
    ({ s with answer := r } : State).byteAt w a = s.byteAt w a := by
  cases w <;> rfl

theorem byteAt_agenda (s : State) (g : List Event) (w : Window) (a : Nat) :
    ({ s with agenda := g } : State).byteAt w a = s.byteAt w a := by
  cases w <;> rfl

theorem setByte_memoryWf {w : Window} {a : Nat} (v : Byte) {s : State} (hs :
    Memory.wf s.cfg.msgCap s.msg = true ∧ Memory.wf s.cfg.pwdCap s.pwd = true ∧ Store.wf s.cfg.bitCap s.bit = true ∧
      Memory.wf s.cfg.pixCap s.pix = true) (ha : a < capOf s.cfg w) :
    Memory.wf s.cfg.msgCap (setByte w a v s).msg = true ∧ Memory.wf s.cfg.pwdCap (setByte w a v s).pwd = true ∧
      Store.wf s.cfg.bitCap (setByte w a v s).bit = true ∧ Memory.wf s.cfg.pixCap (setByte w a v s).pix = true := by
  obtain ⟨h1, h2, h3, h4⟩ := hs
  cases w
  · exact ⟨h1, h2, h3, h4⟩
  · exact ⟨write_wf _ h1 ha, h2, h3, h4⟩
  · exact ⟨h1, write_wf _ h2 ha, h3, h4⟩
  · exact ⟨h1, h2, h3, h4⟩
  · exact ⟨h1, h2, write_wf _ h3 ha, h4⟩
  · exact ⟨h1, h2, h3, write_wf _ h4 ha⟩

theorem setWord_memoryWf {w : Window} {a : Nat} (v : Word) {s : State} (hs :
    Memory.wf s.cfg.msgCap s.msg = true ∧ Memory.wf s.cfg.pwdCap s.pwd = true ∧ Store.wf s.cfg.bitCap s.bit = true ∧
      Memory.wf s.cfg.pixCap s.pix = true) (ha : a + 3 < capOf s.cfg w) :
    Memory.wf s.cfg.msgCap (setWord w a v s).msg = true ∧ Memory.wf s.cfg.pwdCap (setWord w a v s).pwd = true ∧
      Store.wf s.cfg.bitCap (setWord w a v s).bit = true ∧ Memory.wf s.cfg.pixCap (setWord w a v s).pix = true := by
  obtain ⟨h1, h2, h3, h4⟩ := hs
  have word : ∀ {α : Type} {cap : Nat} {m : Store α} (v0 v1 v2 v3 : α), Store.wf cap m = true → a + 3 < cap →
      Store.wf cap ((((m.write a v0).write (a + 1) v1).write (a + 2) v2).write (a + 3) v3) = true := fun _ _ _ _ hm h =>
    write_wf _ (write_wf _ (write_wf _ (write_wf _ hm (by omega)) (by omega)) (by omega)) (by omega)
  cases w <;> simp only [setWord, setByte]
  · exact ⟨h1, h2, h3, h4⟩
  · exact ⟨word _ _ _ _ h1 ha, h2, h3, h4⟩
  · exact ⟨h1, word _ _ _ _ h2 ha, h3, h4⟩
  · exact ⟨h1, h2, h3, h4⟩
  · exact ⟨h1, h2, word _ _ _ _ h3 ha, h4⟩
  · exact ⟨h1, h2, h3, word _ _ _ _ h4 ha⟩

/-! ### What an answered access can do -/

theorem answered_next {r : Response} {s t : State} (h : answered r s = .next t) : t = { s with answer := some r } := by
  unfold answered at h
  cases h
  rfl

/-- A register write is one of these (10_state R23). -/
theorem writeReg_cases {s u : State} {r : Reg} {w : Word} (h : writeReg s r w = some u) :
    (r = .ctrl ∧ u = writeCtrl w s) ∨ (r = .cmd ∧ u = offer w s) ∨ (r = .status ∧ u = acknowledge w s) ∨
    (r = .msgLen ∧ u = { s with msgLen := w }) ∨ (r = .pwdLen ∧ u = { s with pwdLen := w }) ∨
    (r = .pixLen ∧ u = { s with pixLen := w }) ∨ (r = .bitLen ∧ u = { s with bitLen := w }) := by
  cases r <;> simp only [writeReg, reduceCtorEq, Option.some.injEq] at h <;> subst h <;> simp

/-- An answered access reads, is refused with ERROR, writes a register, or writes one or four bytes of a buffer. -/
theorem hostStep_cases {a : Access} {s t : State} (h : hostStep a s = .next t) :
    (∃ r, t = { s with answer := some r } ∧ (r = .error ∨ (∃ b, a = .read8 b) ∨ ∃ b, a = .read32 b)) ∨
    (∃ b v off r u, a = .write32 b v ∧ placeOf s.cfg b = .reg off ∧ Reg.atOffset off = some r ∧ writeReg s r v = some u ∧
      t = { u with answer := some .okay }) ∨
    (∃ b v w o, a = .write8 b v ∧ placeOf s.cfg b = .buffer w o ∧ o < capOf s.cfg w ∧ hazard s w = false ∧
      w.hostWritable = true ∧ t = { setByte w o v s with answer := some .okay }) ∨
    (∃ b v w o, a = .write32 b v ∧ placeOf s.cfg b = .buffer w o ∧ wordFits s.cfg w o = true ∧ hazard s w = false ∧
      w.hostWritable = true ∧ t = { setWord w o v s with answer := some .okay }) := by
  unfold hostStep at h
  cases hp : placeOf s.cfg a.addr with
  | outside => rw [hp] at h; exact .inl ⟨_, answered_next h, .inl rfl⟩
  | reg off =>
    rw [hp] at h
    simp only [regAccess] at h
    split at h
    · next r hr =>
      cases hv : readReg s r with
      | none => rw [hv] at h; exact .inl ⟨_, answered_next h, .inl rfl⟩
      | some v => rw [hv] at h; exact .inl ⟨_, answered_next h, .inr (.inr ⟨_, rfl⟩)⟩
    · next v r hr =>
      cases hu : writeReg s r v with
      | none => rw [hu] at h; exact .inl ⟨_, answered_next h, .inl rfl⟩
      | some u => rw [hu] at h; exact .inr (.inl ⟨_, v, off, r, u, rfl, hp, hr, hu, answered_next h⟩)
    · exact .inl ⟨_, answered_next h, .inl rfl⟩
  | buffer w o =>
    rw [hp] at h
    simp only [bufferAccess] at h
    split at h
    · exact .inl ⟨_, answered_next h, .inl rfl⟩
    · next hcap =>
      split at h
      · cases h
      · next hz =>
        replace hz : hazard s w = false := by simpa using hz
        cases a with
        | read8 b =>
          simp only at h
          split at h
          · exact .inl ⟨_, answered_next h, .inr (.inl ⟨_, rfl⟩)⟩
          · cases h
        | read32 b =>
          simp only at h
          split at h
          · split at h
            · exact .inl ⟨_, answered_next h, .inr (.inr ⟨_, rfl⟩)⟩
            · cases h
          · exact .inl ⟨_, answered_next h, .inl rfl⟩
        | write8 b v =>
          simp only at h
          split at h
          · next hw => exact .inr (.inr (.inl ⟨b, v, w, o, rfl, hp, by omega, hz, hw, answered_next h⟩))
          · exact .inl ⟨_, answered_next h, .inl rfl⟩
        | write32 b v =>
          simp only at h
          split at h
          · next hw =>
            rw [Bool.and_eq_true] at hw
            exact .inr (.inr (.inr ⟨b, v, w, o, rfl, hp, hw.2, hz, hw.1, answered_next h⟩))
          · exact .inl ⟨_, answered_next h, .inl rfl⟩

/-- A host access never refuses. -/
theorem hostStep_not_refused (a : Access) (s : State) (r : Refusal) : hostStep a s ≠ .refused r := by
  intro h
  unfold hostStep at h
  split at h
  · simp only [regAccess, answered] at h
    repeat' split at h
    all_goals cases h
  · simp only [bufferAccess, answered] at h
    repeat' split at h
    all_goals cases h
  · cases h

/-! ### Words, and accesses made again -/

/-- The byte a word write leaves at each offset of each buffer. -/
theorem byteAt_setWord {w : Window} (hw : w.hostWritable = true) (a : Nat) (v : Word) (s : State) (w' : Window) (a' : Nat) :
    (setWord w a v s).byteAt w' a' =
      if w' = w ∧ a ≤ a' ∧ a' ≤ a + 3 then
        some (if w = .bit then bitByte (lsb (wordByte v (a' - a))) else wordByte v (a' - a))
      else s.byteAt w' a' := by
  unfold setWord
  simp only [byteAt_setByte hw]
  by_cases hww : w' = w
  · subst hww
    simp only [true_and]
    by_cases h : a ≤ a' ∧ a' ≤ a + 3
    · rw [if_pos h]
      have : a' = a + 3 ∨ a' = a + 2 ∨ a' = a + 1 ∨ a' = a := by omega
      rcases this with rfl | rfl | rfl | rfl <;> simp
    · rw [if_neg h, if_neg (by omega), if_neg (by omega), if_neg (by omega), if_neg (by omega)]
  · simp [hww]

/-- A packed word is little-endian (20_memory R54). -/
theorem toNat_packWord (b0 b1 b2 b3 : Byte) :
    (packWord b0 b1 b2 b3).toNat = b3.toNat * 0x1000000 + b2.toNat * 0x10000 + b1.toNat * 0x100 + b0.toNat := by
  have h0 := b0.isLt; have h1 := b1.isLt; have h2 := b2.isLt
  unfold packWord
  simp only [BitVec.toNat_append]
  rw [← Nat.shiftLeft_add_eq_or_of_lt h0, ← Nat.shiftLeft_add_eq_or_of_lt h1, ← Nat.shiftLeft_add_eq_or_of_lt h2]
  simp only [Nat.shiftLeft_eq]
  omega

theorem setByte_idem (w : Window) (a : Nat) (v : Byte) (s : State) :
    setByte w a v (setByte w a v s) = setByte w a v s := by
  cases w <;> simp [setByte, write_of_standsAt (standsAt_write _ _ _)]

theorem setWord_idem (w : Window) (a : Nat) (v : Word) (s : State) :
    setWord w a v (setWord w a v s) = setWord w a v s := by
  cases w <;> simp [setWord, setByte, write4_idem]

theorem setByte_answer (w : Window) (a : Nat) (v : Byte) (s : State) (r : Option Response) :
    setByte w a v { s with answer := r } = { setByte w a v s with answer := r } := by
  cases w <;> rfl

theorem setWord_answer (w : Window) (a : Nat) (v : Word) (s : State) (r : Option Response) :
    setWord w a v { s with answer := r } = { setWord w a v s with answer := r } := by
  cases w <;> rfl

theorem wordAt_answer (s : State) (r : Option Response) (w : Window) (a : Nat) :
    ({ s with answer := r } : State).wordAt w a = s.wordAt w a := by
  simp only [State.wordAt, byteAt_answer]

/-- What an access does does not depend on the last answer. -/
theorem hostStep_answer (acc : Access) (s : State) (r : Option Response) :
    hostStep acc { s with answer := r } = hostStep acc s := by
  unfold hostStep
  show (match placeOf s.cfg acc.addr with | .reg off => _ | .buffer w o => _ | .outside => _) = _
  cases placeOf s.cfg acc.addr with
  | outside => rfl
  | reg off =>
    simp only [regAccess]
    cases acc with
    | read8 b => rfl
    | write8 b v => rfl
    | read32 b =>
      cases Reg.atOffset off with
      | none => rfl
      | some q => cases q <;> rfl
    | write32 b v =>
      cases Reg.atOffset off with
      | none => rfl
      | some q =>
        cases q <;> try rfl
        simp only [writeReg, offer]
        cases s.busy <;> rfl
  | buffer w o =>
    simp only [bufferAccess, wordAt_answer, byteAt_answer, setByte_answer, setWord_answer]
    rfl

end Sys2Proof.Machine
end

