-- ==== Sys2Proof/Laws/Exec.lean ====
section
/-! SUPPORT. Per command, everything its completion step can do: the failing checks first, then the faults of its reads, then its
effect. Later proofs take these cases and never unfold a meaning. -/

namespace Sys2Proof.Machine

theorem raise_eq (code : ErrCode) (s : State) : raise code s = .next (complete code s) := rfl

theorem execSer_cases (s : State) :
    (lengthsOk .ser s = false ∧ execSer s = .next (complete .badLength s)) ∨
    (lengthsOk .ser s = true ∧ ∃ f, readMsg s = .error f ∧ execSer s = .fault f) ∨
    (lengthsOk .ser s = true ∧ ∃ x, readMsg s = .ok x ∧ execSer s = .next (complete .ok { s with
      bit := s.bit.writeFrom 0 (bytesToBits x), bitLen := wordOf (8 * s.curMsgLen) })) := by
  unfold execSer
  cases hl : lengthsOk .ser s with
  | false => exact .inl ⟨rfl, rfl⟩
  | true =>
    cases hx : readMsg s with
    | error f => exact .inr (.inl ⟨rfl, f, rfl, rfl⟩)
    | ok x => exact .inr (.inr ⟨rfl, x, rfl, rfl⟩)

theorem execDes_cases (s : State) :
    (lengthsOk .des s = false ∧ execDes s = .next (complete .badLength s)) ∨
    (lengthsOk .des s = true ∧ s.curBitLen % 8 ≠ 0 ∧ execDes s = .next (complete .malformedBitLength s)) ∨
    (lengthsOk .des s = true ∧ s.curBitLen % 8 = 0 ∧ ∃ f, readBits s = .error f ∧ execDes s = .fault f) ∨
    (lengthsOk .des s = true ∧ s.curBitLen % 8 = 0 ∧ ∃ b, readBits s = .ok b ∧
      execDes s = .next (complete .ok { s with
        out := s.out.writeFrom 0 (wholeBytes b), outLen := wordOf (s.curBitLen / 8) })) := by
  unfold execDes
  cases hl : lengthsOk .des s with
  | false => exact .inl ⟨rfl, rfl⟩
  | true =>
    by_cases h8 : s.curBitLen % 8 = 0
    · cases hx : readBits s with
      | error f => exact .inr (.inr (.inl ⟨rfl, h8, f, rfl, by simp [h8]⟩))
      | ok b =>
        have hb := ((readBits_ok s b).mp hx).1
        exact .inr (.inr (.inr ⟨rfl, h8, b, rfl, by simp [h8, bitsToBytes, hb]⟩))
    · exact .inr (.inl ⟨rfl, h8, by simp [h8, raise]⟩)

theorem execXor_cases (s : State) :
    (lengthsOk .xor s = false ∧ execXor s = .next (complete .badLength s)) ∨
    (lengthsOk .xor s = true ∧ ∃ f, (readMsg s = .error f ∨ readPwd s.curMsgLen s = .error f) ∧ execXor s = .fault f) ∨
    (lengthsOk .xor s = true ∧ ∃ x p, readMsg s = .ok x ∧ readPwd s.curMsgLen s = .ok p ∧
      execXor s = .next (complete .ok { s with out := s.out.writeFrom 0 (apply x p), outLen := wordOf s.curMsgLen })) := by
  unfold execXor
  cases hl : lengthsOk .xor s with
  | false => exact .inl ⟨rfl, rfl⟩
  | true =>
    cases hx : readMsg s with
    | error f => exact .inr (.inl ⟨rfl, f, .inl rfl, rfl⟩)
    | ok x =>
      cases hp : readPwd s.curMsgLen s with
      | error f => exact .inr (.inl ⟨rfl, f, .inr rfl, rfl⟩)
      | ok p => exact .inr (.inr ⟨rfl, x, p, rfl, rfl, rfl⟩)

theorem execFrame_cases (s : State) :
    (lengthsOk .frame s = false ∧ execFrame s = .next (complete .badLength s)) ∨
    (lengthsOk .frame s = true ∧ ∃ f, (readMsg s = .error f ∨ readPwd s.curMsgLen s = .error f) ∧ execFrame s = .fault f) ∨
    (lengthsOk .frame s = true ∧ ∃ x p, readMsg s = .ok x ∧ readPwd s.curMsgLen s = .ok p ∧
      execFrame s = .next (complete .ok { s with
        out := s.out.writeFrom 0 (frame x p), outLen := wordOf (s.curMsgLen + markerLen) })) := by
  unfold execFrame
  cases hl : lengthsOk .frame s with
  | false => exact .inl ⟨rfl, rfl⟩
  | true =>
    cases hx : readMsg s with
    | error f => exact .inr (.inl ⟨rfl, f, .inl rfl, rfl⟩)
    | ok x =>
      cases hp : readPwd s.curMsgLen s with
      | error f => exact .inr (.inl ⟨rfl, f, .inr rfl, rfl⟩)
      | ok p => exact .inr (.inr ⟨rfl, x, p, rfl, rfl, rfl⟩)

theorem execFind_cases (s : State) :
    (lengthsOk .find s = false ∧ execFind s = .next (complete .badLength s)) ∨
    (lengthsOk .find s = true ∧ ∃ f, readMsg s = .error f ∧ execFind s = .fault f) ∨
    (lengthsOk .find s = true ∧ ∃ x, readMsg s = .ok x ∧ findAndStrip x = none ∧
      execFind s = .next (complete .ok { s with outLen := 0 })) ∨
    (lengthsOk .find s = true ∧ ∃ x y, readMsg s = .ok x ∧ findAndStrip x = some y ∧
      execFind s = .next (complete .ok { s with
        out := s.out.writeFrom 0 y, outLen := wordOf y.length, found := true })) := by
  unfold execFind
  cases hl : lengthsOk .find s with
  | false => exact .inl ⟨rfl, rfl⟩
  | true =>
    cases hx : readMsg s with
    | error f => exact .inr (.inl ⟨rfl, f, rfl, rfl⟩)
    | ok x =>
      cases hf : findAndStrip x with
      | none => exact .inr (.inr (.inl ⟨rfl, x, rfl, hf, by simp [hf]⟩))
      | some y => exact .inr (.inr (.inr ⟨rfl, x, y, rfl, hf, by simp [hf]⟩))

theorem execEmbed_cases (s : State) :
    (lengthsOk .embed s = false ∧ execEmbed s = .next (complete .badLength s)) ∨
    (lengthsOk .embed s = true ∧ capacityOf s.curPixLen < requiredBits s.curMsgLen ∧
      execEmbed s = .next (complete .capacityExceeded { s with
        reqBits := wordOf (requiredBits s.curMsgLen), bitsDone := 0 })) ∨
    (lengthsOk .embed s = true ∧ requiredBits s.curMsgLen ≤ capacityOf s.curPixLen ∧ s.curMsgLen = 0 ∧
      execEmbed s = .next (complete .emptyMessage { s with
        reqBits := wordOf (requiredBits s.curMsgLen), bitsDone := 0 })) ∨
    (lengthsOk .embed s = true ∧ requiredBits s.curMsgLen ≤ capacityOf s.curPixLen ∧ s.curMsgLen ≠ 0 ∧
      ∃ f, (readMsg s = .error f ∨ readPwd s.curMsgLen s = .error f ∨
        f = .commandReadUnwritten .pix ∧ ∃ x p, readMsg s = .ok x ∧ readPwd s.curMsgLen s = .ok p ∧
          embedWalk s.pix 0 (bytesToBits (frame x p)) = none) ∧ execEmbed s = .fault f) ∨
    (lengthsOk .embed s = true ∧ requiredBits s.curMsgLen ≤ capacityOf s.curPixLen ∧ s.curMsgLen ≠ 0 ∧
      ∃ x p pix, readMsg s = .ok x ∧ readPwd s.curMsgLen s = .ok p ∧
        embedWalk s.pix 0 (bytesToBits (frame x p)) = some pix ∧
        execEmbed s = .next (complete .ok { s with
          pix := pix
          reqBits := wordOf (requiredBits s.curMsgLen)
          bitsDone := wordOf (requiredBits s.curMsgLen) })) := by
  unfold execEmbed
  cases hl : lengthsOk .embed s with
  | false => exact .inl ⟨rfl, rfl⟩
  | true =>
    by_cases hc : capacityOf s.curPixLen < requiredBits s.curMsgLen
    · exact .inr (.inl ⟨rfl, hc, by simp [hc, raise]⟩)
    by_cases h0 : s.curMsgLen = 0
    · exact .inr (.inr (.inl ⟨rfl, by omega, h0, by simp only [if_true, hc, if_false]; rw [if_pos h0]; rfl⟩))
    refine .inr (.inr (.inr ?_))
    simp only [if_true, hc, if_false, h0, true_and]
    cases hx : readMsg s with
    | error f => exact .inl ⟨by omega, h0, f, .inl rfl, rfl⟩
    | ok x =>
      cases hp : readPwd s.curMsgLen s with
      | error f => exact .inl ⟨by omega, h0, f, .inr (.inl rfl), by simp⟩
      | ok p =>
        cases hw : embedWalk s.pix 0 (bytesToBits (frame x p)) with
        | none => exact .inl ⟨by omega, h0, _, .inr (.inr ⟨rfl, x, p, rfl, rfl, hw⟩), by simp [hw]⟩
        | some pix => exact .inr ⟨by omega, h0, x, p, pix, rfl, rfl, hw, by simp [hw]⟩

theorem execExtract_cases (s : State) :
    (lengthsOk .extract s = false ∧ execExtract s = .next (complete .badLength s)) ∨
    (lengthsOk .extract s = true ∧ extractScan s.pix (capacityOf s.curPixLen) [] = .unwritten ∧
      execExtract s = .fault (.commandReadUnwritten .pix)) ∨
    (lengthsOk .extract s = true ∧ extractScan s.pix (capacityOf s.curPixLen) [] = .exhausted ∧
      execExtract s = .next (complete .markerNotFound { s with
        out := s.out.forget (fun a => decide (a < capacityOf s.curPixLen / 8))
        outLen := 0
        bitsDone := wordOf (capacityOf s.curPixLen) })) ∨
    (lengthsOk .extract s = true ∧ ∃ y n f, extractScan s.pix (capacityOf s.curPixLen) [] = .found y n ∧
      readPwd y.length s = .error f ∧ execExtract s = .fault f) ∨
    (lengthsOk .extract s = true ∧ ∃ y n p, extractScan s.pix (capacityOf s.curPixLen) [] = .found y n ∧
      readPwd y.length s = .ok p ∧
      execExtract s = .next (complete .ok { s with
        out := s.out.writeFrom 0 (apply y p)
        outLen := wordOf y.length
        bitsDone := wordOf n
        found := true })) := by
  unfold execExtract
  cases hl : lengthsOk .extract s with
  | false => exact .inl ⟨rfl, rfl⟩
  | true =>
    cases hs : extractScan s.pix (capacityOf s.curPixLen) [] with
    | unwritten => exact .inr (.inl ⟨rfl, rfl, rfl⟩)
    | exhausted => exact .inr (.inr (.inl ⟨rfl, rfl, rfl⟩))
    | found y n =>
      cases hp : readPwd y.length s with
      | error f => exact .inr (.inr (.inr (.inl ⟨rfl, y, n, f, rfl, hp, by simp [hp]⟩)))
      | ok p => exact .inr (.inr (.inr (.inr ⟨rfl, y, n, p, rfl, hp, by simp [hp]⟩)))

/-- A command never refuses. -/
theorem exec_not_refused (i : Instr) (s : State) (r : Refusal) : exec i s ≠ .refused r := by
  intro h
  cases i <;> simp only [exec] at h
  · rcases execSer_cases s with ⟨_, e⟩ | ⟨_, _, _, e⟩ | ⟨_, _, _, e⟩ <;> simp [e] at h
  · rcases execDes_cases s with ⟨_, e⟩ | ⟨_, _, e⟩ | ⟨_, _, _, _, e⟩ | ⟨_, _, _, _, e⟩ <;> simp [e] at h
  · rcases execXor_cases s with ⟨_, e⟩ | ⟨_, _, _, e⟩ | ⟨_, _, _, _, _, e⟩ <;> simp [e] at h
  · rcases execFrame_cases s with ⟨_, e⟩ | ⟨_, _, _, e⟩ | ⟨_, _, _, _, _, e⟩ <;> simp [e] at h
  · rcases execFind_cases s with ⟨_, e⟩ | ⟨_, _, _, e⟩ | ⟨_, _, _, _, e⟩ | ⟨_, _, _, _, _, e⟩ <;> simp [e] at h
  · rcases execEmbed_cases s with ⟨_, e⟩ | ⟨_, _, e⟩ | ⟨_, _, _, e⟩ | ⟨_, _, _, _, _, e⟩ | ⟨_, _, _, _, _, _, _, _, _, e⟩ <;>
      simp [e] at h
  · rcases execExtract_cases s with ⟨_, e⟩ | ⟨_, _, e⟩ | ⟨_, _, e⟩ | ⟨_, _, _, _, _, _, e⟩ | ⟨_, _, _, _, _, _, e⟩ <;>
      simp [e] at h

/-- What every completion of a command has in common (40 R93, R99). -/
theorem exec_complete {i : Instr} {s t : State} (h : exec i s = .next t) :
    t.busy = false ∧ t.done = true ∧ t.pipe = .idle ∧ t.ovr = s.ovr ∧ t.agenda = s.agenda ∧ t.cur = s.cur ∧ t.cfg = s.cfg ∧ t.msg = s.msg ∧ t.pwd = s.pwd := by
  cases i <;> simp only [exec] at h
  · rcases execSer_cases s with ⟨_, e⟩ | ⟨_, _, _, e⟩ | ⟨_, _, _, e⟩ <;> rw [e] at h <;> cases h <;> simp
  · rcases execDes_cases s with ⟨_, e⟩ | ⟨_, _, e⟩ | ⟨_, _, _, _, e⟩ | ⟨_, _, _, _, e⟩ <;> rw [e] at h <;> cases h <;> simp
  · rcases execXor_cases s with ⟨_, e⟩ | ⟨_, _, _, e⟩ | ⟨_, _, _, _, _, e⟩ <;> rw [e] at h <;> cases h <;> simp
  · rcases execFrame_cases s with ⟨_, e⟩ | ⟨_, _, _, e⟩ | ⟨_, _, _, _, _, e⟩ <;> rw [e] at h <;> cases h <;> simp
  · rcases execFind_cases s with ⟨_, e⟩ | ⟨_, _, _, e⟩ | ⟨_, _, _, _, e⟩ | ⟨_, _, _, _, _, e⟩ <;> rw [e] at h <;> cases h <;> simp
  · rcases execEmbed_cases s with ⟨_, e⟩ | ⟨_, _, e⟩ | ⟨_, _, _, e⟩ | ⟨_, _, _, _, _, e⟩ | ⟨_, _, _, _, _, _, _, _, _, e⟩ <;>
      rw [e] at h <;> cases h <;> simp
  · rcases execExtract_cases s with ⟨_, e⟩ | ⟨_, _, e⟩ | ⟨_, _, e⟩ | ⟨_, _, _, _, _, _, e⟩ | ⟨_, _, _, _, _, _, e⟩ <;>
      rw [e] at h <;> cases h <;> simp

/-- What a completion may write of FOUND and the buffers, by command (30_encoding R86). -/
theorem exec_stores {i : Instr} {s t : State} (h : exec i s = .next t) :
    (t.found = s.found ∨ t.found = true ∧ (i = .find ∨ i = .extract)) ∧ (i = .ser ∨ t.bit = s.bit) ∧
    (i = .embed ∨ t.pix = s.pix) ∧ (i ∈ [Instr.des, .xor, .frame, .find, .extract] ∨ t.out = s.out) := by
  cases i <;> simp only [exec] at h
  · rcases execSer_cases s with ⟨_, e⟩ | ⟨_, _, _, e⟩ | ⟨_, _, _, e⟩ <;> rw [e] at h <;> cases h <;> simp
  · rcases execDes_cases s with ⟨_, e⟩ | ⟨_, _, e⟩ | ⟨_, _, _, _, e⟩ | ⟨_, _, _, _, e⟩ <;> rw [e] at h <;> cases h <;> simp
  · rcases execXor_cases s with ⟨_, e⟩ | ⟨_, _, _, e⟩ | ⟨_, _, _, _, _, e⟩ <;> rw [e] at h <;> cases h <;> simp
  · rcases execFrame_cases s with ⟨_, e⟩ | ⟨_, _, _, e⟩ | ⟨_, _, _, _, _, e⟩ <;> rw [e] at h <;> cases h <;> simp
  · rcases execFind_cases s with ⟨_, e⟩ | ⟨_, _, _, e⟩ | ⟨_, _, _, _, e⟩ | ⟨_, _, _, _, _, e⟩ <;> rw [e] at h <;> cases h <;> simp
  · rcases execEmbed_cases s with ⟨_, e⟩ | ⟨_, _, e⟩ | ⟨_, _, _, e⟩ | ⟨_, _, _, _, _, e⟩ | ⟨_, _, _, _, _, _, _, _, _, e⟩ <;>
      rw [e] at h <;> cases h <;> simp
  · rcases execExtract_cases s with ⟨_, e⟩ | ⟨_, _, e⟩ | ⟨_, _, e⟩ | ⟨_, _, _, _, _, _, e⟩ | ⟨_, _, _, _, _, _, e⟩ <;>
      rw [e] at h <;> cases h <;> simp

end Sys2Proof.Machine
end

