-- ==== Sys2Proof/Laws/PerInstr.lean ====
section
/-! SUPPORT. Statements about every instruction as syntax, one lemma per constructor. -/

namespace Sys2Proof.Laws

/-- The command's word is well formed (30_encoding R80): RSV is 0, OP is the command's own, and the word is one of 0x00000001
to 0x00000007. -/
def Encoding.Statement (i : Instr) : Prop :=
  i.wf = true ∧ wordWf (encode i) = true ∧ rsvField (encode i) = 0 ∧ opField (encode i) = encodeOp i ∧
    1 ≤ (encode i).toNat ∧ (encode i).toNat ≤ 7

theorem Encoding.ser : Encoding.Statement .ser := by unfold Encoding.Statement; decide
theorem Encoding.des : Encoding.Statement .des := by unfold Encoding.Statement; decide
theorem Encoding.xor : Encoding.Statement .xor := by unfold Encoding.Statement; decide
theorem Encoding.frame : Encoding.Statement .frame := by unfold Encoding.Statement; decide
theorem Encoding.find : Encoding.Statement .find := by unfold Encoding.Statement; decide
theorem Encoding.embed : Encoding.Statement .embed := by unfold Encoding.Statement; decide
theorem Encoding.extract : Encoding.Statement .extract := by unfold Encoding.Statement; decide

end Sys2Proof.Laws
end

