-- ==== Sys2Proof/Laws/Step.lean ====
section
/-! SUPPORT. What one step can do, said once: the next event of the agenda, or the engine's turn. -/

namespace Sys2Proof.Machine

theorem step_nil {s : State} (h : s.agenda = []) : step s = engineTurn s := by
  unfold step; rw [h]

theorem step_cons {s : State} {e : Event} {rest : List Event} (h : s.agenda = e :: rest) :
    step s = takeEvent e { s with agenda := rest } := by
  unfold step; rw [h]

/-- The engine's turn: nothing while idle; else the decoded command, or an Illegal word's completion. -/
theorem engineTurn_cases (s : State) :
    (s.busy = false ∧ engineTurn s = .next s) ∨
    (s.busy = true ∧ ∃ i, decode s.cur.word = .ok i ∧ engineTurn s = exec i s) ∨
    (s.busy = true ∧ ∃ r, decode s.cur.word = .error r ∧ engineTurn s = .next (complete .illegalCommand s)) := by
  unfold engineTurn engineStep
  cases hb : s.busy with
  | false => exact .inl ⟨rfl, rfl⟩
  | true =>
    cases hd : decode s.cur.word with
    | error r => exact .inr (.inr ⟨rfl, r, rfl, rfl⟩)
    | ok i => exact .inr (.inl ⟨rfl, i, rfl, rfl⟩)

/-- A `work` event changes nothing but the hidden cursor. -/
theorem workStep_next {s t : State} (h : workStep s = .next t) : t = { s with pipe := t.pipe } := by
  unfold workStep at h
  split at h
  · cases h; rfl
  · unfold workEmbed at h
    split at h
    · split at h
      · cases h
      · split at h
        · cases h
        · cases h; rfl
    · cases h; rfl
  · unfold workExtract at h
    split at h
    · split at h
      · cases h
      · cases h; rfl
    · cases h; rfl

/-- The cases of a step that answers a next state. -/
theorem step_cases {s t : State} (h : step s = .next t) :
    (s.agenda = [] ∧ engineTurn s = .next t) ∨
    (∃ a rest, s.agenda = .host a :: rest ∧ hostStep a { s with agenda := rest } = .next t) ∨
    (∃ rest, s.agenda = .engine :: rest ∧ engineTurn { s with agenda := rest } = .next t) ∨
    (∃ rest, s.agenda = .work :: rest ∧ workStep { s with agenda := rest } = .next t) ∨
    (∃ rest, s.agenda = .reset :: rest ∧ t = warmReset { s with agenda := rest }) ∨
    (∃ rest, s.agenda = .powerOn :: rest ∧ t = powerOnReset { s with agenda := rest }) := by
  cases hg : s.agenda with
  | nil => rw [step_nil hg] at h; exact .inl ⟨rfl, h⟩
  | cons e rest =>
    rw [step_cons hg] at h
    cases e with
    | host a => exact .inr (.inl ⟨a, rest, rfl, h⟩)
    | engine => exact .inr (.inr (.inl ⟨rest, rfl, h⟩))
    | work => exact .inr (.inr (.inr (.inl ⟨rest, rfl, h⟩)))
    | reset =>
      simp only [takeEvent, Host.Outcome.next.injEq] at h
      exact .inr (.inr (.inr (.inr (.inl ⟨rest, rfl, h.symm⟩))))
    | powerOn =>
      simp only [takeEvent, Host.Outcome.next.injEq] at h
      exact .inr (.inr (.inr (.inr (.inr ⟨rest, rfl, h.symm⟩))))

/-- Aborting a command loses bytes of BIT, OUT or PIX, and changes nothing else. -/
theorem abortCommand_eq (s : State) :
    abortCommand s = { s with out := (abortCommand s).out, bit := (abortCommand s).bit, pix := (abortCommand s).pix } := by
  unfold abortCommand
  split
  · split
    · next i _ =>
      split
      · cases i <;> rfl
      · rfl
    · rfl
  · rfl

/-- Whatever an abort loses, it forgets by a test of the offset. -/
theorem abortCommand_forgets (s : State) :
    (∃ p, (abortCommand s).out = s.out.forget p) ∧ (∃ p, (abortCommand s).bit = s.bit.forget p) ∧
      ∃ p, (abortCommand s).pix = s.pix.forget p := by
  have keep : ∀ {α : Type} (m : Store α), ∃ p, m = m.forget p := fun m =>
    ⟨fun _ => false, by simp [Store.forget]⟩
  unfold abortCommand
  split
  · split
    · next i _ =>
      split
      · cases i <;> simp only [loseBytes] <;>
          exact ⟨by first | exact keep _ | exact ⟨_, rfl⟩, by first | exact keep _ | exact ⟨_, rfl⟩,
            by first | exact keep _ | exact ⟨_, rfl⟩⟩
      · exact ⟨keep _, keep _, keep _⟩
    · exact ⟨keep _, keep _, keep _⟩
  · exact ⟨keep _, keep _, keep _⟩

/-! ### Decoding -/

theorem toNat_opField (c : Word) : (opField c).toNat = c.toNat % 16 := by
  simp [opField, BitVec.extractLsb'_toNat]

theorem rsvField_eq_zero (c : Word) : rsvField c = 0 ↔ c.toNat / 16 = 0 := by
  rw [← BitVec.toNat_inj]
  simp only [rsvField, BitVec.extractLsb'_toNat, Nat.shiftRight_eq_div_pow]
  have := c.isLt
  simp
  omega

theorem decodeOp_ok (op : BitVec 4) (i : Instr) : decodeOp op = .ok i ↔ op = encodeOp i := by
  revert op; cases i <;> decide

theorem decodeOp_error (op : BitVec 4) (r : DecodeReject) :
    decodeOp op = .error r ↔ r = .reservedOpcode ∧ (op.toNat = 0 ∨ 8 ≤ op.toNat) := by
  revert op; cases r <;> decide

theorem toNat_encode (i : Instr) : (encode i).toNat = (encodeOp i).toNat := by
  cases i <;> decide

/-- A word that decodes to a command is that command's word. -/
theorem decode_ok {c : Word} {i : Instr} (h : decode c = .ok i) : c = encode i := by
  rw [← BitVec.toNat_inj, toNat_encode]
  unfold decode at h
  split at h
  · next hr =>
    rw [rsvField_eq_zero] at hr
    have ho := congrArg BitVec.toNat ((decodeOp_ok _ _).mp h)
    rw [toNat_opField] at ho
    omega
  · cases h

/-! ### The engine's turn, and runs -/

/-- What the engine's turn can do. -/
theorem engineTurn_next {s t : State} (h : engineTurn s = .next t) :
    (s.busy = false ∧ t = s) ∨ (s.busy = true ∧ ∃ i, decode s.cur.word = .ok i ∧ exec i s = .next t) ∨ (s.busy = true ∧ t = complete .illegalCommand s) := by
  rcases engineTurn_cases s with ⟨hb, e⟩ | ⟨hb, i, hd, e⟩ | ⟨hb, r, _, e⟩ <;> rw [e] at h
  · cases h; exact .inl ⟨hb, rfl⟩
  · exact .inr (.inl ⟨hb, i, hd, h⟩)
  · cases h; exact .inr (.inr ⟨hb, rfl⟩)

theorem engineTurn_busy {s t : State} (h : engineTurn s = .next t) : t.busy = false ∧ (s.busy = false → t = s) := by
  rcases engineTurn_next h with ⟨hb, rfl⟩ | ⟨hb, i, _, e⟩ | ⟨hb, rfl⟩
  · exact ⟨hb, fun _ => rfl⟩
  · exact ⟨(exec_complete e).1, fun h => by rw [hb] at h; cases h⟩
  · exact ⟨rfl, fun h => by rw [hb] at h; cases h⟩

theorem hostStep_agenda {a : Access} {s t : State} (h : hostStep a s = .next t) : t.agenda = s.agenda := by
  rcases hostStep_cases h with ⟨r, rfl, _⟩ | ⟨b, w, off, r, u, rfl, hp, hr, hu, rfl⟩ | ⟨_, _, w, o, _, _, _, hz, hw, rfl⟩ |
      ⟨_, _, w, _, _, _, _, hz, hw, rfl⟩
  · rfl
  · rcases writeReg_cases hu with ⟨_, rfl⟩ | ⟨hrr, rfl⟩ | ⟨_, rfl⟩ | ⟨_, rfl⟩ | ⟨_, rfl⟩ | ⟨_, rfl⟩ | ⟨_, rfl⟩ <;> try rfl
    unfold offer; simp only; split <;> rfl
  · rw [setByte_eq]
  · rw [setWord_eq]

theorem engineTurn_agenda {s t : State} (h : engineTurn s = .next t) : t.agenda = s.agenda := by
  rcases engineTurn_next h with ⟨hb, rfl⟩ | ⟨hb, i, _, e⟩ | ⟨hb, rfl⟩
  · rfl
  · exact (exec_complete e).2.2.2.2.1
  · rfl

/-- A step takes the first event off the agenda. -/
theorem step_agenda {s t : State} (h : step s = .next t) : t.agenda = s.agenda.tail := by
  rcases step_cases h with ⟨hg, e⟩ | ⟨a, rest, hg, e⟩ | ⟨rest, hg, e⟩ | ⟨rest, hg, e⟩ | ⟨rest, hg, rfl⟩ | ⟨rest, hg, rfl⟩ <;> rw [hg]
  · rw [engineTurn_agenda e, hg]; rfl
  · rw [hostStep_agenda e]; rfl
  · rw [engineTurn_agenda e]; rfl
  · rw [workStep_next e]; rfl
  · show (abortCommand { s with agenda := rest }).agenda = rest
    rw [abortCommand_eq]
  · rfl

theorem engineTurn_not_refused (s : State) (r : Refusal) : engineTurn s ≠ .refused r := by
  intro h
  rcases engineTurn_cases s with ⟨hb, e⟩ | ⟨hb, i, hd, e⟩ | ⟨hb, _, _, e⟩ <;> rw [e] at h
  · cases h
  · exact exec_not_refused _ _ _ h
  · cases h

theorem workStep_not_refused (s : State) (r : Refusal) : workStep s ≠ .refused r := by
  intro h
  unfold workStep at h
  split at h
  · cases h
  · unfold workEmbed at h; repeat' split at h
    all_goals cases h
  · unfold workExtract at h; repeat' split at h
    all_goals cases h

/-- A step never refuses. -/
theorem step_not_refused (s : State) (r : Refusal) : step s ≠ .refused r := by
  intro h
  cases hg : s.agenda with
  | nil => rw [step_nil hg] at h; exact engineTurn_not_refused _ _ h
  | cons e rest =>
    rw [step_cons hg] at h
    cases e with
    | host a => exact hostStep_not_refused _ _ _ h
    | engine => exact engineTurn_not_refused _ _ h
    | work => exact workStep_not_refused _ _ h
    | reset => cases h
    | powerOn => cases h

theorem run_next {s t : State} (h : step s = .next t) (k : Nat) : Sys2Proof.core.run (k + 1) s = Sys2Proof.core.run k t := by
  have hc : Sys2Proof.core.step s = .next t := h
  simp only [Host.Core.run, hc]

theorem run_fault {s : State} {f : Fault} (h : step s = .fault f) (k : Nat) : Sys2Proof.core.run (k + 1) s = .fault f := by
  have hc : Sys2Proof.core.step s = .fault f := h
  simp only [Host.Core.run, hc]

/-- The cursor stays that of one walk (44_embed R139). -/
theorem advance_walk (p : EmbedPipe) (h1 : p.px = p.k / 3) (h2 : p.ch = p.k % 3) :
    p.advance.k = p.k + 1 ∧ p.advance.px = (p.k + 1) / 3 ∧ p.advance.ch = (p.k + 1) % 3 := by
  unfold EmbedPipe.advance
  refine ⟨rfl, ?_, ?_⟩ <;> simp only <;> split <;> omega

/-- The cursor invariant depends on the cursor, BUSY and CUR alone. -/
theorem pipeWf_congr {s t : State} (h : s.pipeWf = true) (hp : t.pipe = s.pipe) (hb : t.busy = s.busy) (hc : t.cur = s.cur) : t.pipeWf = true := by
  unfold State.pipeWf at *
  rw [hp]
  have h1 : t.curMsgLen = s.curMsgLen := by simp only [State.curMsgLen, hc]
  have h2 : t.curPixLen = s.curPixLen := by simp only [State.curPixLen, hc]
  rw [hb, hc, h1, h2]
  exact h

end Sys2Proof.Machine
end

