-- ==== Sys2Proof/Tests/Slice0.lean ====
section
/-! SUPPORT. The model's own tests: the checks of R12 and R80 refuse an ill-formed term each; every command's word written out
from 30_encoding R78; single steps whose results are the spec's test vectors (95_test_vectors.md, named in each comment); and, for
every statement that has hypotheses, a witness that meets them together. -/

namespace Sys2Proof.Tests

open Sys2Proof Sys2Proof.Machine

/-! ### Small states -/

/-- `s` with MSG = `x` from offset 0 and MSG_LEN its length. -/
def withMsg (x : List Byte) (s : State) : State := { s with msg := Store.writeFrom [] 0 x, msgLen := wordOf x.length }

/-- `s` with PWD = `p` from offset 0 and PWD_LEN its length. -/
def withPwd (p : List Byte) (s : State) : State := { s with pwd := Store.writeFrom [] 0 p, pwdLen := wordOf p.length }

/-- `s` with BIT cells `b` from 0 and BIT_LEN their number. -/
def withBits (b : List Bool) (s : State) : State := { s with bit := Store.writeFrom [] 0 b, bitLen := wordOf b.length }

/-- `s` with PIX = the words `ws`, little-endian, and PIX_LEN their bytes. -/
def withPixels (ws : List Word) (s : State) : State :=
  { s with
    pix := Store.writeFrom [] 0 (ws.flatMap (fun w => [wordByte w 0, wordByte w 1, wordByte w 2, wordByte w 3]))
    pixLen := wordOf (4 * ws.length) }

/-- The command just accepted, nothing else to come. -/
def running (i : Instr) (s : State) : State := accept (encode i) s

/-- `s` with `e` to come. -/
def facing (e : Event) (s : State) : State := { s with agenda := [e] }

/-- What `p` says of the next state; false when the machine stops. -/
def nextSays (p : State → Bool) : Host.Outcome State Fault Refusal → Bool
  | .next t => p t
  | .fault _ => false
  | .refused _ => false

/-- What the model stops with, if it does. -/
def stopsWith (f : Fault) : Host.Outcome State Fault Refusal → Bool
  | .next _ => false
  | .fault g => decide (f = g)
  | .refused _ => false

/-- A host address in CFG-T, SCC_BASE = 0. -/
def addr (w : Window) (o : Nat) : Word := bufferAddr Config.cfgT w o

def hi : State := withMsg [0x48, 0x49] State.reset

/-! ### Well-formedness (00_scope R12, 20_memory R50, 30_encoding R80) -/

def cfgTParams : Params := Config.cfgT.toParams

theorem test_cfgT_is_legal : (Config.build? cfgTParams).isSome = true := by decide
theorem test_wf_refuses_no_message_bytes : { cfgTParams with msgCap := 0 }.msgCapOk = false := by decide
theorem test_wf_refuses_no_password_bytes : { cfgTParams with pwdCap := 0 }.pwdCapOk = false := by decide
theorem test_wf_refuses_partial_pixel : { cfgTParams with pixCap := 4094 }.pixCapOk = false := by decide
theorem test_wf_refuses_short_bit_buffer : { cfgTParams with bitCap := 2047 }.bitCapOk = false := by decide
theorem test_wf_refuses_short_out_buffer : { cfgTParams with outCap := 383 }.outCapOk = false := by decide
theorem test_wf_refuses_misplaced_base : { cfgTParams with sccBase := 0x1000 }.sccBaseOk = false := by decide
theorem test_wf_builds_nothing_illegal : Config.build? { cfgTParams with sccBase := 0x1000 } = none := by decide
theorem test_wf_refuses_opcode_zero : wordOpOk 0x00000000 = false := by decide
theorem test_wf_refuses_opcode_eight : wordOpOk 0x00000008 = false := by decide
theorem test_wf_refuses_reserved_bits : wordRsvOk 0x00000016 = false := by decide

/-! ### Decoding: words written out from the table of 30_encoding R78 -/

theorem test_decode_ser : decode 0b00000000000000000000000000000001 = .ok .ser := rfl
theorem test_decode_des : decode 0b00000000000000000000000000000010 = .ok .des := rfl
theorem test_decode_xor : decode 0b00000000000000000000000000000011 = .ok .xor := rfl
theorem test_decode_frame : decode 0b00000000000000000000000000000100 = .ok .frame := rfl
theorem test_decode_find : decode 0b00000000000000000000000000000101 = .ok .find := rfl
theorem test_decode_embed : decode 0b00000000000000000000000000000110 = .ok .embed := rfl
theorem test_decode_extract : decode 0b00000000000000000000000000000111 = .ok .extract := rfl
/-- V-LC-01 to V-LC-04 -/
theorem test_decode_reserved : decode 0 = .error .reservedOpcode ∧ decode 0x8 = .error .reservedOpcode ∧
    decode 0x16 = .error .reservedBitsSet ∧ decode 0x80000007 = .error .reservedBitsSet := ⟨rfl, rfl, rfl, rfl⟩
theorem test_decodeTableWord : decodeTableWord 32 6 = some .embed ∧ decodeTableWord 32 0x16 = none ∧
    decodeTableWord 64 6 = none := by decide
/-- V-RS-02: the very next step runs the word -/
theorem test_withFetchWord_runs_frame :
    nextSays (fun t => decide (t.outLen = 9) && decide (t.err = .ok)) (step (State.reset.withFetchWord 32 4)) = true := by decide

/-! ### One step each, from the spec's vectors -/

/-- V-BC-01 -/
theorem test_ser_B0 : nextSays (fun t => decide (t.bitLen = 8) &&
    decide (t.bit.map (·.2) = [true, false, true, true, false, false, false, false]))
    (exec .ser (running .ser (withMsg [0xB0] State.reset))) = true := by decide
/-- V-BC-09: MSG_LEN = 257 -/
theorem test_ser_bad_length : nextSays (fun t => decide (t.status = 0x502) && decide (t.bitLen = 5))
    (exec .ser (running .ser { State.reset with msgLen := 257, bitLen := 5 })) = true := by decide
/-- V-BC-02 -/
theorem test_des_B0 : nextSays (fun t => decide (t.outLen = 1) && decide (t.out = [(0, 0xB0)]))
    (exec .des (running .des (withBits [true, false, true, true, false, false, false, false] State.reset))) = true := by decide
/-- 41_bit_codec R108: BIT_LEN = 7, no cell written -/
theorem test_des_partial_byte : nextSays (fun t => decide (t.status = 0x302))
    (exec .des (running .des { State.reset with bitLen := 7 })) = true := by decide
/-- V-XO-02: only PWD[0..2) is read -/
theorem test_xor_ab_wxyz : nextSays (fun t => decide (t.out = [(0, 0x16), (1, 0x1A)]))
    (exec .xor (running .xor { withMsg [0x61, 0x62] State.reset with pwd := [(0, 0x77), (1, 0x78)], pwdLen := 4 })) = true := by
  decide
/-- V-XO-06 -/
theorem test_xor_hello_key : nextSays (fun t => decide (t.out.map (·.2) = [0x03, 0x00, 0x15, 0x07, 0x0A]))
    (exec .xor (running .xor (withPwd [0x6B, 0x65, 0x79] (withMsg [0x68, 0x65, 0x6C, 0x6C, 0x6F] State.reset)))) = true := by
  decide
/-- V-FR-03 -/
theorem test_frame_hi_key : nextSays (fun t => decide (t.outLen = 11) &&
    decide (t.out.map (·.2) = [0x23, 0x2C, 0x23, 0x23, 0x23, 0x45, 0x4E, 0x44, 0x23, 0x23, 0x23]))
    (exec .frame (running .frame (withPwd [0x6B, 0x65, 0x79] hi))) = true := by decide
/-- 10_state R48: PWD unwritten -/
theorem test_frame_unwritten_password : stopsWith (.commandReadUnwritten .pwd)
    (exec .frame (running .frame { hi with pwdLen := 1 })) = true := by decide
/-- V-FR-09 -/
theorem test_find_after_overlap : nextSays (fun t => decide (t.status = 0x6) && decide (t.outLen = 1) && decide (t.out = [(0, 0x23)]))
    (exec .find (running .find (withMsg [0x23, 0x23, 0x23, 0x23, 0x45, 0x4E, 0x44, 0x23, 0x23, 0x23] State.reset))) = true := by
  decide
/-- V-FR-05 -/
theorem test_find_nothing : nextSays (fun t => decide (t.status = 0x2) && decide (t.outLen = 0) && decide (t.out = []))
    (exec .find (running .find (withMsg [0x23, 0x23, 0x23, 0x45, 0x4E, 0x44, 0x23, 0x23] State.reset))) = true := by decide

/-- V-EM-01's pixels after EMBED. -/
def em01 : List Word :=
  [0xFF808180, 0xFF808180, 0xFF808080, 0xFF808081, 0xFF808081, 0xFF808081, 0xFF808081, 0xFF818180, 0xFF818080, 0xFF808080] ++
  [0xFF808181, 0xFF808180, 0xFF818080, 0xFF818081, 0xFF808080, 0xFF818081, 0xFF808180, 0xFF818180, 0xFF808081, 0xFF808081] ++
  [0xFF808180, 0xFF808080, 0xFF808081, 0xFF818180, 0xFF818080, 0xFF808080, 0xFF808181, 0xFF808180, 0xFF818080, 0xFF808081]

/-- V-EM-01 -/
theorem test_embed_hi : nextSays (fun t => decide (t.status = 0x2) && decide (t.reqBits = 88) && decide (t.bitsDone = 88) &&
    (List.range 30).all (fun k => t.wordAt .pix (4 * k) == em01[k]?))
    (exec .embed (running .embed (withPixels (List.replicate 30 0xFF808080) hi))) = true := by decide +kernel
/-- V-EM-04: an empty message that does not fit -/
theorem test_embed_capacity_first : nextSays (fun t => decide (t.status = 0x202) && decide (t.reqBits = 72))
    (exec .embed (running .embed { State.reset with pixLen := 92 })) = true := by decide
/-- V-EX-01 with V-EX-21: slots 88 and 89 unwritten -/
theorem test_extract_hi : nextSays (fun t => decide (t.status = 0x6) && decide (t.out = [(0, 0x48), (1, 0x49)]) &&
    decide (t.bitsDone = 88)) (exec .extract (running .extract
      { withPixels (em01.take 29) State.reset with
        pix := (withPixels (em01.take 29) State.reset).pix ++ [(116, 0x81)], pixLen := 120 })) = true := by decide +kernel
/-- V-EX-05 -/
theorem test_extract_no_pixels : nextSays (fun t => decide (t.status = 0x402) && decide (t.bitsDone = 0))
    (exec .extract (running .extract State.reset)) = true := by decide

/-! ### Host scripts (30_encoding R82, R85; 93 S4) -/

/-- `wait` polls again while BUSY = 1, goes on when BUSY = 0, and has no next line when its READ has no rdata. -/
theorem test_wait_branches : (let script := scriptWait Config.cfgT "W"
    nextLine script 1 (some (.data32 0x1)) = some 0 ∧ nextLine script 1 (some (.data32 0x2)) = some 2 ∧
      nextLine script 1 (some .error) = none) := by decide

/-- A branch to a label that two lines define, or none does. -/
theorem test_label_names_one_line : lineOf "W" (scriptWait Config.cfgT "W" ++ scriptWait Config.cfgT "W") = none ∧
    lineOf "V" (scriptWait Config.cfgT "W") = none := by decide

/-! ### Witnesses: for each statement with hypotheses, a state and operands that meet them together -/

/-- Addresses in CFG-T, SCC_BASE = 0. -/
theorem regAddr_cfgT (off : Nat) (h : off < 0x100000000) : RegAddressOf Config.cfgT off (BitVec.ofNat 32 off) := by
  simp only [RegAddressOf, BitVec.toNat_ofNat]
  rw [Nat.mod_eq_of_lt h]
  exact (Nat.zero_add off).symm

theorem addressOf_cfgT (w : Window) (o : Nat) (h : o < w.size) : AddressOf Config.cfgT w o (addr w o) := by
  have hb : Window.base w + o < 0x100000000 := by
    cases w <;> simp only [Window.base, Window.size] at * <;> omega
  have e : addr w o = BitVec.ofNat 32 (w.base + o) := BitVec.zero_add _
  rw [AddressOf, e, BitVec.toNat_ofNat, Nat.mod_eq_of_lt hb, Nat.add_assoc]
  exact (Nat.zero_add _).symm

theorem wit_DecodeOfEncodeIsTheCommand : Instr.wf .ser = true := rfl

/-- The words on either side of the legal ones. -/
theorem wit_ExactlySevenWordsDecode : ∀ c ∈ [(0 : Word), 8], ∃ s : State, s.busy = true ∧ s.cur.word = c ∧
    ¬ (1 ≤ s.cur.word.toNat ∧ s.cur.word.toNat ≤ 7) := by
  intro c hc
  refine ⟨accept c State.reset, rfl, rfl, ?_⟩
  show ¬ (1 ≤ c.toNat ∧ c.toNat ≤ 7)
  revert c
  simp only [List.forall_mem_cons]
  exact ⟨by decide, by decide, fun _ h => nomatch h⟩

theorem wit_StepRunsTheDecodedCommand : ∃ s : State, s.busy = true ∧ decode s.cur.word = .ok .embed ∧ s.agenda = [.engine] :=
  ⟨facing .engine (running .embed State.reset), rfl, rfl, rfl⟩

theorem wit_StepRunsTheDecodedCommand_last : ∃ s : State, s.busy = true ∧ decode s.cur.word = .ok .ser ∧ s.agenda = [] :=
  ⟨running .ser State.reset, rfl, rfl, rfl⟩

/-- Each kind of event with something after it, with an Illegal word running; no event left; no command running. -/
theorem wit_StepTakesTheNextEvent :
    (∀ e ∈ [Event.host (.read32 0), .engine, .work, .reset, .powerOn], ∃ (s : State) (r : DecodeReject),
      s.agenda = e :: [.engine] ∧ s.busy = true ∧ decode s.cur.word = .error r) ∧
    (∃ s : State, s.agenda = [] ∧ s.busy = true) ∧ ∃ s : State, s.busy = false :=
  ⟨fun e _ => ⟨{ accept 8 hi with agenda := e :: [.engine] }, .reservedOpcode, rfl, rfl, test_decode_reserved.2.1⟩, ⟨running .ser hi, rfl, rfl⟩, hi, rfl⟩

/-- Each reason, at the words next to the legal ones. -/
theorem wit_IllegalWordCompletesWithIllegalCommand : ∀ c ∈ [(0 : Word), 8, 15, 16, 0xFFFFFFFF],
    ∃ (s : State) (r : DecodeReject), s.busy = true ∧ decode s.cur.word = .error r ∧ s.cur.word = c := by
  intro c hc
  refine ⟨accept c State.reset, if c.toNat / 16 = 0 then .reservedOpcode else .reservedBitsSet, rfl, ?_, rfl⟩
  revert c
  simp only [List.forall_mem_cons]
  exact ⟨rfl, rfl, rfl, rfl, rfl, fun _ h => nomatch h⟩

theorem wit_CmdWriteWhileIdleIsAccepted : ∃ (s : State) (a : Word), s.busy = false ∧ RegAddressOf s.cfg 0x008 a :=
  ⟨hi, 8, rfl, rfl⟩

theorem wit_CmdWriteWhileBusyIsDropped : ∃ (s : State) (a : Word), s.busy = true ∧ RegAddressOf s.cfg 0x008 a :=
  ⟨running .ser hi, 8, rfl, rfl⟩

theorem wit_NothingShowsBeforeCompletion : ∃ s t : State, s.busy = true ∧ s.done = false ∧ step s = .next t ∧ t.busy = true ∧
    t.pipe ≠ s.pipe :=
  ⟨facing .work (running .extract (withPixels [0xFF000001] State.reset)), _, rfl, rfl, rfl, rfl, by decide⟩

/-- Each clause's premise: BUSY, DONE, FOUND and OVR rise and fall, ERR changes. -/
theorem wit_StatusBitsChangeOnlyAsTheRulesSay :
    (∃ s t : State, step s = .next t ∧ s.busy = false ∧ t.busy = true ∧ s.done = true ∧ t.done = false ∧ s.found = true ∧
      t.found = false) ∧
    (∃ s t : State, step s = .next t ∧ s.busy = true ∧ t.busy = false ∧ s.done = false ∧ t.done = true ∧ s.found = false ∧
      t.found = true) ∧
    (∃ s t : State, step s = .next t ∧ s.ovr = false ∧ t.ovr = true) ∧
    (∃ s t : State, step s = .next t ∧ s.ovr = true ∧ t.ovr = false ∧ s.done = true ∧ t.done = false) ∧
    ∃ s t : State, step s = .next t ∧ t.err ≠ s.err :=
  ⟨⟨facing (.host (.write32 8 1)) { hi with done := true, found := true }, _, rfl, rfl, rfl, rfl, rfl, rfl, rfl⟩,
    ⟨facing .engine (running .find (withMsg marker State.reset)), _, rfl, rfl, rfl, rfl, rfl, rfl, rfl⟩,
    ⟨facing (.host (.write32 8 1)) (running .ser hi), _, rfl, rfl, rfl⟩,
    ⟨facing (.host (.write32 0xC 0xA)) { hi with done := true, ovr := true }, _, rfl, rfl, rfl, rfl, rfl⟩,
    facing .engine (running .embed State.reset), _, rfl, by decide⟩

/-- Every offset of the REG window has an address: those of STATUS, CTRL, CAPACITY, the operand registers and the rest. -/
theorem wit_regAddresses (off : Nat) (h : off < 0x1000) : ∃ (s : State) (a : Word), RegAddressOf s.cfg off a :=
  ⟨hi, _, regAddr_cfgT off (by omega)⟩

theorem wit_StatusRegister : ∃ (s : State) (a : Word), RegAddressOf s.cfg 0x00C a := wit_regAddresses 0x00C (by decide)

theorem wit_CtrlRegister : ∃ (s : State) (a : Word), RegAddressOf s.cfg 0x004 a := wit_regAddresses 0x004 (by decide)

theorem wit_CapacityReadsLivePixLen : ∃ (s : State) (a : Word), RegAddressOf s.cfg 0x024 a := wit_regAddresses 0x024 (by decide)

theorem wit_RegisterReadsAnswer : ∀ off ∈ [0x000, 0x010, 0x014, 0x018, 0x01C, 0x020, 0x024, 0x028, 0x02C, 0x030, 0x034, 0x038,
    0x03C, 0x040, 0x044], ∃ (s : State) (a : Word), RegAddressOf s.cfg off a := by
  intro off h
  refine wit_regAddresses off ?_
  simp only [List.mem_cons, List.not_mem_nil, or_false] at h; omega

theorem wit_OperandRegistersStoreEveryValue : ∀ off ∈ [0x010, 0x014, 0x018, 0x01C],
    ∃ (s : State) (a : Word), RegAddressOf s.cfg off a := by
  intro off h
  refine wit_regAddresses off ?_
  simp only [List.mem_cons, List.not_mem_nil, or_false] at h; omega

theorem wit_IrqIsDoneAndIe : (∃ (i : Instr) (s t : State), exec i s = .next t ∧ t.irq = true) ∧
    (∃ s t : State, s.busy = true ∧ engineTurn s = .next t ∧ t.err = .illegalCommand ∧ t.irq = true) ∧
    (∃ (s : State) (w : Word), (writeCtrl w s).irq = true) ∧ ∃ w : Word, w.getLsbD 1 = true :=
  ⟨⟨.ser, running .ser { hi with ie := true }, _, rfl, rfl⟩, ⟨accept 8 { hi with ie := true }, _, rfl, rfl, rfl, rfl⟩,
    ⟨{ hi with done := true }, 1, rfl⟩, 0xA, rfl⟩

/-- The four clauses: both 1-byte kinds, an odd offset, the first reserved offset and the last offset of the window. -/
theorem wit_BadRegisterAccessGetsError : ∀ p ∈ [(Access.read8 4, 4), (.write8 4 1, 4), (.read32 6, 6), (.read32 0x48, 0x48),
    (.write32 0xFFC 0, 0xFFC)], ∃ s : State, RegAddressOf s.cfg p.2 p.1.addr ∧ p.2 < 0x1000 := by
  intro p hp
  refine ⟨hi, ?_, ?_⟩ <;> revert p <;> simp only [List.forall_mem_cons]
  · exact ⟨rfl, rfl, rfl, rfl, rfl, fun _ h => nomatch h⟩
  · decide

/-- The four clauses: below the base (with SCC_BASE = 0x40000000), beyond the last window, in the gap at both ends, and the first
offset that is not valid. -/
theorem wit_UnmappedAccessGetsError :
    (∃ (s : State) (a : Word), a.toNat < s.cfg.sccBase.toNat) ∧
    (∃ (s : State) (a : Word), s.cfg.sccBase.toNat + 0x40000000 ≤ a.toNat) ∧
    (∀ a ∈ [(0x2000 : Word), 0x03FFFFFF], ∃ s : State,
      s.cfg.sccBase.toNat + 0x2000 ≤ a.toNat ∧ a.toNat < s.cfg.sccBase.toNat + 0x04000000) ∧
    ∃ (s : State) (a : Word), AddressOf s.cfg .msg 256 a ∧ capOf s.cfg .msg ≤ 256 ∧ 256 < Window.msg.size := by
  refine ⟨⟨{ hi with cfg := { Config.cfgT with sccBase := 0x40000000, legal := by decide } }, 0x3FFFFFFF, by decide⟩,
    ⟨hi, 0x40000000, by decide⟩, fun a ha => ⟨hi, ?_⟩,
    ⟨hi, _, addressOf_cfgT .msg 256 (by decide), by decide, by decide⟩⟩
  revert a
  simp only [List.forall_mem_cons]
  exact ⟨by decide, by decide, fun _ h => nomatch h⟩

/-- A written byte, an unwritten one, and MARKER while a command runs. -/
theorem wit_ByteReadAnswersTheByte :
    (∃ (s : State) (a : Word) (v : Byte), AddressOf s.cfg .msg 1 a ∧ 1 < capOf s.cfg .msg ∧ s.busy = false ∧
      s.byteAt .msg 1 = some v) ∧
    (∃ (s : State) (a : Word), AddressOf s.cfg .msg 255 a ∧ 255 < capOf s.cfg .msg ∧ s.busy = false ∧
      s.byteAt .msg 255 = none) ∧
    ∃ (s : State) (a : Word) (v : Byte), AddressOf s.cfg .marker 8 a ∧ 8 < capOf s.cfg .marker ∧ s.busy = true ∧
      s.byteAt .marker 8 = some v :=
  ⟨⟨hi, _, 0x49, addressOf_cfgT .msg 1 (by decide), by decide, rfl, rfl⟩,
    ⟨hi, _, addressOf_cfgT .msg 255 (by decide), by decide, rfl, rfl⟩,
    ⟨running .ser hi, _, 0x23, addressOf_cfgT .marker 8 (by decide), by decide, rfl, rfl⟩⟩

/-- The last cell of BIT. -/
theorem wit_ByteWriteStoresTheByte : ∃ (s : State) (a : Word), AddressOf s.cfg .bit 2047 a ∧ 2047 < capOf s.cfg .bit ∧
    s.busy = false :=
  ⟨hi, _, addressOf_cfgT .bit 2047 (by decide), by decide, rfl⟩

/-- A word of MARKER read while a command runs, a word of MSG whose third byte is unwritten, and the last word of PIX written. -/
theorem wit_WordAccessIsLittleEndian :
    (∃ (s : State) (a : Word) (b0 b1 b2 b3 : Byte), AddressOf s.cfg .marker 4 a ∧ 4 + 3 < capOf s.cfg .marker ∧
      s.busy = true ∧ s.byteAt .marker 4 = some b0 ∧ s.byteAt .marker 5 = some b1 ∧
      s.byteAt .marker 6 = some b2 ∧ s.byteAt .marker 7 = some b3) ∧
    (∃ (s : State) (a : Word), AddressOf s.cfg .msg 0 a ∧ 0 + 3 < capOf s.cfg .msg ∧ s.busy = false ∧
      s.byteAt .msg (0 + 1) = some 0x49 ∧ s.byteAt .msg (0 + 2) = none) ∧
    ∃ (s : State) (a : Word), AddressOf s.cfg .pix 4092 a ∧ 4092 % 4 = 0 ∧ 4092 + 3 < capOf s.cfg .pix ∧ s.busy = false :=
  ⟨⟨running .ser hi, _, 0x4E, 0x44, 0x23, 0x23, addressOf_cfgT .marker 4 (by decide), by decide, rfl, rfl, rfl, rfl, rfl⟩,
    ⟨hi, _, addressOf_cfgT .msg 0 (by decide), by decide, rfl, rfl, rfl⟩,
    ⟨hi, _, addressOf_cfgT .pix 4092 (by decide), rfl, by decide, rfl⟩⟩

/-- Misaligned, and half outside (MARKER's offset 8). -/
theorem wit_BadWordAccessGetsError :
    (∃ (s : State) (a : Word), AddressOf s.cfg .pix 2 a ∧ 2 < Window.pix.size ∧ s.busy = false) ∧
    ∃ (s : State) (a : Word), AddressOf s.cfg .marker 8 a ∧ 8 < Window.marker.size ∧ capOf s.cfg .marker ≤ 8 + 3 :=
  ⟨⟨hi, _, addressOf_cfgT .pix 2 (by decide), by decide, rfl⟩,
    ⟨hi, _, addressOf_cfgT .marker 8 (by decide), by decide, by decide⟩⟩

/-- MARKER while a command runs, OUT at its last valid offset, every read-only register, CMD. -/
theorem wit_WrongDirectionGetsError :
    (∃ (s : State) (a : Word), AddressOf s.cfg .marker 0 a ∧ 0 < Window.marker.size ∧ s.busy = true) ∧
    (∃ (s : State) (a : Word), AddressOf s.cfg .out 383 a ∧ 383 < capOf s.cfg .out ∧ 383 < Window.out.size ∧
      s.busy = false) ∧
    (∀ off ∈ [0x000, 0x020, 0x024, 0x028, 0x02C, 0x030, 0x034, 0x038, 0x03C, 0x040, 0x044], ∃ (s : State) (a : Word),
      RegAddressOf s.cfg off a) ∧
    ∃ (s : State) (a : Word), RegAddressOf s.cfg 0x008 a := by
  refine ⟨⟨running .ser hi, _, addressOf_cfgT .marker 0 (by decide), by decide, rfl⟩,
    ⟨hi, _, addressOf_cfgT .out 383 (by decide), by decide, by decide, rfl⟩, fun off h => wit_regAddresses off ?_,
    wit_regAddresses 8 (by decide)⟩
  simp only [List.mem_cons, List.not_mem_nil, or_false] at h; omega

theorem wit_BufferAccessWhileBusyFaults : ∃ (s : State) (a : Word), s.busy = true ∧ AddressOf s.cfg .out 383 a ∧
    383 < capOf s.cfg .out :=
  ⟨running .ser hi, _, rfl, addressOf_cfgT .out 383 (by decide), by decide⟩

theorem wit_ErrorAnswerChangesNothing : ∃ (s t : State) (acc : Access), hostStep acc s = .next t ∧ t.answer = some .error :=
  ⟨hi, _, .read32 6, rfl, rfl⟩

theorem wit_ReadsAreFreeAndWritesIdempotent : (∃ (s t : State) (a : Word), hostStep (.read32 a) s = .next t) ∧
    ∃ (s t : State) (a : Word) (v : Byte), ¬ RegAddressOf s.cfg 0x008 a ∧ hostStep (.write8 a v) s = .next t ∧ t.msg ≠ s.msg :=
  ⟨⟨hi, _, 0xC, rfl⟩, ⟨hi, _, addr .msg 0, 0x58, by unfold RegAddressOf; decide, rfl, by decide⟩⟩

/-- A message one byte longer than MSG_CAP, on an empty buffer: the BadLength clause of SER, XOR, FRAME and FIND. -/
def tooLong : State := { State.reset with msgLen := 257 }

/-- An empty message, and two bytes; and the BadLength clause. -/
theorem wit_SerWritesTheBitStream : (∀ s ∈ [running .ser State.reset, running .ser hi],
    s.cur.msgLen.toNat ≤ s.cfg.msgCap ∧ Holds s.msg s.cur.msgLen.toNat (fun i => if i = 0 then 0x48 else 0x49)) ∧
    (running .ser tooLong).cfg.msgCap < (running .ser tooLong).cur.msgLen.toNat := by
  unfold Holds; decide

/-- No cell, and two bytes; BIT_LEN = BIT_CAP + 1, and BIT_LEN = BIT_CAP - 1. -/
theorem wit_DesWritesTheBytes :
    (∀ s ∈ [running .des State.reset, running .des (withBits (List.replicate 16 true) State.reset)],
      s.cur.bitLen.toNat ≤ s.cfg.bitCap ∧ s.cur.bitLen.toNat % 8 = 0 ∧
        ∀ k, k < s.cur.bitLen.toNat → s.bit.read k = some true) ∧
    (∃ s : State, s.cfg.bitCap < s.cur.bitLen.toNat) ∧
    ∃ s : State, s.cur.bitLen.toNat ≤ s.cfg.bitCap ∧ s.cur.bitLen.toNat % 8 ≠ 0 :=
  ⟨by decide, ⟨running .des { State.reset with bitLen := 2049 }, by decide⟩,
    running .des { State.reset with bitLen := 2047 }, by decide, by decide⟩

/-- Eight bits; and SER of two bytes, then DES accepted with the BIT_LEN it left. -/
theorem wit_CodecRoundTrips : (List.replicate 8 true).length % 8 = 0 ∧
    ∃ s t u : State, s.cur.msgLen.toNat ≤ s.cfg.msgCap ∧ exec .ser s = .next t ∧ u.cfg = s.cfg ∧
      (∀ k, u.bit.read k = t.bit.read k) ∧ u.cur.bitLen = t.bitLen := by
  refine ⟨rfl, ?_⟩
  cases e : exec .ser (running .ser hi) with
  | next t => exact ⟨running .ser hi, t, { running .ser hi with bit := t.bit, cur := { Cur.blank with bitLen := t.bitLen } },
      by decide, e, rfl, fun _ => rfl, rfl⟩
  | fault f => cases e
  | refused r => cases e

/-- No password, and a password longer than the message of which only the used bytes are written. -/
theorem wit_XorAppliesTheKeystream :
    (∀ s ∈ [running .xor hi, running .xor { hi with pwd := [(0, 7), (1, 7)], pwdLen := 64 }],
      s.cur.msgLen.toNat ≤ s.cfg.msgCap ∧ s.cur.pwdLen.toNat ≤ s.cfg.pwdCap ∧
        Holds s.msg s.cur.msgLen.toNat (fun i => if i = 0 then 0x48 else 0x49) ∧
        Holds s.pwd (min s.cur.pwdLen.toNat s.cur.msgLen.toNat) (fun _ => 7)) ∧
    (running .xor tooLong).cfg.msgCap < (running .xor tooLong).cur.msgLen.toNat ∧
    ∃ s : State, s.cfg.pwdCap < s.cur.pwdLen.toNat :=
  ⟨by unfold Holds; decide, by decide, running .xor { hi with pwdLen := 65 }, by decide⟩

theorem wit_CipherReadsOnlyThePasswordBytesItUses : ∃ x p q : List Byte, p.length = q.length ∧ p.take x.length = q.take x.length ∧
    p ≠ q := ⟨[1], [7, 8], [7, 9], by decide, by decide, by decide⟩

theorem wit_FrameAppendsTheMarker :
    (∀ s ∈ [running .frame State.reset, running .frame { hi with pwd := [(0, 7), (1, 7)], pwdLen := 64 }],
      s.cur.msgLen.toNat ≤ s.cfg.msgCap ∧ s.cur.pwdLen.toNat ≤ s.cfg.pwdCap ∧
        Holds s.msg s.cur.msgLen.toNat (fun i => if i = 0 then 0x48 else 0x49) ∧
        Holds s.pwd (min s.cur.pwdLen.toNat s.cur.msgLen.toNat) (fun _ => 7)) ∧
    (running .frame tooLong).cfg.msgCap < (running .frame tooLong).cur.msgLen.toNat ∧
    ∃ s : State, s.cfg.pwdCap < s.cur.pwdLen.toNat :=
  ⟨by unfold Holds; decide, by decide, running .frame { hi with pwdLen := 65 }, by decide⟩

/-- `####END###`: the marker at index 1. -/
def overlapping : List Byte := [0x23, 0x23, 0x23, 0x23, 0x45, 0x4E, 0x44, 0x23, 0x23, 0x23]

/-- A marker at index 1; two bytes, so none; and the BadLength clause. -/
theorem wit_FindCopiesUpToTheFirstMarker :
    (∃ (s : State) (x : Nat → Byte), s.cur.msgLen.toNat ≤ s.cfg.msgCap ∧ Holds s.msg s.cur.msgLen.toNat x ∧
      1 + 9 ≤ s.cur.msgLen.toNat ∧ MarkerAt x 1 ∧ ∀ j, j < 1 → ¬ MarkerAt x j) ∧
    (∃ (s : State) (x : Nat → Byte), s.cur.msgLen.toNat ≤ s.cfg.msgCap ∧ Holds s.msg s.cur.msgLen.toNat x ∧
      ∀ i, i + 9 ≤ s.cur.msgLen.toNat → ¬ MarkerAt x i) ∧
    (running .find tooLong).cfg.msgCap < (running .find tooLong).cur.msgLen.toNat := by
  refine ⟨⟨running .find (withMsg overlapping State.reset), fun i => overlapping.getD i 0, by decide, by unfold Holds; decide,
    by decide, by unfold MarkerAt; decide, by unfold MarkerAt; decide⟩,
    ⟨running .find hi, fun i => if i = 0 then 0x48 else 0x49, by decide, by unfold Holds; decide, fun i h => ?_⟩, by decide⟩
  have : (running .find hi).cur.msgLen.toNat = 2 := rfl
  omega

/-- 27 pixels for one byte: L = 80, C = 81. -/
theorem wit_EmbedWritesTheStreamIntoTheSlots : ∃ (s : State) (x p v : Nat → Byte), LengthsLegal .embed s ∧
    0 < s.cur.msgLen.toNat ∧ 8 * (s.cur.msgLen.toNat + 9) ≤ 3 * (s.cur.pixLen.toNat / 4) ∧ Holds s.msg s.cur.msgLen.toNat x ∧
    Holds s.pwd (min s.cur.pwdLen.toNat s.cur.msgLen.toNat) p ∧
    ∀ k, k < 8 * (s.cur.msgLen.toNat + 9) → s.pix.read (4 * (k / 3) + k % 3) = some (v k) :=
  ⟨running .embed (withPixels (List.replicate 27 0x40101010) (withMsg [0x41] State.reset)), fun _ => 0x41, fun _ => 0, fun _ => 0x10,
    by unfold LengthsLegal; decide, by decide, by decide, by unfold Holds; decide, by unfold Holds; decide, by decide +kernel⟩

/-- A message too long; an empty message that does not fit, and C = 87 below L = 88; an empty message with C = 72. -/
theorem wit_EmbedChecksComeInOrder :
    ¬ LengthsLegal .embed (running .embed tooLong) ∧
    (∀ s ∈ [running .embed State.reset, running .embed { hi with pixLen := 116 }],
      LengthsLegal .embed s ∧ 3 * (s.cur.pixLen.toNat / 4) < 8 * (s.cur.msgLen.toNat + 9)) ∧
    ∃ s : State, LengthsLegal .embed s ∧ 8 * (s.cur.msgLen.toNat + 9) ≤ 3 * (s.cur.pixLen.toNat / 4) ∧
      s.cur.msgLen.toNat = 0 :=
  ⟨by unfold LengthsLegal; decide, by unfold LengthsLegal; decide, running .embed { State.reset with pixLen := 96 },
    by unfold LengthsLegal; decide, by decide, rfl⟩

/-- A success, and a failure. -/
theorem wit_EmbedChangesOnlyBitZeroOfColourSamples :
    nextSays (fun t => decide (t.err = .ok))
      (exec .embed (running .embed (withPixels (List.replicate 27 0x40101010) (withMsg [0x41] State.reset)))) = true ∧
    nextSays (fun t => decide (t.err = .capacityExceeded)) (exec .embed (running .embed State.reset)) = true := by
  decide +kernel

/-- 24 pixels whose LSBs are the marker. -/
def markerCarrier : State :=
  { State.reset with
    pix := Store.writeFrom [] 0 ((List.range 96).map (fun a =>
      if a % 4 = 3 then 0xFF else bitByte (streamBit (fun i => marker.getD i 0) (3 * (a / 4) + a % 4))))
    pixLen := 96 }

theorem wit_ExtractReturnsThePayload : ∃ (s : State) (y p : Nat → Byte), LengthsLegal .extract s ∧
    8 * (0 + 9) ≤ 3 * (s.cur.pixLen.toNat / 4) ∧ SlotsCarry s.pix (8 * (0 + 9)) y ∧ MarkerAt y 0 ∧
    (∀ i, i < 0 → ¬ MarkerAt y i) ∧ Holds s.pwd (min s.cur.pwdLen.toNat 0) p :=
  ⟨running .extract markerCarrier, fun i => marker.getD i 0, fun _ => 0, by unfold LengthsLegal; decide, by decide,
    by unfold SlotsCarry; decide +kernel, by unfold MarkerAt; decide, fun i h => absurd h (Nat.not_lt_zero i),
    by unfold Holds; decide⟩

/-- No pixel, and 24 black pixels. -/
theorem wit_ExtractWithoutMarkerFails :
    ∀ s ∈ [running .extract State.reset, running .extract (withPixels (List.replicate 24 0) State.reset)],
    LengthsLegal .extract s ∧ SlotsCarry s.pix (3 * (s.cur.pixLen.toNat / 4)) (fun _ => 0) ∧
      ∀ i, 8 * (i + 9) ≤ 3 * (s.cur.pixLen.toNat / 4) → ¬ MarkerAt (fun _ => 0) i := by
  have none : ∀ i, ¬ MarkerAt (fun _ => 0) i := fun i h =>
    (show (0 : Byte) ≠ 0x23 by decide) (h 0 (by decide))
  have carry : ∀ s ∈ [running .extract State.reset, running .extract (withPixels (List.replicate 24 0) State.reset)],
      LengthsLegal .extract s ∧ SlotsCarry s.pix (3 * (s.cur.pixLen.toNat / 4)) (fun _ => 0) := by
    unfold LengthsLegal SlotsCarry; decide +kernel
  exact fun s h => ⟨(carry s h).1, (carry s h).2, fun i _ => none i⟩

theorem wit_WindowDetectorAgreesWithTheScan :
    LsbsAre (running .extract markerCarrier).pix (bytesToBits marker) := by
  unfold LsbsAre; decide +kernel

/-- Other samples, same LSBs; a run that ends in success, and one that faults. -/
theorem wit_ExtractDependsOnlyOnTheLsbs :
    (∀ k, k < 3 * ((running .extract markerCarrier).cur.pixLen.toNat / 4) →
      (Store.read (markerCarrier.pix.map (fun c => (c.1, c.2 ^^^ 0xFE))) (slotOffset k)).map lsb =
        (Store.read (running .extract markerCarrier).pix (slotOffset k)).map lsb) ∧
    nextSays (fun t => t.found) (exec .extract (running .extract markerCarrier)) = true ∧
    stopsWith (.commandReadUnwritten .pix) (exec .extract (running .extract { State.reset with pixLen := 96 })) = true := by
  decide +kernel

/-- EMBED of one byte, then EXTRACT with another password of two bytes. -/
def embedOne : State := running .embed (withPixels (List.replicate 27 0x40101010) (withPwd [7] (withMsg [0x41] State.reset)))

theorem wit_EmbedThenExtractRoundTrip : ∃ (s t u : State) (x p q : List Byte), LengthsLegal .embed s ∧ 0 < x.length ∧
    x.length = s.cur.msgLen.toNat ∧ p.length = s.cur.pwdLen.toNat ∧ 8 * (x.length + 9) ≤ 3 * (s.cur.pixLen.toNat / 4) ∧
    (∀ i, i < x.length → s.msg.read i = x[i]?) ∧ (∀ i, i < min p.length x.length → s.pwd.read i = p[i]?) ∧
    exec .embed s = .next t ∧ (∀ a, u.pix.read a = t.pix.read a) ∧ (∀ i, i < min q.length x.length → u.pwd.read i = q[i]?) ∧
    u.cfg = s.cfg ∧ q.length = u.cur.pwdLen.toNat ∧ q.length ≤ u.cfg.pwdCap ∧ u.cur.pixLen = s.cur.pixLen := by
  have h : nextSays (fun _ => true) (exec .embed embedOne) = true := by decide +kernel
  have hq : ∀ i, i < min 2 1 → Store.read (withPwd [8, 9] embedOne).pwd i = ([8, 9] : List Byte)[i]? := by decide
  cases e : exec .embed embedOne with
  | fault f => rw [e] at h; cases h
  | refused r => rw [e] at h; cases h
  | next t =>
    exact ⟨embedOne, t, running .extract { withPwd [8, 9] embedOne with pix := t.pix }, [0x41], [7], [8, 9],
      by unfold LengthsLegal; decide, by decide, rfl, rfl, by decide, by decide, by decide, e, fun _ => rfl, hq, rfl, rfl,
      show 2 ≤ Config.cfgT.pwdCap by decide, rfl⟩

/-- A length one too long, for each command, and lengths that pass on a command that completes. -/
theorem wit_BadLengthExactlyWhenACheckFails :
    (∀ i ∈ [Instr.ser, .xor, .frame, .find, .embed], ¬ LengthsLegal i (running i tooLong)) ∧
    ¬ LengthsLegal .des (running .des { State.reset with bitLen := 2049 }) ∧
    ¬ LengthsLegal .extract (running .extract { State.reset with pixLen := 2 }) ∧
    ∃ s t : State, LengthsLegal .ser s ∧ exec .ser s = .next t := by
  simp only [List.forall_mem_cons]
  exact ⟨⟨by unfold LengthsLegal; decide, by unfold LengthsLegal; decide, by unfold LengthsLegal; decide,
    by unfold LengthsLegal; decide, by unfold LengthsLegal; decide, fun _ h => nomatch h⟩, by unfold LengthsLegal; decide,
    by unfold LengthsLegal; decide, running .ser hi, _, by unfold LengthsLegal; decide, rfl⟩

/-- Every command completes; an Illegal word runs; and two states that agree on EMBED's reads alone. -/
theorem wit_CommandsWriteOnlyTheirRow :
    (∀ i ∈ [Instr.ser, .des, .xor, .frame, .find, .embed, .extract],
      nextSays (fun _ => true) (exec i (running i State.reset)) = true) ∧
    (∃ (s t : State) (r : DecodeReject), s.busy = true ∧ decode s.cur.word = .error r ∧ engineTurn s = .next t) ∧
    ∃ s u : State, AgreeOnReads .embed s u ∧ u.out ≠ s.out ∧ u.bit ≠ s.bit ∧ u.cur.bitLen ≠ s.cur.bitLen :=
  ⟨by decide, ⟨accept 8 hi, _, .reservedOpcode, rfl, rfl, rfl⟩, running .embed hi,
    running .embed { hi with out := [(0, 1)], bit := [(0, true)], bitLen := 1 }, ⟨rfl, rfl, rfl, rfl, rfl, rfl, rfl⟩, by decide,
    by decide, by decide⟩

/-- Lengths that pass, with nothing written that they ask for: BIT_LEN = 8, C = 90 >= L = 80. -/
def unwritten : State := { State.reset with msgLen := 1, pwdLen := 1, pixLen := 120, bitLen := 8 }

/-- An unwritten first sample: EXTRACT can read neither all slots nor as far as a marker. -/
theorem extract_reads_unwritten : ¬ ReadsWritten .extract (running .extract unwritten) := by
  rintro ⟨bits, _, hb, hor, _⟩
  cases bits with
  | nil =>
    rcases hor with h | h
    · exact absurd h (by decide)
    · exact absurd h (by decide)
  | cons b bs => exact absurd (hb 0 (Nat.zero_lt_succ _)) (fun h => nomatch h)

/-- For every command: its reads written, and its reads unwritten; and lengths that fail. -/
theorem wit_CommandsCompleteExactlyWhenTheirReadsAreWritten :
    (∀ i ∈ [Instr.ser, .des, .xor, .frame, .find, .embed], LengthsLegal i (running i State.reset) ∧
      nextSays (fun _ => true) (exec i (running i State.reset)) = true ∧ LengthsLegal i (running i unwritten) ∧
      ¬ ReadsWritten i (running i unwritten)) ∧
    (LengthsLegal .extract (running .extract State.reset) ∧ ReadsWritten .extract (running .extract State.reset) ∧
      LengthsLegal .extract (running .extract unwritten) ∧ ¬ ReadsWritten .extract (running .extract unwritten)) ∧
    ReadsWritten .ser (running .ser hi) ∧ ¬ LengthsLegal .ser (running .ser tooLong) := by
  simp only [List.forall_mem_cons]
  refine ⟨⟨?_, ?_, ?_, ?_, ?_, ?_, fun _ h => nomatch h⟩, ⟨by unfold LengthsLegal; decide, ⟨[], by decide, fun k h => absurd h
    (Nat.not_lt_zero k), .inl rfl, fun y h => nomatch h⟩, by unfold LengthsLegal; decide, extract_reads_unwritten⟩,
    by unfold ReadsWritten Written; decide, by unfold LengthsLegal; decide⟩
  all_goals
    refine ⟨by unfold LengthsLegal; decide, by decide, by unfold LengthsLegal; decide, ?_⟩
  · exact fun h => absurd (h 0 (by decide)) (by decide)
  · exact fun h => absurd (h rfl 0 (by decide)) (by decide)
  · exact fun h => absurd (h.1 0 (by decide)) (by decide)
  · exact fun h => absurd (h.1 0 (by decide)) (by decide)
  · exact fun h => absurd (h 0 (by decide)) (by decide)
  · exact fun h => absurd ((h (by decide) (by decide)).1 0 (by decide)) (by decide)

/-- V-RS-04 in small: EMBED accepted on one pixel, then reset: the last colour sample is lost, the alpha byte is not; and a reset
with no command running loses nothing. -/
theorem wit_ResetStep : (∃ s : State, s.busy = true ∧ decode s.cur.word = .ok .embed ∧ LengthsLegal .embed s ∧
    LostByte .embed s .pix 2 ∧ s.byteAt .pix 2 = some 0x80 ∧ ¬ LostByte .embed s .pix 3 ∧ s.byteAt .pix 3 = some 0xFF) ∧
    ∃ s : State, s.busy = false ∧ s.byteAt .msg 0 = some 0x48 :=
  ⟨⟨running .embed (withPixels [0xFF808080] State.reset), rfl, rfl, by unfold LengthsLegal; decide,
    by unfold LostByte; decide, by decide, by unfold LostByte; decide, by decide⟩, hi, rfl, rfl⟩

/-- A host write into a buffer that holds bytes. -/
theorem wit_StepKeepsMemoryCanonical : ∃ s t : State, s.memoryWf = true ∧ step s = .next t ∧ t.msg ≠ s.msg :=
  ⟨facing (.host (.write8 (addr .msg 0) 0x58)) hi, _, by decide, rfl, by decide⟩

/-- A command completes. -/
theorem wit_StepKeepsStatusLegal : ∃ s t : State, s.statusWf = true ∧ step s = .next t ∧ t.done ≠ s.done :=
  ⟨facing .engine (running .ser hi), _, by decide, rfl, by decide⟩

/-- EXTRACT's cursor moves. -/
theorem wit_StepKeepsHiddenCursorLegal : ∃ s t : State, s.pipeWf = true ∧ step s = .next t ∧ t.pipe ≠ s.pipe :=
  ⟨facing .work (running .extract (withPixels [0xFF000001] State.reset)), _, by decide, rfl, by decide⟩

/-- OUT[0..OUT_LEN) is not empty, and a command completes. -/
theorem wit_StepKeepsOutReadable : ∃ s t : State, s.OutReadable ∧ step s = .next t ∧ s.outLen = 1 ∧ t.outLen = 9 :=
  ⟨facing .engine (running .frame { State.reset with out := [(0, 1)], outLen := 1 }), _,
    ⟨by decide, by unfold Written; decide⟩, rfl, rfl, rfl⟩

/-- What `p` says of the state and the next one; false when the machine stops. -/
def stepSays (p : State → State → Bool) (s : State) : Bool := nextSays (p s) (step s)

/-- Each clause's premise: host writes change MSG, PWD, BIT and PIX; the completions of FRAME and SER change OUT and BIT, with BUSY
falling; a reset that aborts EMBED changes PIX; a power-on changes MSG. -/
theorem wit_BuffersChangeOnlyByTheirWriters :
    stepSays (fun s t => decide (t.msg ≠ s.msg)) (facing (.host (.write8 (addr .msg 0) 0x58)) hi) = true ∧
    stepSays (fun s t => decide (t.pwd ≠ s.pwd)) (facing (.host (.write8 (addr .pwd 0) 0x58)) hi) = true ∧
    stepSays (fun s t => decide (t.bit ≠ s.bit)) (facing (.host (.write8 (addr .bit 0) 1)) hi) = true ∧
    stepSays (fun s t => decide (t.pix ≠ s.pix)) (facing (.host (.write32 (addr .pix 0) 1)) hi) = true ∧
    stepSays (fun s t => decide (t.out ≠ s.out) && s.busy && !t.busy) (facing .engine (running .frame State.reset)) = true ∧
    stepSays (fun s t => decide (t.bit ≠ s.bit) && s.busy && !t.busy) (facing .engine (running .ser hi)) = true ∧
    stepSays (fun s t => decide (t.pix ≠ s.pix) && s.busy && !t.busy)
      (facing .reset (running .embed (withPixels [0xFF808080] State.reset))) = true ∧
    stepSays (fun s t => decide (t.msg ≠ s.msg)) (facing .powerOn hi) = true := by
  refine ⟨?_, ?_, ?_, ?_, ?_, ?_, ?_, ?_⟩ <;> decide

end Sys2Proof.Tests
end

section
/-! PROOFS. The registers STATUS and CTRL: what a 32-bit access to a register does, said once for all registers, then the
layout of the two words as the host reads them (10_state R25, R27). -/

namespace Sys2Proof.Machine

/-! ### Accesses to a register, by its offset -/

/-- The REG window, from an offset that holds a register. -/
theorem placeOf_of_regAddressOf {c : Config} {a : Word} {off : Nat} {r : Reg} (ha : RegAddressOf c off a)
    (hr : Reg.atOffset off = some r) : placeOf c a = .reg off :=
  placeOf_reg ha (by have := atOffset_lt hr; omega)

/-- A 32-bit READ of a readable register answers its value, and changes nothing else. -/
theorem hostStep_read32_reg {s : State} {a v : Word} {off : Nat} {r : Reg} (ha : RegAddressOf s.cfg off a)
    (hr : Reg.atOffset off = some r) (hv : readReg s r = some v) :
    hostStep (.read32 a) s = .next { s with answer := some (.data32 v) } := by
  simp only [hostStep, Access.addr, placeOf_of_regAddressOf ha hr, regAccess, hr, hv, answered]

/-- A 32-bit WRITE of a writable register does what `writeReg` says, answered OKAY. -/
theorem hostStep_write32_reg {s t : State} {a w : Word} {off : Nat} {r : Reg} (ha : RegAddressOf s.cfg off a)
    (hr : Reg.atOffset off = some r) (ht : writeReg s r w = some t) :
    hostStep (.write32 a w) s = .next { t with answer := some .okay } := by
  simp only [hostStep, Access.addr, placeOf_of_regAddressOf ha hr, regAccess, hr, ht, answered]

/-! ### STATUS -/

/-- STATUS as read, bit by bit; above bit 11 there is no bit of ERR left. -/
theorem getLsbD_status (s : State) (k : Nat) :
    s.status.getLsbD k =
      if k = 0 then s.busy else if k = 1 then s.done else if k = 2 then s.found else if k = 3 then s.ovr
      else if k < 8 then false else s.err.code.getLsbD (k - 8) := by
  simp only [State.status, BitVec.getLsbD_append]
  match k with
  | 0 | 1 | 2 | 3 | 4 | 5 | 6 | 7 => simp
  | k + 8 => simpa using BitVec.lt_of_getLsbD

/-- The ERR field of STATUS is the error code's number. -/
theorem extractLsb'_status_err (s : State) : s.status.extractLsb' 8 4 = s.err.code := by
  refine BitVec.eq_of_getLsbD_eq fun i hi => ?_
  rw [BitVec.getLsbD_extractLsb', getLsbD_status]
  simp (disch := omega) [hi, if_neg]

/-- A STATUS write clears DONE and OVR by its bits 1 and 3. -/
theorem acknowledge_eq (w : Word) (s : State) :
    acknowledge w s = { s with
      done := if w.getLsbD 1 then false else s.done
      ovr := if w.getLsbD 3 then false else s.ovr } := by
  simp only [acknowledge]
  cases w.getLsbD 1 <;> cases w.getLsbD 3 <;> simp

/-! ### CTRL -/

/-- CTRL as read, bit by bit. -/
theorem getLsbD_ctrl (s : State) (k : Nat) : s.ctrl.getLsbD k = (decide (k = 0) && s.ie) := by
  by_cases hk : k = 0 <;> simp [State.ctrl, BitVec.getLsbD_setWidth, hk]

/-! ### The obligations -/

/-- Settles O13, by the layout of `getLsbD_status` and the two access lemmas at STATUS. -/
theorem statusRegister : Obligations.StatusRegister := by
  unfold Obligations.StatusRegister
  refine ⟨⟨rfl, rfl, rfl, rfl, rfl, rfl, rfl⟩, fun s => ⟨⟨getLsbD_status s 0, getLsbD_status s 1, getLsbD_status s 2,
    getLsbD_status s 3, extractLsb'_status_err s, fun k h4 h7 => ?_, fun k h12 _ => ?_⟩, rfl, fun a w ha => ⟨?_, ?_⟩⟩⟩
  · simp (disch := omega) only [getLsbD_status, if_neg, if_pos]
  · simp (disch := omega) only [getLsbD_status, if_neg, BitVec.getLsbD_of_ge]
  · exact hostStep_read32_reg ha rfl rfl
  · rw [hostStep_write32_reg ha rfl rfl, acknowledge_eq]

/-- Settles O14, by the layout of `getLsbD_ctrl` and the two access lemmas at CTRL. -/
theorem ctrlRegister : Obligations.CtrlRegister := by
  unfold Obligations.CtrlRegister
  refine fun s a w ha => ⟨⟨s.ctrl, hostStep_read32_reg ha rfl rfl, getLsbD_ctrl s 0, fun k h1 _ => ?_⟩,
    hostStep_write32_reg ha rfl rfl, rfl, rfl⟩
  have hk : k ≠ 0 := by omega
  simp [getLsbD_ctrl, hk]

end Sys2Proof.Machine
end

section
/-! PROOFS. The answers of the host bus (20_memory): what a bad REG access, an access answered ERROR, and a 4-byte access to a
buffer do (R51, R54, R56, R58). -/

namespace Sys2Proof.Machine

/-! ### Accesses where no register stands -/

/-- A register stands only at a multiple of 4 below the reserved offsets (R51, R56). -/
theorem atOffset_eq_none {off : Nat} (h : off % 4 ≠ 0 ∨ 0x048 ≤ off) : Reg.atOffset off = none := by
  cases hr : Reg.atOffset off with
  | none => rfl
  | some r => have := atOffset_lt hr; omega

theorem regAccess_of_atOffset_none {off : Nat} (h : Reg.atOffset off = none) (acc : Access) (s : State) :
    regAccess acc off s = answered .error s := by
  cases acc <;> simp only [regAccess, h]

/-! ### The words and bytes of a buffer -/

/-- Four written bytes make a little-endian word (R54). -/
theorem wordAt_eq_some {s : State} {w : Window} {o : Nat} {b0 b1 b2 b3 : Byte} (h0 : s.byteAt w o = some b0)
    (h1 : s.byteAt w (o + 1) = some b1) (h2 : s.byteAt w (o + 2) = some b2) (h3 : s.byteAt w (o + 3) = some b3) :
    s.wordAt w o = some (packWord b0 b1 b2 b3) := by
  simp only [State.wordAt, h0, h1, h2, h3]

/-- A word with an unwritten byte has no value (R48). -/
theorem wordAt_eq_none {s : State} {w : Window} {o k : Nat} (hk : k < 4) (h : s.byteAt w (o + k) = none) :
    s.wordAt w o = none := by
  unfold State.wordAt
  split
  · next h0 h1 h2 h3 =>
    have : k = 0 ∨ k = 1 ∨ k = 2 ∨ k = 3 := by omega
    rcases this with rfl | rfl | rfl | rfl <;> simp [h0, h1, h2, h3] at h
  · rfl

/-- The byte that a BIT cell reads as after a write of `v` (R42, R60). -/
theorem bitByte_lsb (v : Byte) : bitByte (lsb v) = v &&& 1 := by
  refine BitVec.eq_of_getLsbD_eq fun i _ => ?_
  cases i <;> simp [bitByte, lsb, BitVec.getLsbD_setWidth]

/-! ### 4-byte accesses to a buffer -/

/-- No hazard without BUSY, and none in MARKER (R68). -/
theorem hazard_eq_false {s : State} {w : Window} (h : s.busy = false ∨ w = .marker) : hazard s w = false := by
  rcases h with h | h <;> simp [hazard, h]

/-- The host may write every buffer but MARKER and OUT (R59). -/
theorem hostWritable_of_ne {w : Window} (hm : w ≠ .marker) (ho : w ≠ .out) : w.hostWritable = true := by
  cases w with
  | marker => exact absurd rfl hm
  | out => exact absurd rfl ho
  | msg | pwd | bit | pix => rfl

theorem wordFits_iff {c : Config} {w : Window} {o : Nat} : wordFits c w o = true ↔ o % 4 = 0 ∧ o + 3 < capOf c w := by
  simp [wordFits]

/-- An access to a valid offset of a buffer, by its address. -/
theorem hostStep_of_addressOf {s : State} {acc : Access} {w : Window} {o : Nat} (ha : AddressOf s.cfg w o acc.addr)
    (ho : o < capOf s.cfg w) : hostStep acc s = bufferAccess acc w o s := by
  have hplace : placeOf s.cfg acc.addr = .buffer w o := placeOf_buffer ha (Nat.lt_of_lt_of_le ho (capOf_le_size s.cfg w))
  simp only [hostStep, hplace]

section
variable {s : State} {w : Window} {o : Nat}

/-- A 4-byte READ that fits the buffer and meets no hazard: the word, or the fault of R48. -/
theorem bufferAccess_read32 (a : Word) (hf : wordFits s.cfg w o = true) (hz : hazard s w = false) :
    bufferAccess (.read32 a) w o s =
      (s.wordAt w o).elim (.fault (.hostReadUnwritten w)) fun v => answered (.data32 v) s := by
  have ho : ¬ capOf s.cfg w ≤ o := by have := (wordFits_iff.mp hf).2; omega
  simp only [bufferAccess, if_neg ho, hz, hf, Bool.false_eq_true, if_false, if_true]
  cases s.wordAt w o <;> rfl

/-- A 4-byte WRITE that fits a writable buffer and meets no hazard stores the word. -/
theorem bufferAccess_write32 (a v : Word) (hf : wordFits s.cfg w o = true) (hz : hazard s w = false)
    (hw : w.hostWritable = true) : bufferAccess (.write32 a v) w o s = answered .okay (setWord w o v s) := by
  have ho : ¬ capOf s.cfg w ≤ o := by have := (wordFits_iff.mp hf).2; omega
  simp only [bufferAccess, if_neg ho, hz, hf, hw, Bool.and_self, Bool.false_eq_true, if_false, if_true]

end

/-! ### The obligations -/

/-- Settles O23: a READ by `wordAt_eq_some` and `wordAt_eq_none`, a WRITE by the byte that `byteAt_setWord` finds at each
offset. -/
theorem wordAccessIsLittleEndian : Obligations.WordAccessIsLittleEndian := by
  unfold Obligations.WordAccessIsLittleEndian
  intro s w o a ha halign hfit
  have hf : wordFits s.cfg w o = true := wordFits_iff.mpr ⟨halign, hfit⟩
  have haccess (acc : Access) (h : acc.addr = a) : hostStep acc s = bufferAccess acc w o s :=
    hostStep_of_addressOf (h ▸ ha) (by omega)
  refine ⟨fun b0 b1 b2 b3 hidle h0 h1 h2 h3 => ?_, fun hidle ⟨k, hk, hnone⟩ => ?_, fun v hidle hm hout => ?_⟩
  · refine ⟨packWord b0 b1 b2 b3, ?_, toNat_packWord b0 b1 b2 b3⟩
    rw [haccess _ rfl, bufferAccess_read32 a hf (hazard_eq_false hidle), wordAt_eq_some h0 h1 h2 h3]
    rfl
  · rw [haccess _ rfl, bufferAccess_read32 a hf (hazard_eq_false hidle), wordAt_eq_none hk hnone]
    rfl
  · have hw := hostWritable_of_ne hm hout
    refine ⟨{ setWord w o v s with answer := some .okay }, ?_, rfl, fun k hk => ?_, fun w' o' hother => ?_, ?_⟩
    · rw [haccess _ rfl, bufferAccess_write32 a v hf (hazard_eq_false (.inl hidle)) hw]
      rfl
    · rw [byteAt_answer, byteAt_setWord hw, if_pos ⟨rfl, by omega, by omega⟩, Nat.add_sub_cancel_left, bitByte_lsb]
      rfl
    · rw [byteAt_answer, byteAt_setWord hw, if_neg]
      rintro ⟨rfl, hlo, hhi⟩
      rcases hother with h | h | h
      · exact h rfl
      · omega
      · omega
    · rw [setWord_eq]

/-- Settles O27: of the cases of `hostStep_cases`, a write is answered OKAY, and every other answer is all that changes. -/
theorem errorAnswerChangesNothing : Obligations.ErrorAnswerChangesNothing := by
  unfold Obligations.ErrorAnswerChangesNothing
  intro s t acc hstep herror
  rcases hostStep_cases hstep with ⟨r, rfl, _⟩ | ⟨b, v, off, r, u, _, _, _, _, rfl⟩ | ⟨b, v, w, o, _, _, _, _, _, rfl⟩ |
    ⟨b, v, w, o, _, _, _, _, _, rfl⟩
  · exact congrArg (fun r => { s with answer := r }) herror
  · cases herror
  · cases herror
  · cases herror

/-- Settles O19: `regAccess` gives a 1-byte access no other answer, and a 32-bit one none where no register stands. -/
theorem badRegisterAccessGetsError : Obligations.BadRegisterAccessGetsError := by
  unfold Obligations.BadRegisterAccessGetsError
  intro s acc off ha hoff hbad
  have hplace : placeOf s.cfg acc.addr = .reg off := placeOf_reg ha hoff
  have hreg : regAccess acc off s = answered .error s := by
    rcases hbad with ⟨a, rfl⟩ | ⟨a, v, rfl⟩ | hoffset
    · rfl
    · rfl
    · exact regAccess_of_atOffset_none (atOffset_eq_none hoffset) acc s
  simp only [hostStep, hplace, hreg, answered]

end Sys2Proof.Machine
end

section
/-! PROOFS. The encoding of the commands (30_encoding): which words decode, and to what (R78, R79). -/

namespace Sys2Proof.Machine

theorem decode_encode (i : Instr) : decode (encode i) = .ok i := by
  cases i <;> decide

theorem decode_eq_ok_iff (c : Word) (i : Instr) : decode c = .ok i ↔ c = encode i :=
  ⟨decode_ok, fun h => h ▸ decode_encode i⟩

/-- The commands' words are the words 1 to 7 (R78, R79). -/
theorem exists_eq_encode_iff (c : Word) : (∃ i, c = encode i) ↔ 1 ≤ c.toNat ∧ c.toNat ≤ 7 := by
  constructor
  · rintro ⟨i, rfl⟩
    cases i <;> decide
  · intro hrange
    have hword : c.toNat = 1 ∨ c.toNat = 2 ∨ c.toNat = 3 ∨ c.toNat = 4 ∨ c.toNat = 5 ∨ c.toNat = 6 ∨ c.toNat = 7 := by omega
    rcases hword with h | h | h | h | h | h | h
    · exact ⟨.ser, BitVec.eq_of_toNat_eq h⟩
    · exact ⟨.des, BitVec.eq_of_toNat_eq h⟩
    · exact ⟨.xor, BitVec.eq_of_toNat_eq h⟩
    · exact ⟨.frame, BitVec.eq_of_toNat_eq h⟩
    · exact ⟨.find, BitVec.eq_of_toNat_eq h⟩
    · exact ⟨.embed, BitVec.eq_of_toNat_eq h⟩
    · exact ⟨.extract, BitVec.eq_of_toNat_eq h⟩

theorem exists_decode_iff (c : Word) : (∃ i, decode c = .ok i) ↔ 1 ≤ c.toNat ∧ c.toNat ≤ 7 := by
  simp only [decode_eq_ok_iff, exists_eq_encode_iff]

/-- Settles O2, by `decode_eq_ok_iff` and `exists_decode_iff`; an Illegal word leaves only the last case of `engineTurn_cases`. -/
theorem exactlySevenWordsDecode : Obligations.ExactlySevenWordsDecode := by
  unfold Obligations.ExactlySevenWordsDecode
  refine ⟨decode_eq_ok_iff, exists_decode_iff, fun s hbusy hword => ?_⟩
  rcases engineTurn_cases s with ⟨hidle, _⟩ | ⟨_, i, hd, _⟩ | ⟨_, _, _, hturn⟩
  · rw [hbusy] at hidle
    cases hidle
  · exact absurd ((exists_decode_iff _).mp ⟨i, hd⟩) hword
  · exact hturn

end Sys2Proof.Machine
end

section
/-! PROOFS. The row of each command (30_encoding R86): what a completion writes, said once for all seven commands as a write that
the reads of the row fix. -/

namespace Sys2Proof.Machine

/-! ### The write of a completion -/

/-- The writes that a command's row allows (30_encoding R86): command `i` ends with code `code` and, apart from STATUS and the
hidden state, turns `s` into `w s`. The values a write stores are part of `w`, so one `w` stores the same values in every
state. -/
inductive RowWrite : Instr → ErrCode → (State → State) → Prop
  /-- a failed length check writes nothing (40 R96) -/
  | badLength (i : Instr) : RowWrite i .badLength id
  | ser (bits : List Bool) (n : Word) : RowWrite .ser .ok fun s => { s with bit := s.bit.writeFrom 0 bits, bitLen := n }
  | desMalformed : RowWrite .des .malformedBitLength id
  /-- DES, XOR and FRAME store their result in OUT -/
  | out {i : Instr} (hi : i = .des ∨ i = .xor ∨ i = .frame) (x : List Byte) (n : Word) :
      RowWrite i .ok fun s => { s with out := s.out.writeFrom 0 x, outLen := n }
  | findNothing : RowWrite .find .ok fun s => { s with outLen := 0 }
  | find (x : List Byte) (n : Word) :
      RowWrite .find .ok fun s => { s with out := s.out.writeFrom 0 x, outLen := n, found := true }
  /-- EMBED's failed checks write the counts (44 R137) -/
  | embedFails {code : ErrCode} (hcode : code = .emptyMessage ∨ code = .capacityExceeded) (n : Word) :
      RowWrite .embed code fun s => { s with reqBits := n, bitsDone := 0 }
  | embed (pix : Memory) (n : Word) : RowWrite .embed .ok fun s => { s with pix := pix, reqBits := n, bitsDone := n }
  | extractNothing (lost : Nat → Bool) (n : Word) :
      RowWrite .extract .markerNotFound fun s => { s with out := s.out.forget lost, outLen := 0, bitsDone := n }
  | extract (x : List Byte) (n k : Word) :
      RowWrite .extract .ok fun s =>
        { s with out := s.out.writeFrom 0 x, outLen := n, bitsDone := k, found := true }

section
variable {i : Instr} {code : ErrCode} {w : State → State}

/-- A row's write ends with a code of the row (60 R168). -/
theorem RowWrite.possibleCode (hw : RowWrite i code w) : PossibleCode i code := by
  cases hw with
  | badLength => cases i <;> simp [PossibleCode]
  | out hi => rcases hi with rfl | rfl | rfl <;> exact .inl rfl
  | embedFails hcode => rcases hcode with rfl | rfl <;> simp [PossibleCode]
  | ser | desMalformed | findNothing | find | embed | extractNothing | extract => simp [PossibleCode]

/-- No row's write touches what `Completes` keeps (40 R99). -/
theorem RowWrite.completes (hw : RowWrite i code w) (s : State) : Completes s (complete code (w s)) code := by
  cases hw <;> constructor <;> simp

/-- What each row leaves as it was (R86). -/
theorem RowWrite.keeps (hw : RowWrite i code w) (s : State) :
    (i ≠ .ser → BitKept s (w s)) ∧ ((i = .ser ∨ i = .embed) → OutKept s (w s)) ∧ (i ≠ .embed → PixKept s (w s)) ∧
    (i ≠ .embed → (w s).reqBits = s.reqBits) ∧ ((i ≠ .embed ∧ i ≠ .extract) → (w s).bitsDone = s.bitsDone) ∧
    ((i ≠ .find ∧ i ≠ .extract) → (w s).found = s.found) := by
  cases hw with
  | out hi => rcases hi with rfl | rfl | rfl <;> simp [BitKept, PixKept]
  | badLength | ser | desMalformed | findNothing | find | embedFails | embed | extractNothing | extract =>
    simp [BitKept, OutKept, PixKept]

end

/-! ### One write in two states -/

/-- After a whole write each offset holds the value written, or what it held. -/
theorem sameOrKept_writeFrom {α : Type} (m m' : Store α) (x : List α) (a : Nat) :
    SameOrKept (m.read a) (m'.read a) ((m.writeFrom 0 x).read a) ((m'.writeFrom 0 x).read a) := by
  rw [read_writeFrom, read_writeFrom]
  split
  · exact .inl rfl
  · exact .inr ⟨rfl, rfl⟩

/-- After a forget each offset is unwritten, or holds what it held. -/
theorem sameOrKept_forget {α : Type} (m m' : Store α) (lost : Nat → Bool) (a : Nat) :
    SameOrKept (m.read a) (m'.read a) ((m.forget lost).read a) ((m'.forget lost).read a) := by
  rw [read_forget, read_forget]
  split
  · exact .inl rfl
  · exact .inr ⟨rfl, rfl⟩

/-- A completion that stores nothing. -/
theorem sameResult_complete (code : ErrCode) (s u : State) : SameResult s u (complete code s) (complete code u) where
  err := rfl
  found := .inr ⟨rfl, rfl⟩
  bitLen := .inr ⟨rfl, rfl⟩
  outLen := .inr ⟨rfl, rfl⟩
  reqBits := .inr ⟨rfl, rfl⟩
  bitsDone := .inr ⟨rfl, rfl⟩
  out _ := .inr ⟨rfl, rfl⟩
  bit _ := .inr ⟨rfl, rfl⟩
  pix _ := .inr ⟨rfl, rfl⟩

/-- One row's write has one result in any two states. -/
theorem RowWrite.sameResult {i : Instr} {code : ErrCode} {w : State → State} (hw : RowWrite i code w) (s u : State) :
    SameResult s u (complete code (w s)) (complete code (w u)) := by
  have kept := sameResult_complete code s u
  cases hw with
  | badLength | desMalformed => exact kept
  | ser bits => exact { kept with bit := sameOrKept_writeFrom _ _ bits, bitLen := .inl rfl }
  | out _ x => exact { kept with out := sameOrKept_writeFrom _ _ x, outLen := .inl rfl }
  | findNothing => exact { kept with outLen := .inl rfl }
  | find x => exact { kept with out := sameOrKept_writeFrom _ _ x, outLen := .inl rfl, found := .inl rfl }
  | embedFails => exact { kept with reqBits := .inl rfl, bitsDone := .inl rfl }
  | embed => exact { kept with pix := fun _ => .inl rfl, reqBits := .inl rfl, bitsDone := .inl rfl }
  | extractNothing lost =>
    exact { kept with out := sameOrKept_forget _ _ lost, outLen := .inl rfl, bitsDone := .inl rfl }
  | extract x =>
    exact { kept with
      out := sameOrKept_writeFrom _ _ x, outLen := .inl rfl, bitsDone := .inl rfl, found := .inl rfl }

/-! ### The reads of a row -/

section
variable {s u : State}

theorem agreeOnReads_refl (i : Instr) (s : State) : AgreeOnReads i s s := by
  cases i <;> simp [AgreeOnReads]

/-- The checks of a command are those of the table of 40 R96. -/
theorem lengthsOk_iff {i : Instr} : lengthsOk i s = true ↔ LengthsLegal i s := by
  cases i <;> simp only [lengthsOk, msgLenOk, pwdLenOk, pixLenOk, bitLenOk, Bool.and_eq_true, decide_eq_true_eq, and_assoc] <;>
    rfl

/-- The length checks of a command read its row's registers only (40 R96). -/
theorem lengthsOk_congr {i : Instr} (h : AgreeOnReads i s u) : lengthsOk i u = lengthsOk i s := by
  rw [Bool.eq_iff_iff, lengthsOk_iff, lengthsOk_iff]
  cases i <;> simp only [AgreeOnReads] at h <;> simp only [LengthsLegal, h]

theorem readMsg_congr (hlen : u.cur.msgLen = s.cur.msgLen) (hmsg : u.msg = s.msg) : readMsg u = readMsg s := by
  simp only [readMsg, State.curMsgLen, hlen, hmsg]

theorem readPwd_congr (hlen : u.cur.pwdLen = s.cur.pwdLen) (hpwd : u.pwd = s.pwd) (n : Nat) : readPwd n u = readPwd n s := by
  simp only [readPwd, State.curPwdLen, hlen, hpwd]

theorem readBits_congr (hlen : u.cur.bitLen = s.cur.bitLen) (hbit : u.bit = s.bit) : readBits u = readBits s := by
  simp only [readBits, State.curBitLen, hlen, hbit]

end

/-! ### Each command makes one write of its row, or one fault -/

/-- The outcomes of command `i` from `s` and from `u`: one fault, or one write of the row made in both. -/
inductive RowOutcome (i : Instr) (s u : State) :
    Host.Outcome State Fault Refusal → Host.Outcome State Fault Refusal → Prop
  | fault (f : Fault) : RowOutcome i s u (.fault f) (.fault f)
  | next {code : ErrCode} {w : State → State} (hw : RowWrite i code w) :
      RowOutcome i s u (.next (complete code (w s))) (.next (complete code (w u)))

section
variable {s u : State}

theorem execSer_row (h : AgreeOnReads .ser s u) : RowOutcome .ser s u (execSer s) (execSer u) := by
  have ⟨_, hlen, hmsg⟩ := h
  have hcur : u.curMsgLen = s.curMsgLen := congrArg BitVec.toNat hlen
  rw [execSer, execSer, lengthsOk_congr h, readMsg_congr hlen hmsg, hcur]
  split
  · cases readMsg s with
    | error f => exact .fault f
    | ok x => exact .next (.ser _ _)
  · exact .next (.badLength .ser)

theorem execDes_row (h : AgreeOnReads .des s u) : RowOutcome .des s u (execDes s) (execDes u) := by
  have ⟨_, hlen, hbit⟩ := h
  have hcur : u.curBitLen = s.curBitLen := congrArg BitVec.toNat hlen
  rw [execDes, execDes, lengthsOk_congr h, readBits_congr hlen hbit, hcur]
  split
  · split
    · cases readBits s with
      | error f => exact .fault f
      | ok bits =>
        cases hbytes : bitsToBytes bits with
        | none => simpa [hbytes] using .next .desMalformed
        | some x => simpa [hbytes] using .next (.out (.inl rfl) x _)
    · exact .next .desMalformed
  · exact .next (.badLength .des)

theorem execXor_row (h : AgreeOnReads .xor s u) : RowOutcome .xor s u (execXor s) (execXor u) := by
  have ⟨_, hlen, hplen, hmsg, hpwd⟩ := h
  have hcur : u.curMsgLen = s.curMsgLen := congrArg BitVec.toNat hlen
  rw [execXor, execXor, lengthsOk_congr h, readMsg_congr hlen hmsg, hcur, readPwd_congr hplen hpwd]
  split
  · cases readMsg s with
    | error f => exact .fault f
    | ok x =>
      cases readPwd s.curMsgLen s with
      | error f => exact .fault f
      | ok p => exact .next (.out (.inr (.inl rfl)) _ _)
  · exact .next (.badLength .xor)

theorem execFrame_row (h : AgreeOnReads .frame s u) : RowOutcome .frame s u (execFrame s) (execFrame u) := by
  have ⟨_, hlen, hplen, hmsg, hpwd⟩ := h
  have hcur : u.curMsgLen = s.curMsgLen := congrArg BitVec.toNat hlen
  rw [execFrame, execFrame, lengthsOk_congr h, readMsg_congr hlen hmsg, hcur, readPwd_congr hplen hpwd]
  split
  · cases readMsg s with
    | error f => exact .fault f
    | ok x =>
      cases readPwd s.curMsgLen s with
      | error f => exact .fault f
      | ok p => exact .next (.out (.inr (.inr rfl)) _ _)
  · exact .next (.badLength .frame)

theorem execFind_row (h : AgreeOnReads .find s u) : RowOutcome .find s u (execFind s) (execFind u) := by
  have ⟨_, hlen, hmsg⟩ := h
  rw [execFind, execFind, lengthsOk_congr h, readMsg_congr hlen hmsg]
  split
  · cases readMsg s with
    | error f => exact .fault f
    | ok x =>
      cases hfound : findAndStrip x with
      | none => simpa [hfound] using .next .findNothing
      | some y => simpa [hfound] using .next (.find y _)
  · exact .next (.badLength .find)

theorem execEmbed_row (h : AgreeOnReads .embed s u) : RowOutcome .embed s u (execEmbed s) (execEmbed u) := by
  have ⟨_, hlen, hplen, hxlen, hmsg, hpwd, hpix⟩ := h
  have hcur : u.curMsgLen = s.curMsgLen := congrArg BitVec.toNat hlen
  have hcurPix : u.curPixLen = s.curPixLen := congrArg BitVec.toNat hxlen
  have hwalk (b : List Bool) : embedWalk u.pix 0 b = embedWalk s.pix 0 b := by rw [hpix]
  rw [execEmbed, execEmbed, lengthsOk_congr h, readMsg_congr hlen hmsg, hcur, hcurPix, readPwd_congr hplen hpwd]
  simp only [hwalk]
  split
  · split
    · exact .next (.embedFails (.inr rfl) _)
    split
    · exact .next (.embedFails (.inl rfl) _)
    cases readMsg s with
    | error f => exact .fault f
    | ok x =>
      cases readPwd s.curMsgLen s with
      | error f => exact .fault f
      | ok p =>
        cases hw : embedWalk s.pix 0 (bytesToBits (frame x p)) with
        | none => simpa [hw] using .fault _
        | some pix => simpa [hw] using .next (.embed pix _)
  · exact .next (.badLength .embed)

theorem execExtract_row (h : AgreeOnReads .extract s u) : RowOutcome .extract s u (execExtract s) (execExtract u) := by
  have ⟨_, hplen, hxlen, hpwd, hpix⟩ := h
  have hcur : u.curPixLen = s.curPixLen := congrArg BitVec.toNat hxlen
  have hscan (n : Nat) : extractScan u.pix n [] = extractScan s.pix n [] := by rw [hpix]
  rw [execExtract, execExtract, lengthsOk_congr h, hcur, hscan]
  simp only [readPwd_congr hplen hpwd]
  split
  · cases extractScan s.pix (capacityOf s.curPixLen) [] with
    | unwritten => exact .fault _
    | exhausted => exact .next (.extractNothing _ _)
    | found y n =>
      cases hp : readPwd y.length s with
      | error f => simpa [hp] using .fault f
      | ok p => simpa [hp] using .next (.extract _ _ _)
  · exact .next (.badLength .extract)

/-- From two states that agree on the reads of its row, a command makes one write of its row, or stops with one fault. -/
theorem exec_row {i : Instr} (h : AgreeOnReads i s u) : RowOutcome i s u (exec i s) (exec i u) := by
  cases i with
  | ser => exact execSer_row h
  | des => exact execDes_row h
  | xor => exact execXor_row h
  | frame => exact execFrame_row h
  | find => exact execFind_row h
  | embed => exact execEmbed_row h
  | extract => exact execExtract_row h

/-- One write in both states is one result (30_encoding R86). -/
theorem RowOutcome.sameResult {i : Instr} {o o' : Host.Outcome State Fault Refusal} (h : RowOutcome i s u o o') :
    (∀ s', o = .next s' → ∃ u', o' = .next u' ∧ SameResult s u s' u') ∧ ∀ f, o = .fault f → o' = .fault f := by
  cases h with
  | fault f => simp
  | next hw =>
    refine ⟨fun s' h => ?_, by simp⟩
    cases h
    exact ⟨_, rfl, hw.sameResult s u⟩

end

/-- A completion is a write of the command's row. -/
theorem rowWrite_of_exec_next {i : Instr} {s t : State} (h : exec i s = .next t) :
    ∃ code w, RowWrite i code w ∧ t = complete code (w s) := by
  have hrow := exec_row (agreeOnReads_refl i s)
  rw [h] at hrow
  cases hrow with
  | next hw => exact ⟨_, _, hw, rfl⟩

/-- Settles O49: a completion is a write of the row by `rowWrite_of_exec_next`, and by `exec_row` the same write, or the same
fault, in every state that agrees on the row's reads. -/
theorem commandsWriteOnlyTheirRow : Obligations.CommandsWriteOnlyTheirRow := by
  unfold Obligations.CommandsWriteOnlyTheirRow
  refine ⟨fun i s t h => ?_, fun s t r hbusy hd hturn => ?_, fun i s u hagree => ?_⟩
  · obtain ⟨code, w, hw, rfl⟩ := rowWrite_of_exec_next h
    exact ⟨⟨code, hw.possibleCode, hw.completes s⟩, hw.keeps s⟩
  · rcases engineTurn_next hturn with ⟨hidle, _⟩ | ⟨_, i, hok, _⟩ | ⟨_, rfl⟩
    · simp [hbusy] at hidle
    · simp [hd] at hok
    · rfl
  · exact (exec_row hagree).sameResult

end Sys2Proof.Machine
end

section
/-! PROOFS. The life of a command (40_command_lifecycle): a CMD write is accepted or dropped (R90, R91), an Illegal word completes
(R95), and the length checks of R96 decide whether a command ends in BadLength. -/

namespace Sys2Proof.Machine

/-! ### CMD writes -/

section
variable {s : State} {a : Word}

theorem offer_of_idle (hidle : s.busy = false) (c : Word) : offer c s = accept c s := by
  simp [offer, hidle]

theorem offer_of_busy (hbusy : s.busy = true) (c : Word) : offer c s = { s with ovr := true } := by
  simp [offer, hbusy]

/-- A CMD write offers its word, and is answered OKAY in both cases (R90, R91). -/
theorem hostStep_write32_cmd (ha : RegAddressOf s.cfg 0x008 a) (c : Word) :
    hostStep (.write32 a c) s = .next { offer c s with answer := some .okay } :=
  hostStep_write32_reg (r := .cmd) ha rfl rfl

end

/-! ### The length checks -/

/-- The length checks come first (R96): when one fails the command ends in BadLength and writes nothing else; when all pass it
stops with a fault, or completes with another code. -/
theorem exec_lengthsOk_cases (i : Instr) (s : State) :
    (lengthsOk i s = false ∧ exec i s = .next (complete .badLength s)) ∨
    (lengthsOk i s = true ∧ ((∃ f, exec i s = .fault f) ∨
      ∃ code u, code ≠ .badLength ∧ exec i s = .next (complete code u))) := by
  cases i with
  | ser =>
    rcases execSer_cases s with hfails | ⟨hok, f, _, e⟩ | ⟨hok, _, _, e⟩
    · exact .inl hfails
    · exact .inr ⟨hok, .inl ⟨f, e⟩⟩
    · exact .inr ⟨hok, .inr ⟨.ok, _, nofun, e⟩⟩
  | des =>
    rcases execDes_cases s with hfails | ⟨hok, _, e⟩ | ⟨hok, _, f, _, e⟩ | ⟨hok, _, _, _, e⟩
    · exact .inl hfails
    · exact .inr ⟨hok, .inr ⟨.malformedBitLength, _, nofun, e⟩⟩
    · exact .inr ⟨hok, .inl ⟨f, e⟩⟩
    · exact .inr ⟨hok, .inr ⟨.ok, _, nofun, e⟩⟩
  | xor =>
    rcases execXor_cases s with hfails | ⟨hok, f, _, e⟩ | ⟨hok, _, _, _, _, e⟩
    · exact .inl hfails
    · exact .inr ⟨hok, .inl ⟨f, e⟩⟩
    · exact .inr ⟨hok, .inr ⟨.ok, _, nofun, e⟩⟩
  | frame =>
    rcases execFrame_cases s with hfails | ⟨hok, f, _, e⟩ | ⟨hok, _, _, _, _, e⟩
    · exact .inl hfails
    · exact .inr ⟨hok, .inl ⟨f, e⟩⟩
    · exact .inr ⟨hok, .inr ⟨.ok, _, nofun, e⟩⟩
  | find =>
    rcases execFind_cases s with hfails | ⟨hok, f, _, e⟩ | ⟨hok, _, _, _, e⟩ | ⟨hok, _, _, _, _, e⟩
    · exact .inl hfails
    · exact .inr ⟨hok, .inl ⟨f, e⟩⟩
    · exact .inr ⟨hok, .inr ⟨.ok, _, nofun, e⟩⟩
    · exact .inr ⟨hok, .inr ⟨.ok, _, nofun, e⟩⟩
  | embed =>
    rcases execEmbed_cases s with hfails | ⟨hok, _, e⟩ | ⟨hok, _, _, e⟩ | ⟨hok, _, _, f, _, e⟩ |
      ⟨hok, _, _, _, _, _, _, _, _, e⟩
    · exact .inl hfails
    · exact .inr ⟨hok, .inr ⟨.capacityExceeded, _, nofun, e⟩⟩
    · exact .inr ⟨hok, .inr ⟨.emptyMessage, _, nofun, e⟩⟩
    · exact .inr ⟨hok, .inl ⟨f, e⟩⟩
    · exact .inr ⟨hok, .inr ⟨.ok, _, nofun, e⟩⟩
  | extract =>
    rcases execExtract_cases s with hfails | ⟨hok, _, e⟩ | ⟨hok, _, e⟩ | ⟨hok, _, _, f, _, _, e⟩ | ⟨hok, _, _, _, _, _, e⟩
    · exact .inl hfails
    · exact .inr ⟨hok, .inl ⟨_, e⟩⟩
    · exact .inr ⟨hok, .inr ⟨.markerNotFound, _, nofun, e⟩⟩
    · exact .inr ⟨hok, .inl ⟨f, e⟩⟩
    · exact .inr ⟨hok, .inr ⟨.ok, _, nofun, e⟩⟩

/-! ### The obligations -/

/-- Settles O48: the checks are those of R96's table by `lengthsOk_iff`, and `exec_lengthsOk_cases` says what each answer brings. -/
theorem badLengthExactlyWhenACheckFails : Obligations.BadLengthExactlyWhenACheckFails := by
  unfold Obligations.BadLengthExactlyWhenACheckFails
  intro i s
  rw [← lengthsOk_iff]
  rcases exec_lengthsOk_cases i s with ⟨hfails, e⟩ | ⟨hok, ⟨f, e⟩ | ⟨code, u, hcode, e⟩⟩
  · exact ⟨fun _ => e, fun hok => by simp [hfails] at hok⟩
  · exact ⟨fun hfails => absurd hok hfails, fun _ t ht => by simp [e] at ht⟩
  · refine ⟨fun hfails => absurd hok hfails, fun _ t ht => ?_⟩
    rw [e] at ht
    cases ht
    exact hcode

/-- Settles O7: an Illegal word leaves only the last case of `engineTurn_cases`. -/
theorem illegalWordCompletesWithIllegalCommand : Obligations.IllegalWordCompletesWithIllegalCommand := by
  unfold Obligations.IllegalWordCompletesWithIllegalCommand
  intro s r hbusy hillegal
  rcases engineTurn_cases s with ⟨hidle, _⟩ | ⟨_, i, hd, _⟩ | ⟨_, _, _, hturn⟩
  · simp [hbusy] at hidle
  · simp [hillegal] at hd
  · exact hturn

/-- Settles O8: while idle the offered word is accepted. -/
theorem cmdWriteWhileIdleIsAccepted : Obligations.CmdWriteWhileIdleIsAccepted := by
  unfold Obligations.CmdWriteWhileIdleIsAccepted
  intro s a c hidle ha
  rw [hostStep_write32_cmd ha, offer_of_idle hidle, accept]

/-- Settles O9: while a command runs the offered word is dropped. -/
theorem cmdWriteWhileBusyIsDropped : Obligations.CmdWriteWhileBusyIsDropped := by
  unfold Obligations.CmdWriteWhileBusyIsDropped
  intro s a c hbusy ha
  rw [hostStep_write32_cmd ha, offer_of_busy hbusy]

end Sys2Proof.Machine
end

section
/-! PROOFS. The bit codec (41_bit_codec): SER writes the bit stream of MSG (R105, R106), DES packs the cells of BIT into bytes
(R108, R109), and each undoes the other (R110). -/

namespace Sys2Proof.Machine

/-! ### The codec as functions -/

theorem wholeBytes_bytesToBits (x : List Byte) : wholeBytes (bytesToBits x) = x := by
  simpa [wholeBytes_of_lt] using wholeBytes_bytesToBits_append x []

theorem bitsToBytes_of_mod {b : List Bool} (h : b.length % 8 = 0) : bitsToBytes b = some (wholeBytes b) :=
  if_pos h

theorem bytesToBits_wholeBytes_of_mod {b : List Bool} (h : b.length % 8 = 0) : bytesToBits (wholeBytes b) = b := by
  rw [bytesToBits_wholeBytes, List.take_of_length_le (by omega)]

/-- Eight cells of a tabulated bit sequence, one after the other. -/
theorem take_drop_map_range (b : Nat → Bool) {n a : Nat} (h : a + 8 ≤ n) :
    (((List.range n).map b).drop a).take 8 =
      [b a, b (a + 1), b (a + 2), b (a + 3), b (a + 4), b (a + 5), b (a + 6), b (a + 7)] := by
  obtain ⟨m, rfl⟩ : ∃ m, n = a + (m + 8) := ⟨n - a - 8, by omega⟩
  simp [← List.map_drop, List.range_eq_range', List.drop_range', List.range'_succ]

/-- Byte `i` by its value (41_bit_codec R109). -/
theorem getElem?_wholeBytes_toNat (b : Nat → Bool) {n i : Nat} (h : i < n / 8) :
    ∃ v : Byte, (wholeBytes ((List.range n).map b))[i]? = some v ∧
      v.toNat = (b (8 * i)).toNat * 128 + (b (8 * i + 1)).toNat * 64 + (b (8 * i + 2)).toNat * 32 +
        (b (8 * i + 3)).toNat * 16 + (b (8 * i + 4)).toNat * 8 + (b (8 * i + 5)).toNat * 4 +
        (b (8 * i + 6)).toNat * 2 + (b (8 * i + 7)).toNat := by
  refine ⟨_, getElem?_wholeBytes _ i (by simpa using h), ?_⟩
  rw [take_drop_map_range b (by omega), toNat_bitsByte]

/-! ### The codec in the buffers -/

theorem read_writeFrom_zero {α : Type} (m : Store α) (x : List α) (k : Nat) :
    (m.writeFrom 0 x).read k = if k < x.length then x[k]? else m.read k := by
  simp [read_writeFrom]

/-- The cells after a write of a bit stream (41_bit_codec R106). -/
theorem read_writeFrom_bytesToBits (m : Store Bool) (x : Nat → Byte) (n k : Nat) :
    (m.writeFrom 0 (bytesToBits ((List.range n).map x))).read k =
      if k < 8 * n then some (streamBit x k) else m.read k := by
  rw [read_writeFrom_zero, length_bytesToBits, List.length_map, List.length_range, getElem?_bytesToBits]
  by_cases hk : k < 8 * n
  · have hdiv : k / 8 < n := by omega
    simp [hk, hdiv, streamBit]
  · rw [if_neg hk, if_neg hk]

/-- The bytes after a write of the whole bytes of `n` bits: inside the result, its bytes; past it, what stood there. -/
theorem read_writeFrom_wholeBytes (m : Memory) (b : Nat → Bool) (n i : Nat) :
    (m.writeFrom 0 (wholeBytes ((List.range n).map b))).read i =
      if i < n / 8 then (wholeBytes ((List.range n).map b))[i]? else m.read i := by
  rw [read_writeFrom_zero, length_wholeBytes, List.length_map, List.length_range]

/-! ### The operands as lists -/

section
variable {s : State}

theorem readMsg_of_holds {x : Nat → Byte} (h : Holds s.msg s.curMsgLen x) :
    readMsg s = .ok ((List.range s.curMsgLen).map x) :=
  (readMsg_ok s _).mpr ⟨by simp, fun i hi => by simp [h i hi, hi]⟩

theorem readBits_of_cells {b : Nat → Bool} (h : ∀ k, k < s.curBitLen → s.bit.read k = some (b k)) :
    readBits s = .ok ((List.range s.curBitLen).map b) :=
  (readBits_ok s _).mpr ⟨by simp, fun i hi => by simp [h i hi, hi]⟩

/-! ### The commands, by their checks and reads -/

theorem exec_ser_of_readMsg {x : List Byte} (hl : LengthsLegal .ser s) (hx : readMsg s = .ok x) :
    exec .ser s = .next (complete .ok { s with
      bit := s.bit.writeFrom 0 (bytesToBits x), bitLen := wordOf (8 * s.curMsgLen) }) := by
  rcases execSer_cases s with ⟨hfails, _⟩ | ⟨_, f, hf, _⟩ | ⟨_, y, hy, e⟩
  · simp [lengthsOk_iff.mpr hl] at hfails
  · simp [hx] at hf
  · cases hx.symm.trans hy
    exact e

theorem exec_des_of_readBits {b : List Bool} (hl : LengthsLegal .des s) (h8 : s.curBitLen % 8 = 0)
    (hb : readBits s = .ok b) :
    exec .des s = .next (complete .ok { s with
      out := s.out.writeFrom 0 (wholeBytes b), outLen := wordOf (s.curBitLen / 8) }) := by
  rcases execDes_cases s with ⟨hfails, _⟩ | ⟨_, hmod, _⟩ | ⟨_, _, f, hf, _⟩ | ⟨_, _, c, hc, e⟩
  · simp [lengthsOk_iff.mpr hl] at hfails
  · exact absurd h8 hmod
  · simp [hb] at hf
  · cases hb.symm.trans hc
    exact e

theorem exec_des_of_mod_ne (hl : LengthsLegal .des s) (h8 : s.curBitLen % 8 ≠ 0) :
    exec .des s = .next (complete .malformedBitLength s) := by
  rcases execDes_cases s with ⟨hfails, _⟩ | ⟨_, _, e⟩ | ⟨_, hmod, _⟩ | ⟨_, hmod, _⟩
  · simp [lengthsOk_iff.mpr hl] at hfails
  · exact e
  · exact absurd hmod h8
  · exact absurd hmod h8

/-! ### Lengths fit in a register -/

/-- BIT_LEN as SER writes it does not wrap (00_scope R12). -/
theorem toNat_wordOf_serBitLen (hl : LengthsLegal .ser s) : (wordOf (8 * s.curMsgLen)).toNat = 8 * s.curMsgLen := by
  have hcap : s.curMsgLen ≤ s.cfg.msgCap := hl
  have := config_bounds s.cfg
  exact toNat_wordOf (by omega)

/-- OUT_LEN as DES writes it does not wrap. -/
theorem toNat_wordOf_desOutLen (s : State) : (wordOf (s.curBitLen / 8)).toNat = s.curBitLen / 8 :=
  toNat_wordOf (Nat.lt_of_le_of_lt (Nat.div_le_self _ _) s.cur.bitLen.isLt)

/-! ### DES after SER -/

/-- A SER that completes with its lengths legal has read the message. -/
theorem readMsg_of_exec_ser {t : State} (hl : LengthsLegal .ser s) (ht : exec .ser s = .next t) :
    ∃ x, readMsg s = .ok x := by
  rcases execSer_cases s with ⟨hfails, _⟩ | ⟨_, f, _, e⟩ | ⟨_, x, hx, _⟩
  · simp [lengthsOk_iff.mpr hl] at hfails
  · cases e.symm.trans ht
  · exact ⟨x, hx⟩

/-- BIT holds the stream of any legal message (00_scope R12). -/
theorem lengthsLegal_des_of_ser {u : State} (hl : LengthsLegal .ser s) (hcfg : u.cfg = s.cfg)
    (hn : u.curBitLen = 8 * s.curMsgLen) : LengthsLegal .des u := by
  have hcap : s.curMsgLen ≤ s.cfg.msgCap := hl
  have := config_bounds s.cfg
  show u.curBitLen ≤ u.cfg.bitCap
  rw [hn, hcfg]
  omega

/-- The cells and BIT_LEN that SER leaves are what DES reads (R110). -/
theorem readBits_of_ser {t u : State} {x : List Byte} (hl : LengthsLegal .ser s) (hx : readMsg s = .ok x)
    (ht : exec .ser s = .next t) (hbit : ∀ k, u.bit.read k = t.bit.read k) (hlen : u.cur.bitLen = t.bitLen) :
    u.curBitLen = 8 * s.curMsgLen ∧ readBits u = .ok (bytesToBits x) := by
  rw [exec_ser_of_readMsg hl hx] at ht
  cases ht
  have hn : u.curBitLen = 8 * s.curMsgLen := by rw [State.curBitLen, hlen]; exact toNat_wordOf_serBitLen hl
  obtain ⟨hxlen, _⟩ := (readMsg_ok s x).mp hx
  refine ⟨hn, (readBits_ok u _).mpr ⟨by simp [hn, hxlen], fun k hk => ?_⟩⟩
  rw [hbit, complete_bit, read_writeFrom_zero, if_pos (by simp; omega)]

end

/-! ### The obligations -/

/-- Settles O29: the cells are those of `read_writeFrom_bytesToBits`. -/
theorem serWritesTheBitStream : Obligations.SerWritesTheBitStream := by
  unfold Obligations.SerWritesTheBitStream
  refine ⟨decode_encode .ser, fun s x hl hx => ?_, fun s hl =>
    (badLengthExactlyWhenACheckFails .ser s).1 (Nat.not_le.mpr hl)⟩
  refine ⟨_, exec_ser_of_readMsg hl (readMsg_of_holds hx), (RowWrite.ser _ _).completes s, toNat_wordOf_serBitLen hl,
    read_writeFrom_bytesToBits s.bit x s.curMsgLen, ⟨fun _ => rfl, rfl⟩, fun _ => rfl, ⟨rfl, rfl⟩, rfl⟩

/-- Settles O30: the written bytes are `getElem?_wholeBytes_toNat` of the cells. -/
theorem desWritesTheBytes : Obligations.DesWritesTheBytes := by
  unfold Obligations.DesWritesTheBytes
  refine ⟨decode_encode .des, fun s b hl h8 hb => ?_, fun s hl =>
    (badLengthExactlyWhenACheckFails .des s).1 (Nat.not_le.mpr hl), fun s => exec_des_of_mod_ne⟩
  refine ⟨_, exec_des_of_readBits hl h8 (readBits_of_cells hb), (RowWrite.out (.inl rfl) _ _).completes s,
    toNat_wordOf_desOutLen s, fun i hi => ?_, fun i hi => ?_, ⟨fun _ => rfl, rfl⟩, fun _ => rfl, ⟨rfl, rfl⟩, rfl⟩
  · obtain ⟨v, hv, hval⟩ := getElem?_wholeBytes_toNat b hi
    exact ⟨v, ((read_writeFrom_wholeBytes s.out b _ i).trans (if_pos hi)).trans hv, hval⟩
  · exact (read_writeFrom_wholeBytes s.out b _ i).trans (if_neg (Nat.not_lt.mpr hi))

/-- Settles O31: DES reads the stream SER wrote (`readBits_of_ser`), and its whole bytes are the message. -/
theorem codecRoundTrips : Obligations.CodecRoundTrips := by
  unfold Obligations.CodecRoundTrips
  refine ⟨fun x => ?_, fun b h8 => ⟨_, bitsToBytes_of_mod h8, bytesToBits_wholeBytes_of_mod h8⟩,
    fun s t u hl ht hcfg hbit hlen => ?_⟩
  · rw [bitsToBytes_of_mod (by simp), wholeBytes_bytesToBits]
  · obtain ⟨x, hx⟩ := readMsg_of_exec_ser hl ht
    obtain ⟨hn, hbits⟩ := readBits_of_ser hl hx ht hbit hlen
    obtain ⟨hxlen, hmsg⟩ := (readMsg_ok s x).mp hx
    refine ⟨_, exec_des_of_readBits (lengthsLegal_des_of_ser hl hcfg hn) (by omega) hbits, rfl, ?_, fun i hi => ?_⟩
    · rw [complete_outLen, hn, Nat.mul_div_cancel_left _ (by decide)]
      simp [wordOf, State.curMsgLen]
    · rw [complete_out, read_writeFrom_zero, wholeBytes_bytesToBits, if_pos (hxlen ▸ hi)]
      exact (hmsg i hi).symm

end Sys2Proof.Machine
end

section
/-! PROOFS. The Obfuscation Cipher (42_cipher): `apply` by value on tabulated operands (R115, R116), XOR's completion, and the
involution of R117. -/

namespace Sys2Proof.Machine

/-! ### The cipher as a function -/

/-- The cycle of a password of `plen` bytes is that of the `min plen n` bytes a command reads, as far as `n` input bytes go
(R116). -/
theorem mod_min_of_lt {k n : Nat} (plen : Nat) (hk : k < n) : k % min plen n = k % plen := by
  by_cases h : plen ≤ n
  · rw [Nat.min_eq_left h]
  · rw [Nat.min_eq_right (by omega), Nat.mod_eq_of_lt hk, Nat.mod_eq_of_lt (by omega)]

/-- Byte `k` of the result, with only the password bytes a command reads (R115, R116). -/
theorem getElem?_apply_map_range (x p : Nat → Byte) (plen : Nat) {n k : Nat} (hk : k < n) :
    (apply ((List.range n).map x) ((List.range (min plen n)).map p))[k]? = some (cipherByte x p plen k) := by
  rw [getElem?_apply]
  by_cases h0 : plen = 0
  · simp [cipherByte, h0, hk]
  · have hmod : k % plen < min plen n :=
      Nat.lt_min.mpr ⟨Nat.mod_lt _ (by omega), Nat.lt_of_le_of_lt (Nat.mod_le _ _) hk⟩
    have hempty : (List.range (min plen n)).map p ≠ [] := List.ne_nil_of_length_pos (by simp; omega)
    simp [cipherByte, h0, hk, hempty, mod_min_of_lt plen hk, hmod]

theorem apply_nil_right (x : List Byte) : apply x [] = x := if_pos rfl

/-- Both applications XOR byte `k` with the same byte of the keystream (R117). -/
theorem apply_apply (x p : List Byte) : apply (apply x p) p = x := by
  by_cases h : p = []
  · rw [h, apply_nil_right, apply_nil_right]
  · refine List.ext_getElem? fun k => ?_
    rw [getElem?_apply, getElem?_apply, Option.map_map]
    simp [h, Function.comp_def]

/-! ### The password as a list, and XOR by its checks and reads -/

section
variable {s : State}

theorem readPwd_of_holds {p : Nat → Byte} {n : Nat} (h : Holds s.pwd (min s.curPwdLen n) p) :
    readPwd n s = .ok ((List.range (min s.curPwdLen n)).map p) :=
  (readPwd_ok n s _).mpr ⟨by simp, fun i hi => by simp [h i hi, Nat.lt_min.mp hi]⟩

theorem exec_xor_of_reads {x p : List Byte} (hl : LengthsLegal .xor s) (hx : readMsg s = .ok x)
    (hp : readPwd s.curMsgLen s = .ok p) :
    exec .xor s = .next (complete .ok { s with
      out := s.out.writeFrom 0 (apply x p), outLen := wordOf s.curMsgLen }) := by
  rcases execXor_cases s with ⟨hfails, _⟩ | ⟨_, f, hf | hf, _⟩ | ⟨_, y, q, hy, hq, e⟩
  · simp [lengthsOk_iff.mpr hl] at hfails
  · simp [hx] at hf
  · simp [hp] at hf
  · cases hx.symm.trans hy
    cases hp.symm.trans hq
    exact e

end

/-- The bytes after a write of the result: inside it, the cipher bytes; past it, what stood there. -/
theorem read_writeFrom_apply (m : Memory) (x p : Nat → Byte) (plen n a : Nat) :
    (m.writeFrom 0 (apply ((List.range n).map x) ((List.range (min plen n)).map p))).read a =
      if a < n then some (cipherByte x p plen a) else m.read a := by
  rw [read_writeFrom_zero, length_apply, List.length_map, List.length_range]
  by_cases ha : a < n
  · rw [if_pos ha, if_pos ha, getElem?_apply_map_range x p plen ha]
  · rw [if_neg ha, if_neg ha]

/-- A latched MSG_LEN is a register value, so its count is that value again. -/
theorem wordOf_curMsgLen (s : State) : wordOf s.curMsgLen = s.cur.msgLen := by
  simp [wordOf, State.curMsgLen]

/-! ### The obligations -/

/-- Settles O34, by `apply_apply` and `apply_nil_right`. -/
theorem cipherIsAnInvolution : Obligations.CipherIsAnInvolution := by
  unfold Obligations.CipherIsAnInvolution
  exact ⟨apply_apply, apply_nil_right⟩

/-- Settles O33: OUT is that of `read_writeFrom_apply`, and a failed check is one of R96's table. -/
theorem xorAppliesTheKeystream : Obligations.XorAppliesTheKeystream := by
  unfold Obligations.XorAppliesTheKeystream
  refine ⟨decode_encode .xor, fun s x p hmsg hpwd hx hp => ?_, fun s hlong =>
    (badLengthExactlyWhenACheckFails .xor s).1 fun ⟨hmsg, hpwd⟩ => by omega⟩
  refine ⟨_, exec_xor_of_reads ⟨hmsg, hpwd⟩ (readMsg_of_holds hx) (readPwd_of_holds hp),
    (RowWrite.out (.inr (.inl rfl)) _ _).completes s, wordOf_curMsgLen s,
    read_writeFrom_apply s.out x p s.curPwdLen s.curMsgLen, ⟨fun _ => rfl, rfl⟩, fun _ => rfl, ⟨rfl, rfl⟩, rfl⟩

end Sys2Proof.Machine
end

section
/-! PROOFS. The Payload Framer (43_framer): the framed payload by value (R122), the marker search on tabulated bytes (R125, R126),
and the collision condition of framing and then finding (R131, R132). -/

namespace Sys2Proof.Machine

/-! ### Tabulated bytes -/

/-- The bytes after a write of `n` tabulated bytes: inside the table, its bytes; past it, what stood there. -/
theorem read_writeFrom_map_range (m : Memory) (x : Nat → Byte) (n a : Nat) :
    (m.writeFrom 0 ((List.range n).map x)).read a = if a < n then some (x a) else m.read a := by
  rw [read_writeFrom_zero, List.length_map, List.length_range]
  by_cases ha : a < n
  · simp [ha]
  · rw [if_neg ha, if_neg ha]

theorem marker_eq_map_range : marker = (List.range 9).map fun j => marker.getD j 0 := by decide

/-! ### The framed payload -/

/-- The obfuscated message as a table, with only the password bytes a command reads (R116). -/
theorem apply_map_range (x p : Nat → Byte) (plen n : Nat) :
    apply ((List.range n).map x) ((List.range (min plen n)).map p) = (List.range n).map (cipherByte x p plen) := by
  refine List.ext_getElem (by simp) fun k hk _ => ?_
  have hkn : k < n := by simpa using hk
  simpa using (List.getElem_eq_iff hk).mpr (getElem?_apply_map_range x p plen hkn)

/-- The framed payload as a table: the message's bytes, then the marker's (R122). -/
theorem frame_map_range (x p : Nat → Byte) (plen n : Nat) :
    frame ((List.range n).map x) ((List.range (min plen n)).map p) =
      (List.range (n + 9)).map (payloadByte x p plen n) := by
  rw [frame, apply_map_range, List.range_add, List.map_append, List.map_map]
  congr 1
  · exact List.map_congr_left fun k hk => (if_pos (List.mem_range.mp hk)).symm
  · rw [marker_eq_map_range]
    exact List.map_congr_left fun k _ => by simp [payloadByte]

/-! ### The marker search on tabulated bytes -/

/-- Nine bytes cut out of `n` tabulated ones are the marker exactly when it stands there, all of it. -/
theorem take_drop_map_range_eq_marker (x : Nat → Byte) (n i : Nat) :
    (((List.range n).map x).drop i).take marker.length = marker ↔ i + 9 ≤ n ∧ MarkerAt x i := by
  by_cases hi : i + 9 ≤ n
  · have hcut : (((List.range n).map x).drop i).take marker.length = (List.range 9).map fun j => x (i + j) := by
      refine List.ext_getElem (by simp; omega) fun j hj _ => ?_
      simp
    rw [hcut]
    conv_lhs => rw [marker_eq_map_range]
    simp [MarkerAt, hi]
  · refine ⟨fun h => ?_, fun h => absurd h.1 hi⟩
    have hlen : min 9 (n - i) = 9 := by simpa using congrArg List.length h
    omega

theorem firstIndex_map_range_eq_some {x : Nat → Byte} {n i : Nat} (hi : i + 9 ≤ n) (hat : MarkerAt x i)
    (hfirst : ∀ j, j < i → ¬ MarkerAt x j) : firstIndex marker ((List.range n).map x) = some i := by
  rw [firstIndex_eq_some]
  refine ⟨⟨by simp; omega, (take_drop_map_range_eq_marker x n i).mpr ⟨hi, hat⟩⟩, fun j hj h => ?_⟩
  exact hfirst j hj ((take_drop_map_range_eq_marker x n j).mp h).2

theorem firstIndex_map_range_eq_none {x : Nat → Byte} {n : Nat} (hnone : ∀ i, i + 9 ≤ n → ¬ MarkerAt x i) :
    firstIndex marker ((List.range n).map x) = none := by
  rw [firstIndex_eq_none]
  intro j _ h
  obtain ⟨hj, hat⟩ := (take_drop_map_range_eq_marker x n j).mp h
  exact hnone j hj hat

/-- The stripped bytes are those before the first marker (R125). -/
theorem findAndStrip_map_range_eq_some {x : Nat → Byte} {n i : Nat} (hi : i + 9 ≤ n) (hat : MarkerAt x i)
    (hfirst : ∀ j, j < i → ¬ MarkerAt x j) :
    findAndStrip ((List.range n).map x) = some ((List.range i).map x) := by
  refine (findAndStrip_eq_some _ _).mpr ⟨i, firstIndex_map_range_eq_some hi hat hfirst, ?_⟩
  rw [← List.map_take, List.take_range, Nat.min_eq_left (by omega)]

theorem findAndStrip_map_range_eq_none {x : Nat → Byte} {n : Nat} (hnone : ∀ i, i + 9 ≤ n → ¬ MarkerAt x i) :
    findAndStrip ((List.range n).map x) = none :=
  (findAndStrip_eq_none _).mpr (firstIndex_map_range_eq_none hnone)

/-! ### The commands, by their checks and reads -/

section
variable {s : State}

theorem exec_frame_of_reads {x p : List Byte} (hl : LengthsLegal .frame s) (hx : readMsg s = .ok x)
    (hp : readPwd s.curMsgLen s = .ok p) :
    exec .frame s = .next (complete .ok { s with
      out := s.out.writeFrom 0 (frame x p), outLen := wordOf (s.curMsgLen + markerLen) }) := by
  rcases execFrame_cases s with ⟨hfails, _⟩ | ⟨_, f, hf | hf, _⟩ | ⟨_, y, q, hy, hq, e⟩
  · simp [lengthsOk_iff.mpr hl] at hfails
  · simp [hx] at hf
  · simp [hp] at hf
  · cases hx.symm.trans hy
    cases hp.symm.trans hq
    exact e

theorem exec_find_of_some {x y : List Byte} (hl : LengthsLegal .find s) (hx : readMsg s = .ok x)
    (hy : findAndStrip x = some y) :
    exec .find s = .next (complete .ok { s with
      out := s.out.writeFrom 0 y, outLen := wordOf y.length, found := true }) := by
  rcases execFind_cases s with ⟨hfails, _⟩ | ⟨_, f, hf, _⟩ | ⟨_, z, hz, hnone, _⟩ | ⟨_, z, w, hz, hw, e⟩
  · simp [lengthsOk_iff.mpr hl] at hfails
  · simp [hx] at hf
  · cases hx.symm.trans hz
    cases hy.symm.trans hnone
  · cases hx.symm.trans hz
    cases hy.symm.trans hw
    exact e

theorem exec_find_of_none {x : List Byte} (hl : LengthsLegal .find s) (hx : readMsg s = .ok x)
    (hnone : findAndStrip x = none) : exec .find s = .next (complete .ok { s with outLen := 0 }) := by
  rcases execFind_cases s with ⟨hfails, _⟩ | ⟨_, f, hf, _⟩ | ⟨_, _, _, _, e⟩ | ⟨_, z, w, hz, hw, _⟩
  · simp [lengthsOk_iff.mpr hl] at hfails
  · simp [hx] at hf
  · exact e
  · cases hx.symm.trans hz
    cases hnone.symm.trans hw

/-- OUT_LEN as FRAME writes it does not wrap (00_scope R12). -/
theorem toNat_wordOf_frameOutLen (hcap : s.curMsgLen ≤ s.cfg.msgCap) :
    (wordOf (s.curMsgLen + markerLen)).toNat = s.curMsgLen + 9 := by
  have := config_bounds s.cfg
  exact toNat_wordOf (n := s.curMsgLen + 9) (by omega)

/-- OUT_LEN as FIND writes it does not wrap: it strips at most MSG_LEN bytes. -/
theorem toNat_wordOf_findOutLen {i : Nat} (hi : i ≤ s.curMsgLen) : (wordOf i).toNat = i :=
  toNat_wordOf (Nat.lt_of_le_of_lt hi s.cur.msgLen.isLt)

end

/-! ### Marker collision -/

/-- The borders of the marker (R132): its first `k` bytes, put before a whole marker, make one that starts in them exactly when
`k` is 6, 7 or 8. -/
theorem marker_prefix_take_append_iff :
    ∀ k, k < 9 → k ≠ 0 → (marker <+: marker.take k ++ marker ↔ k = 6 ∨ k = 7 ∨ k = 8) := by
  decide

/-- A marker that starts in the last bytes `z` of a message lies in them, or ends in the appended marker (R132). -/
theorem marker_prefix_append_iff {z : List Byte} (hz : z ≠ []) :
    marker <+: z ++ marker ↔ marker <+: z ∨ z = marker.take 6 ∨ z = marker.take 7 ∨ z = marker.take 8 := by
  constructor
  · intro h
    by_cases hlen : 9 ≤ z.length
    · exact .inl (List.prefix_of_prefix_length_le h (List.prefix_append _ _) hlen)
    · have hcut : z = marker.take z.length := List.prefix_iff_eq_take.mp
        (List.prefix_of_prefix_length_le (List.prefix_append z _) h (by rw [length_marker]; omega))
      rw [hcut, marker_prefix_take_append_iff _ (by omega) (by simpa using hz)] at h
      rcases h with h | h | h <;> rw [h] at hcut <;> simp [hcut]
  · rintro (h | rfl | rfl | rfl)
    · exact h.trans (List.prefix_append _ _)
    all_goals decide

/-- A message is free of collisions exactly when no marker starts in it once the marker is appended (R131, R132). -/
theorem collisionFree_iff (y : List Byte) :
    CollisionFree y ↔ ∀ z, z ≠ [] → z <:+ y → ¬ marker <+: z ++ marker := by
  constructor
  · rintro ⟨hin, h6, h7, h8⟩ z hz hzy h
    rcases (marker_prefix_append_iff hz).mp h with h | rfl | rfl | rfl
    · exact hin (List.infix_iff_prefix_suffix.mpr ⟨z, h, hzy⟩)
    · exact h6 hzy
    · exact h7 hzy
    · exact h8 hzy
  · intro h
    refine ⟨fun hin => ?_, fun h6 => h _ (by decide) h6 (by decide), fun h7 => h _ (by decide) h7 (by decide),
      fun h8 => h _ (by decide) h8 (by decide)⟩
    obtain ⟨z, hmz, hzy⟩ := List.infix_iff_prefix_suffix.mp hin
    exact h z (hmz.ne_nil (by decide)) hzy (hmz.trans (List.prefix_append _ _))

/-- The appended marker is the first one exactly when none starts before it (R131). -/
theorem firstIndex_append_marker_iff (y : List Byte) :
    firstIndex marker (y ++ marker) = some y.length ↔ ∀ z, z ≠ [] → z <:+ y → ¬ marker <+: z ++ marker := by
  rw [firstIndex_eq_some]
  constructor
  · rintro ⟨_, hfirst⟩ z hz ⟨w, rfl⟩ h
    refine hfirst w.length (by simpa using List.length_pos_iff.mpr hz) ?_
    rw [List.append_assoc, List.drop_left]
    exact (List.prefix_iff_eq_take.mp h).symm
  · intro h
    refine ⟨by simp, fun j hj he => ?_⟩
    rw [List.drop_append_of_le_length hj.le] at he
    exact h (y.drop j) (by simpa using hj) (List.drop_suffix j y) (List.prefix_iff_eq_take.mpr he.symm)

/-- The bytes before the first marker are the whole message exactly when that marker is the appended one (R131). -/
theorem findAndStrip_append_marker_eq_some_iff (y : List Byte) :
    findAndStrip (y ++ marker) = some y ↔ firstIndex marker (y ++ marker) = some y.length := by
  rw [findAndStrip_eq_some]
  constructor
  · rintro ⟨i, hi, hy⟩
    have hle := firstIndex_le hi
    have hlen := congrArg List.length hy
    rw [List.length_append, length_marker] at hle
    rw [List.length_take, List.length_append] at hlen
    rw [hi, show i = y.length by omega]
  · exact fun h => ⟨_, h, by simp⟩

/-! ### The obligations -/

/-- Settles O38: the collision condition excludes every marker before the appended one (`collisionFree_iff`). -/
theorem frameThenFindCollisionCondition : Obligations.FrameThenFindCollisionCondition := by
  unfold Obligations.FrameThenFindCollisionCondition
  intro m p
  rw [frame, findAndStrip_append_marker_eq_some_iff, firstIndex_append_marker_iff, collisionFree_iff]

/-- Settles O36: OUT is the table of `frame_map_range`, and a failed check is one of R96's table. -/
theorem frameAppendsTheMarker : Obligations.FrameAppendsTheMarker := by
  unfold Obligations.FrameAppendsTheMarker
  refine ⟨decode_encode .frame, fun s x p hmsg hpwd hx hp => ?_, fun s hlong =>
    (badLengthExactlyWhenACheckFails .frame s).1 fun ⟨hmsg, hpwd⟩ => by omega⟩
  refine ⟨_, exec_frame_of_reads ⟨hmsg, hpwd⟩ (readMsg_of_holds hx) (readPwd_of_holds hp),
    (RowWrite.out (.inr (.inr rfl)) _ _).completes s, toNat_wordOf_frameOutLen hmsg,
    fun a => ?_, ⟨fun _ => rfl, rfl⟩, fun _ => rfl, ⟨rfl, rfl⟩, rfl⟩
  rw [complete_out, frame_map_range]
  exact read_writeFrom_map_range s.out _ (s.curMsgLen + 9) a

/-- Settles O37: the search gives the bytes before the first marker, which `read_writeFrom_map_range` finds in OUT, or none, and
then OUT is not written. -/
theorem findCopiesUpToTheFirstMarker : Obligations.FindCopiesUpToTheFirstMarker := by
  unfold Obligations.FindCopiesUpToTheFirstMarker
  refine ⟨decode_encode .find, fun s x i hmsg hx hi hat hfirst => ?_, fun s x hmsg hx hnone => ?_, fun s hlong =>
    (badLengthExactlyWhenACheckFails .find s).1 (Nat.not_le.mpr hlong)⟩
  · refine ⟨_, exec_find_of_some hmsg (readMsg_of_holds hx) (findAndStrip_map_range_eq_some hi hat hfirst),
      (RowWrite.find _ _).completes s, rfl, ?_, read_writeFrom_map_range s.out x i, ⟨fun _ => rfl, rfl⟩, fun _ => rfl,
      ⟨rfl, rfl⟩⟩
    rw [complete_outLen, List.length_map, List.length_range]
    exact toNat_wordOf_findOutLen (show i ≤ s.cur.msgLen.toNat by omega)
  · exact ⟨_, exec_find_of_none hmsg (readMsg_of_holds hx) (findAndStrip_map_range_eq_none hnone),
      RowWrite.findNothing.completes s, rfl, rfl, fun _ => rfl, ⟨fun _ => rfl, rfl⟩, fun _ => rfl, ⟨rfl, rfl⟩⟩

end Sys2Proof.Machine
end

section
/-! PROOFS. The Embedding Engine (44_embed): the framed stream and its slots (R139), what the pixel walk keeps (R141, R144), and
EMBED's completions in the order of its checks (R138). -/

namespace Sys2Proof.Machine

/-! ### The framed stream -/

theorem length_bytesToBits_frame (x p : List Byte) : (bytesToBits (frame x p)).length = requiredBits x.length := by
  simp [frame, requiredBits]

/-- Stream bit `k` of the framed payload, with only the password bytes a command reads (41_bit_codec R106). -/
theorem getElem?_bytesToBits_frame (x p : Nat → Byte) (plen : Nat) {n k : Nat} (hk : k < 8 * (n + 9)) :
    (bytesToBits (frame ((List.range n).map x) ((List.range (min plen n)).map p)))[k]? =
      some (streamBit (payloadByte x p plen n) k) := by
  have hdiv : k / 8 < n + 9 := by omega
  simp [frame_map_range, getElem?_bytesToBits, hdiv, streamBit]

/-- The LSB write as R140 puts it. -/
theorem withLsb_eq (v : Byte) (b : Bool) : withLsb v b = (v &&& 0xFE) ||| if b then 1 else 0 := by
  cases b <;> rfl

/-! ### Slots and the pixel walk -/

/-- An alpha byte is no slot, and the offset of a slot gives its number back (R139). -/
theorem ne_slotOffset {a k L : Nat} (h : a % 4 = 3 ∨ L ≤ 3 * (a / 4) + a % 4) (hk : k < L) : a ≠ slotOffset k := by
  unfold slotOffset
  omega

/-- A byte at or beyond PIX_LEN stands past the last slot (R35, R139). -/
theorem capacityOf_le_of_le {n a : Nat} (h4 : n % 4 = 0) (h : n ≤ a) : capacityOf n ≤ 3 * (a / 4) + a % 4 := by
  unfold capacityOf
  omega

section
variable {pix pix' : Memory} {b : List Bool}

/-- The walk finishes when every sample it reads is written. -/
theorem exists_embedWalk_eq_some {v : Nat → Byte} (h : ∀ k, k < b.length → pix.read (slotOffset k) = some (v k)) :
    ∃ pix', embedWalk pix 0 b = some pix' := by
  refine Option.ne_none_iff_exists'.mp fun hnone => ?_
  obtain ⟨k, hk, hunwritten⟩ := (embedWalk_eq_none pix 0 b).mp hnone
  rw [Nat.zero_add, h k hk] at hunwritten
  cases hunwritten

variable (hw : embedWalk pix 0 b = some pix')
include hw

/-- A walk writes each of its bits into the LSB of the bit's slot (R140). -/
theorem read_embedWalk_slot {k : Nat} {c : Bool} (hc : b[k]? = some c) :
    pix'.read (slotOffset k) = (pix.read (slotOffset k)).map (withLsb · c) := by
  simpa using (read_embedWalk hw).1 k c hc

/-- A walk of at most `L` bits changes no alpha byte and no slot from `L` on (R141). -/
theorem read_embedWalk_of_past {L a : Nat} (hL : b.length ≤ L) (h : a % 4 = 3 ∨ L ≤ 3 * (a / 4) + a % 4) :
    pix'.read a = pix.read a :=
  (read_embedWalk hw).2 a fun k hk => by simpa using ne_slotOffset h (Nat.lt_of_lt_of_le hk hL)

/-- A walk keeps bits [7:1] of every byte, and writes no unwritten one (R144). -/
theorem read_embedWalk_upper (a : Nat) : (pix'.read a).map (· &&& 0xFE) = (pix.read a).map (· &&& 0xFE) := by
  by_cases hslot : ∃ k, k < b.length ∧ a = slotOffset k
  · obtain ⟨k, hk, rfl⟩ := hslot
    rw [read_embedWalk_slot hw (List.getElem?_eq_getElem hk), Option.map_map]
    exact congrArg (Option.map · _) (funext fun v => withLsb_upper v _)
  · rw [(read_embedWalk hw).2 a fun k hk ha => hslot ⟨k, hk, by simpa using ha⟩]

end

/-! ### EMBED, by its checks and reads -/

section
variable {s : State}

/-- REQ_BITS as EMBED writes it does not wrap (00_scope R12). -/
theorem toNat_wordOf_requiredBits (hcap : s.curMsgLen ≤ s.cfg.msgCap) :
    (wordOf (requiredBits s.curMsgLen)).toNat = 8 * (s.curMsgLen + 9) := by
  have := config_bounds s.cfg
  exact toNat_wordOf (n := 8 * (s.curMsgLen + 9)) (by omega)

theorem exec_embed_of_capacity_lt (hl : LengthsLegal .embed s)
    (hc : capacityOf s.curPixLen < requiredBits s.curMsgLen) :
    exec .embed s = .next (complete .capacityExceeded { s with
      reqBits := wordOf (requiredBits s.curMsgLen), bitsDone := 0 }) := by
  rcases execEmbed_cases s with ⟨hfails, _⟩ | ⟨_, _, e⟩ | ⟨_, hfits, _⟩ | ⟨_, hfits, _⟩ | ⟨_, hfits, _⟩
  · simp [lengthsOk_iff.mpr hl] at hfails
  · exact e
  all_goals omega

theorem exec_embed_of_empty (hl : LengthsLegal .embed s) (hfits : requiredBits s.curMsgLen ≤ capacityOf s.curPixLen)
    (h0 : s.curMsgLen = 0) :
    exec .embed s = .next (complete .emptyMessage { s with
      reqBits := wordOf (requiredBits s.curMsgLen), bitsDone := 0 }) := by
  rcases execEmbed_cases s with ⟨hfails, _⟩ | ⟨_, hc, _⟩ | ⟨_, _, _, e⟩ | ⟨_, _, hne, _⟩ | ⟨_, _, hne, _⟩
  · simp [lengthsOk_iff.mpr hl] at hfails
  · omega
  · exact e
  all_goals exact absurd h0 hne

theorem exec_embed_of_walk {x p : List Byte} {pix : Memory} (hl : LengthsLegal .embed s)
    (hfits : requiredBits s.curMsgLen ≤ capacityOf s.curPixLen) (hne : s.curMsgLen ≠ 0) (hx : readMsg s = .ok x)
    (hp : readPwd s.curMsgLen s = .ok p) (hw : embedWalk s.pix 0 (bytesToBits (frame x p)) = some pix) :
    exec .embed s = .next (complete .ok { s with
      pix := pix, reqBits := wordOf (requiredBits s.curMsgLen), bitsDone := wordOf (requiredBits s.curMsgLen) }) := by
  rcases execEmbed_cases s with ⟨hfails, _⟩ | ⟨_, hc, _⟩ | ⟨_, _, h0, _⟩ |
    ⟨_, _, _, f, hf | hf | ⟨_, y, q, hy, hq, hnone⟩, _⟩ | ⟨_, _, _, y, q, pix', hy, hq, hw', e⟩
  · simp [lengthsOk_iff.mpr hl] at hfails
  · omega
  · exact absurd h0 hne
  · simp [hx] at hf
  · simp [hp] at hf
  · cases hx.symm.trans hy
    cases hp.symm.trans hq
    cases hw.symm.trans hnone
  · cases hx.symm.trans hy
    cases hp.symm.trans hq
    cases hw.symm.trans hw'
    exact e

/-- A completion of EMBED failed and left PIX alone, or its lengths are legal and it walked no further than CAPACITY. -/
theorem exec_embed_next_cases {t : State} (h : exec .embed s = .next t) :
    (t.err ≠ .ok ∧ t.pix = s.pix) ∨
    (t.err = .ok ∧ LengthsLegal .embed s ∧
      ∃ b, b.length ≤ capacityOf s.curPixLen ∧ embedWalk s.pix 0 b = some t.pix) := by
  rcases execEmbed_cases s with ⟨_, e⟩ | ⟨_, _, e⟩ | ⟨_, _, _, e⟩ | ⟨_, _, _, f, _, e⟩ |
    ⟨hok, hfits, _, x, p, pix, hx, _, hw, e⟩ <;> cases e.symm.trans h
  · exact .inl ⟨nofun, rfl⟩
  · exact .inl ⟨nofun, rfl⟩
  · exact .inl ⟨nofun, rfl⟩
  · obtain ⟨hlen, _⟩ := (readMsg_ok s x).mp hx
    exact .inr ⟨rfl, lengthsOk_iff.mp hok, _, by rw [length_bytesToBits_frame, hlen]; exact hfits, hw⟩

end

/-! ### The obligations -/

/-- Settles O39: the walk's stream is the tabulated payload, `read_embedWalk_slot` reads it back at its slots, and
`read_embedWalk_of_past` is the frame. -/
theorem embedWritesTheStreamIntoTheSlots : Obligations.EmbedWritesTheStreamIntoTheSlots := by
  unfold Obligations.EmbedWritesTheStreamIntoTheSlots
  intro s x p v hl hpos hfits hx hp hv
  have hmsg := readMsg_of_holds hx
  have hpwd : readPwd s.curMsgLen s = .ok _ := readPwd_of_holds hp
  have hlen := length_bytesToBits_frame ((List.range s.curMsgLen).map x) ((List.range (min s.curPwdLen s.curMsgLen)).map p)
  rw [List.length_map, List.length_range] at hlen
  obtain ⟨pix, hw⟩ := exists_embedWalk_eq_some (pix := s.pix) fun k hk => hv k (hk.trans_eq hlen)
  refine ⟨_, exec_embed_of_walk hl hfits (Nat.ne_of_gt hpos) hmsg hpwd hw, (RowWrite.embed _ _).completes s,
    toNat_wordOf_requiredBits hl.1, rfl, fun k hk => ?_, fun a ha => read_embedWalk_of_past hw hlen.le ha,
    ⟨fun _ => rfl, rfl⟩, ⟨fun _ => rfl, rfl⟩, rfl⟩
  have hbit := getElem?_bytesToBits_frame x p s.curPwdLen hk
  rw [← withLsb_eq]
  exact (read_embedWalk_slot hw hbit).trans (congrArg (Option.map _) (hv k hk))

/-- Settles O40: `exec_embed_of_capacity_lt` and `exec_embed_of_empty` give the failed checks past R96's table, and their write
is one of EMBED's row. -/
theorem embedChecksComeInOrder : Obligations.EmbedChecksComeInOrder := by
  unfold Obligations.EmbedChecksComeInOrder
  refine fun s => ⟨(badLengthExactlyWhenACheckFails .embed s).1, fun hl hc => ?_, fun hl hfits h0 => ?_⟩
  · exact ⟨_, exec_embed_of_capacity_lt hl hc, (RowWrite.embedFails (.inr rfl) _).completes s,
      toNat_wordOf_requiredBits hl.1, rfl, fun _ => rfl, ⟨fun _ => rfl, rfl⟩, ⟨fun _ => rfl, rfl⟩, rfl⟩
  · refine ⟨_, exec_embed_of_empty hl hfits h0, (RowWrite.embedFails (.inl rfl) _).completes s, ?_, rfl, fun _ => rfl,
      ⟨fun _ => rfl, rfl⟩, ⟨fun _ => rfl, rfl⟩, rfl⟩
    exact (toNat_wordOf_requiredBits hl.1).trans (congrArg (fun n => 8 * (n + 9)) h0)

/-- Settles O41: a completion changes PIX by a walk only (`exec_embed_next_cases`), which keeps the upper bits and ends before
CAPACITY. -/
theorem embedChangesOnlyBitZeroOfColourSamples : Obligations.EmbedChangesOnlyBitZeroOfColourSamples := by
  unfold Obligations.EmbedChangesOnlyBitZeroOfColourSamples
  intro s t h a
  rcases exec_embed_next_cases h with ⟨_, hpix⟩ | ⟨hok, ⟨_, _, _, h4⟩, b, hb, hw⟩
  · rw [hpix]
    exact ⟨rfl, fun _ => rfl⟩
  · refine ⟨read_embedWalk_upper hw a, fun ha => read_embedWalk_of_past hw hb ?_⟩
    rcases ha with halpha | hbeyond | hfail
    · exact .inl halpha
    · exact .inr (capacityOf_le_of_le h4 hbeyond)
    · exact absurd hok hfail

end Sys2Proof.Machine
end

section
/-! PROOFS. The Extraction Engine (45_extract): the LSBs of slots that carry a stream (R151, R152), EXTRACT's two ways to end
(R156, R157), and the round trip through EMBED under any second password (R161, R162). -/

namespace Sys2Proof.Machine

/-! ### The bytes a stream carries -/

/-- The stream of `m` tabulated bytes, bit by bit (41_bit_codec R106). -/
theorem map_range_streamBit (y : Nat → Byte) (m : Nat) :
    (List.range (8 * m)).map (streamBit y) = bytesToBits ((List.range m).map y) := by
  refine List.ext_getElem? fun k => ?_
  rw [getElem?_bytesToBits]
  by_cases hk : k < 8 * m
  · have hdiv : k / 8 < m := by omega
    simp [hk, hdiv, streamBit]
  · have hdiv : m ≤ k / 8 := by omega
    simp [hdiv, Nat.not_lt.mp hk]

/-- Of `n` bits of a stream the whole bytes come back; the last `n mod 8` bits complete none (R159). -/
theorem wholeBytes_map_range_streamBit (y : Nat → Byte) (n : Nat) :
    wholeBytes ((List.range n).map (streamBit y)) = (List.range (n / 8)).map y := by
  have hlen : (wholeBytes ((List.range n).map (streamBit y))).length = n / 8 := by simp
  rw [← List.take_of_length_le hlen.le, ← wholeBytes_take, ← List.map_take, List.take_range,
    Nat.min_eq_left (Nat.mul_div_le n 8), map_range_streamBit, wholeBytes_bytesToBits]

/-! ### The LSBs of the slots -/

theorem lsbsAre_of_slotsCarry {pix : Memory} {n : Nat} {y : Nat → Byte} (h : SlotsCarry pix n y) :
    LsbsAre pix ((List.range n).map (streamBit y)) := by
  intro k hk
  have hkn : k < n := by simpa using hk
  simpa [hkn] using h k hkn

theorem lsbsAre_congr {pix pix' : Memory} {b : List Bool} (hpix : ∀ a, pix'.read a = pix.read a) (h : LsbsAre pix b) :
    LsbsAre pix' b :=
  fun k hk => (congrArg (Option.map lsb) (hpix _)).trans (h k hk)

/-- The bit EMBED wrote as stream bit `k` is the bit EXTRACT reads as accumulator bit `k` (R151). -/
theorem lsbsAre_of_embedWalk {pix pix' : Memory} {b : List Bool} (hw : embedWalk pix 0 b = some pix') :
    LsbsAre pix' b := by
  intro k hk
  have hwritten : pix.read (slotOffset k) ≠ none := fun hnone => by
    have hfail := (embedWalk_eq_none pix 0 b).mpr ⟨k, hk, by rwa [Nat.zero_add]⟩
    cases hfail.symm.trans hw
  obtain ⟨v, hv⟩ := Option.ne_none_iff_exists'.mp hwritten
  rw [read_embedWalk_slot hw (List.getElem?_eq_getElem hk), hv, List.getElem?_eq_getElem hk]
  simp [lsb_withLsb]

/-! ### The cipher over a cut password -/

/-- `apply` XORs byte `k` with the keystream's byte `k` (R116). -/
theorem getElem?_apply_keyByte (x p : List Byte) (k : Nat) : (apply x p)[k]? = (x[k]?).map (· ^^^ keyByte p k) := by
  rw [getElem?_apply]
  by_cases hp : p = [] <;> simp [keyByte, hp]

/-- As far as `n` input bytes go, only the first `n` password bytes make the keystream (R116). -/
theorem keyByte_take (p : List Byte) {n k : Nat} (hk : k < n) : keyByte (p.take n) k = keyByte p k := by
  by_cases hp : p = []
  · simp [hp]
  · have hpos : 0 < p.length := List.length_pos_iff.mpr hp
    have hcut : ¬ (p.take n).length = 0 := by rw [List.length_take]; omega
    have hmod : k % p.length < n := Nat.lt_of_le_of_lt (Nat.mod_le _ _) hk
    rw [keyByte, keyByte, if_neg hcut, if_neg (Nat.ne_of_gt hpos), List.length_take, Nat.min_comm, mod_min_of_lt _ hk]
    simp [List.getElem?_take_of_lt hmod]

/-- `apply` uses only the first `len(x)` bytes of the password (R116). -/
theorem apply_take_length (x p : List Byte) : apply x (p.take x.length) = apply x p := by
  refine List.ext_getElem? fun k => ?_
  rw [getElem?_apply_keyByte, getElem?_apply_keyByte]
  refine Option.map_congr fun b hb => ?_
  rw [keyByte_take p (List.getElem?_eq_some_iff.mp hb).1]

/-- A second keystream undoes the first at byte `k` exactly when the two agree there (R162). -/
theorem getElem?_apply_apply_iff {x : List Byte} {k : Nat} (p q : List Byte) (hk : k < x.length) :
    (apply (apply x p) q)[k]? = x[k]? ↔ keyByte p k = keyByte q k := by
  rw [getElem?_apply_keyByte, getElem?_apply_keyByte, List.getElem?_eq_getElem hk]
  simp [BitVec.xor_assoc, BitVec.xor_eq_zero_iff]

/-- The password bytes a command reads, from a password given as a list. -/
theorem readPwd_of_list {s : State} {p : List Byte} {n m : Nat} (hlen : p.length = s.curPwdLen) (hn : n ≤ m)
    (h : ∀ i, i < min p.length m → s.pwd.read i = p[i]?) : readPwd n s = .ok (p.take n) := by
  refine (readPwd_ok n s _).mpr ⟨by rw [List.length_take, hlen, Nat.min_comm], fun i hi => ?_⟩
  rw [List.getElem?_take_of_lt (by omega)]
  exact h i (by omega)

/-! ### The first marker of a framed payload -/

theorem exists_firstIndex_append_marker (y : List Byte) :
    ∃ i, firstIndex marker (y ++ marker) = some i ∧ i ≤ y.length := by
  have hfound : firstIndex marker (y ++ marker) ≠ none := fun hnone =>
    (firstIndex_eq_none _ _).mp hnone y.length (by simp) (by simp)
  obtain ⟨i, hi⟩ := Option.ne_none_iff_exists'.mp hfound
  have hle : i + 9 ≤ y.length + 9 := by simpa using firstIndex_le hi
  exact ⟨i, hi, by omega⟩

/-- The payload comes back whole exactly when it is collision free (43_framer R132). -/
theorem firstIndex_append_marker_eq_length_iff {y : List Byte} {i : Nat} (hi : firstIndex marker (y ++ marker) = some i) :
    i = y.length ↔ CollisionFree y := by
  rw [collisionFree_iff, ← firstIndex_append_marker_iff, hi, Option.some.injEq]

/-! ### EXTRACT, by its checks and reads -/

section
variable {s : State}

/-- No count of slots wraps: CAPACITY is at most the latched PIX_LEN. -/
theorem toNat_wordOf_of_le_capacity {n : Nat} (h : n ≤ capacityOf s.curPixLen) : (wordOf n).toNat = n := by
  have hpix : s.curPixLen < 0x100000000 := s.cur.pixLen.isLt
  unfold capacityOf at h
  exact toNat_wordOf (by omega)

theorem exec_extract_of_exhausted (hl : LengthsLegal .extract s)
    (hs : extractScan s.pix (capacityOf s.curPixLen) [] = .exhausted) :
    exec .extract s = .next (complete .markerNotFound { s with
      out := s.out.forget (fun a => decide (a < capacityOf s.curPixLen / 8))
      outLen := 0
      bitsDone := wordOf (capacityOf s.curPixLen) }) := by
  rcases execExtract_cases s with ⟨hfails, _⟩ | ⟨_, hs', _⟩ | ⟨_, _, e⟩ | ⟨_, _, _, _, hs', _⟩ | ⟨_, _, _, _, hs', _⟩
  · simp [lengthsOk_iff.mpr hl] at hfails
  · cases hs.symm.trans hs'
  · exact e
  · cases hs.symm.trans hs'
  · cases hs.symm.trans hs'

theorem exec_extract_of_found {y p : List Byte} {n : Nat} (hl : LengthsLegal .extract s)
    (hs : extractScan s.pix (capacityOf s.curPixLen) [] = .found y n) (hp : readPwd y.length s = .ok p) :
    exec .extract s = .next (complete .ok { s with
      out := s.out.writeFrom 0 (apply y p), outLen := wordOf y.length, bitsDone := wordOf n, found := true }) := by
  rcases execExtract_cases s with ⟨hfails, _⟩ | ⟨_, hs', _⟩ | ⟨_, hs', _⟩ | ⟨_, z, m, f, hs', hf, _⟩ |
    ⟨_, z, m, q, hs', hq, e⟩
  · simp [lengthsOk_iff.mpr hl] at hfails
  · cases hs.symm.trans hs'
  · cases hs.symm.trans hs'
  · cases hs.symm.trans hs'
    cases hp.symm.trans hf
  · cases hs.symm.trans hs'
    cases hp.symm.trans hq
    exact e

/-- EXTRACT over slots whose LSBs decode to bytes with the first marker at `i` (R154, R156). -/
theorem exec_extract_of_firstIndex {bits : List Bool} {p : List Byte} {i : Nat} (hl : LengthsLegal .extract s)
    (hb : LsbsAre s.pix bits) (hC : bits.length ≤ capacityOf s.curPixLen)
    (hi : firstIndex marker (wholeBytes bits) = some i) (hp : readPwd i s = .ok p) :
    exec .extract s = .next (complete .ok { s with
      out := s.out.writeFrom 0 (apply ((wholeBytes bits).take i) p)
      outLen := wordOf i
      bitsDone := wordOf (8 * (i + 9))
      found := true }) := by
  have hlen : ((wholeBytes bits).take i).length = i := by
    have := firstIndex_le hi
    rw [List.length_take]
    omega
  have hexec := exec_extract_of_found hl (extractScan_firstMarker hb hC hi) (by rwa [hlen])
  rwa [hlen] at hexec

end

/-! ### EXTRACT after EMBED -/

/-- A successful EMBED leaves the framed message in the LSBs (44_embed R136, R139). -/
theorem lsbsAre_of_exec_embed {s t : State} {x p : List Byte} (hl : LengthsLegal .embed s) (hpos : 0 < x.length)
    (hx : readMsg s = .ok x) (hp : readPwd s.curMsgLen s = .ok (p.take x.length))
    (hfits : requiredBits x.length ≤ capacityOf s.curPixLen) (h : exec .embed s = .next t) :
    LsbsAre t.pix (bytesToBits (frame x p)) := by
  have hlen := ((readMsg_ok s x).mp hx).1
  have hframe : frame x (p.take x.length) = frame x p := by rw [frame, frame, apply_take_length]
  rcases execEmbed_cases s with ⟨hfails, _⟩ | ⟨_, hc, _⟩ | ⟨_, _, h0, _⟩ | ⟨_, _, _, f, _, e⟩ |
    ⟨_, _, _, y, r, pix, hy, hr, hw, e⟩
  · simp [lengthsOk_iff.mpr hl] at hfails
  · rw [hlen] at hfits
    omega
  · omega
  · cases e.symm.trans h
  · cases e.symm.trans h
    cases hx.symm.trans hy
    cases hp.symm.trans hr
    rw [hframe] at hw
    exact lsbsAre_of_embedWalk hw

/-- EXTRACT over the LSBs of a framed message: it finds the first marker of `apply(x, p) ++ M` and unmasks the bytes before it,
whatever the password (R155, R162). -/
theorem exec_extract_of_framed {u : State} {x p q : List Byte} {i : Nat} (hl : LengthsLegal .extract u)
    (hb : LsbsAre u.pix (bytesToBits (frame x p))) (hfits : requiredBits x.length ≤ capacityOf u.curPixLen)
    (hi : firstIndex marker (apply x p ++ marker) = some i) (hle : i ≤ x.length) (hq : readPwd i u = .ok (q.take i)) :
    exec .extract u = .next (complete .ok { u with
      out := u.out.writeFrom 0 (apply ((apply x p).take i) q)
      outLen := wordOf i
      bitsDone := wordOf (8 * (i + 9))
      found := true }) := by
  have hbytes : wholeBytes (bytesToBits (frame x p)) = apply x p ++ marker := wholeBytes_bytesToBits _
  have hcut : (apply x p ++ marker).take i = (apply x p).take i := List.take_append_of_le_length (by simpa using hle)
  have hlen : ((apply x p).take i).length = i := by simpa using hle
  have hkey : apply ((apply x p).take i) (q.take i) = apply ((apply x p).take i) q := by
    simpa only [hlen] using apply_take_length ((apply x p).take i) q
  rw [exec_extract_of_firstIndex hl hb ((length_bytesToBits_frame x p).trans_le hfits) (by rwa [hbytes]) hq, hbytes, hcut,
    hkey]

/-- What a second password returns of a message: in OUT stand the bytes before the marker, unmasked. -/
theorem read_writeFrom_unmasked (m : Memory) {x : List Byte} (p q : List Byte) {i k : Nat} (hle : i ≤ x.length)
    (hk : k < i) :
    (m.writeFrom 0 (apply ((apply x p).take i) q)).read k = (apply ((apply x p).take i) q)[k]? := by
  rw [read_writeFrom_zero, if_pos (by simp; omega)]

/-- With no marker before the appended one the whole message is unmasked. -/
theorem read_writeFrom_unmasked_whole (m : Memory) (x p q : List Byte) {k : Nat} (hk : k < x.length) :
    (m.writeFrom 0 (apply ((apply x p).take x.length) q)).read k = (apply (apply x p) q)[k]? := by
  rw [read_writeFrom_unmasked m p q le_rfl hk, List.take_of_length_le (by simp)]

/-- The lengths EXTRACT checks, with EMBED's PIX_LEN and a password of its own. -/
theorem lengthsLegal_extract_of_embed {s u : State} (hl : LengthsLegal .embed s) (hcfg : u.cfg = s.cfg)
    (hpix : u.cur.pixLen = s.cur.pixLen) (hpwd : u.cur.pwdLen.toNat ≤ u.cfg.pwdCap) : LengthsLegal .extract u := by
  obtain ⟨_, _, hcap, h4⟩ := hl
  exact ⟨hpwd, by rwa [hpix, hcfg], by rwa [hpix]⟩

/-! ### The obligations -/

/-- Settles O43: the LSBs are those of the tabulated stream, and `read_writeFrom_apply` finds the unmasked bytes in OUT. -/
theorem extractReturnsThePayload : Obligations.ExtractReturnsThePayload := by
  unfold Obligations.ExtractReturnsThePayload
  intro s y p n hl hfits hslots hat hfirst hp
  have hbytes : wholeBytes ((List.range (8 * (n + 9))).map (streamBit y)) = (List.range (n + 9)).map y := by
    rw [wholeBytes_map_range_streamBit, Nat.mul_div_cancel_left _ (by decide)]
  have hcut : ((List.range (n + 9)).map y).take n = (List.range n).map y := by
    rw [← List.map_take, List.take_range, Nat.min_eq_left (by omega)]
  have hC : ((List.range (8 * (n + 9))).map (streamBit y)).length ≤ capacityOf s.curPixLen := by
    rwa [List.length_map, List.length_range]
  have hexec := exec_extract_of_firstIndex hl (lsbsAre_of_slotsCarry hslots) hC
    (hbytes ▸ firstIndex_map_range_eq_some le_rfl hat hfirst) (readPwd_of_holds hp)
  rw [hbytes, hcut] at hexec
  exact ⟨_, hexec, (RowWrite.extract _ _ _).completes s, rfl,
    toNat_wordOf_of_le_capacity (s := s) (Nat.le_trans (by omega) hfits), toNat_wordOf_of_le_capacity hfits,
    read_writeFrom_apply s.out y p s.curPwdLen n, fun _ => rfl, ⟨fun _ => rfl, rfl⟩, rfl⟩

/-- Settles O44: the whole bytes of all slots hold no marker, so the scan is exhausted. -/
theorem extractWithoutMarkerFails : Obligations.ExtractWithoutMarkerFails := by
  unfold Obligations.ExtractWithoutMarkerFails
  intro s y hl hslots hnone
  have hsearch : firstIndex marker (wholeBytes ((List.range (capacityOf s.curPixLen)).map (streamBit y))) = none := by
    rw [wholeBytes_map_range_streamBit]
    exact firstIndex_map_range_eq_none fun i hi => hnone i ((Nat.mul_le_mul_left 8 hi).trans (Nat.mul_div_le _ 8))
  have hscan : extractScan s.pix (capacityOf s.curPixLen) [] = .exhausted := by
    simpa using extractScan_noMarker (lsbsAre_of_slotsCarry (n := capacityOf s.curPixLen) hslots) hsearch
  refine ⟨_, exec_extract_of_exhausted hl hscan, (RowWrite.extractNothing _ _).completes s, rfl, rfl,
    toNat_wordOf_of_le_capacity (s := s) le_rfl, fun a => ?_, fun _ => rfl, ⟨fun _ => rfl, rfl⟩, rfl⟩
  rw [complete_out, read_forget]
  exact if_congr decide_eq_true_iff rfl rfl

/-- Settles O47: EXTRACT's end is `exec_extract_of_framed`; the marker it finds is the appended one exactly when `apply(x, p)` is
collision free, and then the two keystreams cancel byte by byte (`getElem?_apply_apply_iff`). -/
theorem embedThenExtractRoundTrip : Obligations.EmbedThenExtractRoundTrip := by
  unfold Obligations.EmbedThenExtractRoundTrip
  intro s t u x p q hl hpos hxlen hplen hfits hmsg hpwd ht hpix hqpwd hcfg hqlen hqcap hpixLen
  have hmsgOk : readMsg s = .ok x := (readMsg_ok s x).mpr ⟨hxlen, fun k hk => hmsg k (hxlen ▸ hk)⟩
  have hpwdOk : readPwd s.curMsgLen s = .ok (p.take x.length) := hxlen ▸ readPwd_of_list hplen hxlen.ge hpwd
  have hlsbs : LsbsAre u.pix (bytesToBits (frame x p)) :=
    lsbsAre_congr hpix (lsbsAre_of_exec_embed hl hpos hmsgOk hpwdOk hfits ht)
  have hfitsu : 8 * (x.length + 9) ≤ capacityOf u.curPixLen := by rwa [State.curPixLen, hpixLen]
  obtain ⟨i, hi, hle⟩ := exists_firstIndex_append_marker (apply x p)
  rw [length_apply] at hle
  have hfree : i = x.length ↔ CollisionFree (apply x p) := by
    simpa using firstIndex_append_marker_eq_length_iff hi
  have hlen : (wordOf i).toNat = i := toNat_wordOf_of_le_capacity (s := u) (by omega)
  have hexec := exec_extract_of_framed (lengthsLegal_extract_of_embed hl hcfg hpixLen (hqlen ▸ hqcap)) hlsbs hfitsu hi hle
    (readPwd_of_list hqlen hle hqpwd)
  refine ⟨_, i, hexec, rfl, rfl, hi, hle, hlen, toNat_wordOf_of_le_capacity (s := u) (by omega),
    fun k hk => read_writeFrom_unmasked u.out p q hle hk, ?_, fun h => Nat.lt_of_le_of_ne hle (mt hfree.mp h), ?_⟩
  · rintro rfl
    rw [← hfree]
    refine ⟨fun h => hlen.symm.trans h.1, fun h => ⟨hlen.trans h, fun k hk => ?_⟩⟩
    rw [complete_out, h, read_writeFrom_unmasked_whole u.out x q q hk, apply_apply]
  · intro h
    obtain rfl : i = x.length := hfree.mpr h
    refine ⟨rfl, fun k hk => read_writeFrom_unmasked_whole u.out x p q hk, forall₂_congr fun k hk => ?_⟩
    rw [complete_out, read_writeFrom_unmasked_whole u.out x p q hk]
    exact getElem?_apply_apply_iff p q hk

end Sys2Proof.Machine
end

section
/-! PROOFS. The interrupt line (60_exceptions): irq is DONE AND IE (R175), so it follows what each operation does to DONE and IE. -/

namespace Sys2Proof.Machine

theorem irq_eq (s : State) : s.irq = (s.done && s.ie) := rfl

/-- A transition that ends with DONE = 1 and keeps IE drives irq to IE. -/
theorem irq_of_done {s t : State} (hdone : t.done = true) (hie : t.ie = s.ie) : t.irq = s.ie := by
  rw [irq_eq, hdone, hie, Bool.true_and]

/-- A transition that ends with DONE = 0 drives irq low, whatever IE is. -/
theorem irq_of_not_done {s : State} (hdone : s.done = false) : s.irq = false := by
  rw [irq_eq, hdone, Bool.false_and]

theorem complete_irq (code : ErrCode) (s : State) : (complete code s).irq = s.ie :=
  irq_of_done (complete_done code s) (complete_ie code s)

/-- Every completion of a command sets DONE and keeps IE (R99). -/
theorem irq_of_exec_next {i : Instr} {s t : State} (h : exec i s = .next t) : t.irq = s.ie := by
  obtain ⟨code, w, hw, rfl⟩ := rowWrite_of_exec_next h
  exact irq_of_done (hw.completes s).done (hw.completes s).ie

/-- Writing 1 to STATUS bit 1 clears DONE, and so drives irq low. -/
theorem acknowledge_irq (s : State) {w : Word} (hw : w.getLsbD 1 = true) : (acknowledge w s).irq = false :=
  irq_of_not_done (by rw [acknowledge_done, hw, Bool.not_true, Bool.and_false])

theorem warmReset_done (s : State) : (warmReset s).done = false := resetRegisters_done (abortCommand s)

/-- Settles O18: a completion, of a command or of an Illegal word, sets DONE and keeps IE; a CTRL write sets IE and keeps DONE; an
acknowledgement, an acceptance and both resets clear DONE. -/
theorem irqIsDoneAndIe : Obligations.IrqIsDoneAndIe := by
  unfold Obligations.IrqIsDoneAndIe
  refine ⟨irq_eq, fun _ _ _ => irq_of_exec_next, fun s t hbusy hturn => ?_, fun _ _ => rfl, fun s _ => acknowledge_irq s,
    fun s c => irq_of_not_done (accept_done c s),
    fun s => ⟨irq_of_not_done (warmReset_done s), irq_of_not_done (powerOnReset_done s)⟩⟩
  rcases engineTurn_next hturn with ⟨hidle, _⟩ | ⟨_, i, _, hexec⟩ | ⟨_, rfl⟩
  · simp [hbusy] at hidle
  · exact irq_of_exec_next hexec
  · exact complete_irq .illegalCommand s

end Sys2Proof.Machine
end

section
/-! PROOFS. The reads of each command (70_reset_and_hazards R196): past its length checks a command completes when the bytes of its
row are written, and meets the fault of 10_state R48 when one is not. -/

namespace Sys2Proof.Machine

/-! ### Written bytes -/

theorem written_of_reads {α : Type} {m : Store α} {n : Nat} {x : List α}
    (hx : x.length = n ∧ ∀ i, i < n → m.read i = x[i]?) : Written m n := by
  obtain ⟨hlen, hreads⟩ := hx
  intro i hi
  rw [hreads i hi, List.getElem?_eq_getElem (hlen ▸ hi)]
  rfl

theorem not_written_of_read_none {α : Type} {m : Store α} {n : Nat} (h : ∃ i, i < n ∧ m.read i = none) : ¬ Written m n := by
  obtain ⟨i, hi, hnone⟩ := h
  intro hw
  have hsome := hw i hi
  rw [hnone] at hsome
  cases hsome

/-! ### The LSBs EXTRACT reads -/

section
variable {pix : Memory} {C : Nat}

/-- The LSBs that a scan read before it found the marker (R151, R154). -/
theorem exists_lsbsAre_of_found {y : List Byte} {n : Nat} (h : extractScan pix C [] = .found y n) :
    ∃ bits : List Bool, bits.length ≤ C ∧ LsbsAre pix bits ∧ findAndStrip (wholeBytes bits) = some y := by
  obtain ⟨bits, _, hlen, _, hreads, _, hcheck⟩ := extractScan_found.mp h
  refine ⟨bits, hlen, fun k hk => by simpa using hreads k hk, ?_⟩
  rw [List.nil_append, checkAt] at hcheck
  split at hcheck
  · exact hcheck
  · cases hcheck

/-- A scan that is exhausted has read the LSBs of all slots (R157). -/
theorem exists_lsbsAre_of_exhausted (h : extractScan pix C [] = .exhausted) :
    ∃ bits : List Bool, bits.length = C ∧ LsbsAre pix bits := by
  obtain ⟨bits, hlen, hreads, _⟩ := extractScan_exhausted.mp h
  exact ⟨bits, hlen, fun k hk => by simpa using hreads k hk⟩

/-- A scan stops at the marker that any LSBs of the first slots hold. -/
theorem extractScan_of_findAndStrip {bits : List Bool} {y : List Byte} (hb : LsbsAre pix bits) (hC : bits.length ≤ C)
    (hy : findAndStrip (wholeBytes bits) = some y) : ∃ n, extractScan pix C [] = .found y n := by
  obtain ⟨i, hi, rfl⟩ := (findAndStrip_eq_some _ _).mp hy
  exact ⟨_, extractScan_firstMarker hb hC hi⟩

/-- The two ways a scan can end over LSBs that hold the marker or are those of all slots, as EXTRACT's row of R196 asks: it meets
no unwritten sample. -/
theorem extractScan_of_lsbsAre {bits : List Bool} (hb : LsbsAre pix bits) (hC : bits.length ≤ C)
    (hends : bits.length = C ∨ (findAndStrip (wholeBytes bits)).isSome = true) :
    extractScan pix C [] = .exhausted ∨
      ∃ y n, findAndStrip (wholeBytes bits) = some y ∧ extractScan pix C [] = .found y n := by
  cases hy : findAndStrip (wholeBytes bits) with
  | some y =>
    obtain ⟨n, hn⟩ := extractScan_of_findAndStrip hb hC hy
    exact .inr ⟨y, n, rfl, hn⟩
  | none =>
    rcases hends with rfl | hsome
    · exact .inl (extractScan_noMarker hb ((findAndStrip_eq_none _).mp hy))
    · rw [hy] at hsome
      cases hsome

end

/-! ### Each command, by what its reads find -/

/-- R196's two ways to go on past the length checks: the command's reads are written and it completes, or one is not and it stops
with the fault of 10_state R48. -/
def EndsByReads (i : Instr) (s : State) : Prop :=
  (ReadsWritten i s ∧ ∃ t, exec i s = .next t) ∨ (¬ ReadsWritten i s ∧ ∃ w, exec i s = .fault (.commandReadUnwritten w))

section
variable {s : State}

theorem written_msg_of_readMsg {x : List Byte} (h : readMsg s = .ok x) : Written s.msg s.curMsgLen :=
  written_of_reads ((readMsg_ok s x).mp h)

theorem written_pwd_of_readPwd {n : Nat} {p : List Byte} (h : readPwd n s = .ok p) : Written s.pwd (min s.curPwdLen n) :=
  written_of_reads ((readPwd_ok n s p).mp h)

theorem fault_of_readMsg_error {f : Fault} (h : readMsg s = .error f) :
    f = .commandReadUnwritten .msg ∧ ¬ Written s.msg s.curMsgLen := by
  obtain ⟨hf, hnone⟩ := (readMsg_error s f).mp h
  exact ⟨hf, not_written_of_read_none hnone⟩

theorem fault_of_readPwd_error {n : Nat} {f : Fault} (h : readPwd n s = .error f) :
    f = .commandReadUnwritten .pwd ∧ ¬ Written s.pwd (min s.curPwdLen n) := by
  obtain ⟨hf, hnone⟩ := (readPwd_error n s f).mp h
  exact ⟨hf, not_written_of_read_none hnone⟩

/-- XOR, FRAME and EMBED read the message and then the password: a fault of either is R48's, and one of the two is unwritten. -/
theorem fault_of_operand_error {f : Fault} (h : readMsg s = .error f ∨ readPwd s.curMsgLen s = .error f) :
    (∃ w, f = .commandReadUnwritten w) ∧
      ¬ (Written s.msg s.curMsgLen ∧ Written s.pwd (min s.curPwdLen s.curMsgLen)) := by
  rcases h with hx | hp
  · obtain ⟨rfl, hmsg⟩ := fault_of_readMsg_error hx
    exact ⟨⟨_, rfl⟩, fun hw => hmsg hw.1⟩
  · obtain ⟨rfl, hpwd⟩ := fault_of_readPwd_error hp
    exact ⟨⟨_, rfl⟩, fun hw => hpwd hw.2⟩

theorem endsByReads_ser (hok : lengthsOk .ser s = true) : EndsByReads .ser s := by
  rcases execSer_cases s with ⟨hfails, _⟩ | ⟨_, f, hx, e⟩ | ⟨_, x, hx, e⟩
  · simp [hok] at hfails
  · obtain ⟨rfl, hmsg⟩ := fault_of_readMsg_error hx
    exact .inr ⟨hmsg, _, e⟩
  · exact .inl ⟨written_msg_of_readMsg hx, _, e⟩

theorem endsByReads_des (hok : lengthsOk .des s = true) : EndsByReads .des s := by
  rcases execDes_cases s with ⟨hfails, _⟩ | ⟨_, hmod, e⟩ | ⟨_, h8, f, hb, e⟩ | ⟨_, _, b, hb, e⟩
  · simp [hok] at hfails
  · exact .inl ⟨fun h8 => absurd h8 hmod, _, e⟩
  · obtain ⟨rfl, hnone⟩ := (readBits_error s f).mp hb
    exact .inr ⟨fun hw => not_written_of_read_none hnone (hw h8), _, e⟩
  · exact .inl ⟨fun _ => written_of_reads ((readBits_ok s b).mp hb), _, e⟩

theorem endsByReads_xor (hok : lengthsOk .xor s = true) : EndsByReads .xor s := by
  rcases execXor_cases s with ⟨hfails, _⟩ | ⟨_, f, hf, e⟩ | ⟨_, x, p, hx, hp, e⟩
  · simp [hok] at hfails
  · obtain ⟨⟨w, rfl⟩, hunwritten⟩ := fault_of_operand_error hf
    exact .inr ⟨hunwritten, w, e⟩
  · exact .inl ⟨⟨written_msg_of_readMsg hx, written_pwd_of_readPwd hp⟩, _, e⟩

theorem endsByReads_frame (hok : lengthsOk .frame s = true) : EndsByReads .frame s := by
  rcases execFrame_cases s with ⟨hfails, _⟩ | ⟨_, f, hf, e⟩ | ⟨_, x, p, hx, hp, e⟩
  · simp [hok] at hfails
  · obtain ⟨⟨w, rfl⟩, hunwritten⟩ := fault_of_operand_error hf
    exact .inr ⟨hunwritten, w, e⟩
  · exact .inl ⟨⟨written_msg_of_readMsg hx, written_pwd_of_readPwd hp⟩, _, e⟩

theorem endsByReads_find (hok : lengthsOk .find s = true) : EndsByReads .find s := by
  rcases execFind_cases s with ⟨hfails, _⟩ | ⟨_, f, hx, e⟩ | ⟨_, x, hx, _, e⟩ | ⟨_, x, y, hx, _, e⟩
  · simp [hok] at hfails
  · obtain ⟨rfl, hmsg⟩ := fault_of_readMsg_error hx
    exact .inr ⟨hmsg, _, e⟩
  · exact .inl ⟨written_msg_of_readMsg hx, _, e⟩
  · exact .inl ⟨written_msg_of_readMsg hx, _, e⟩

/-- The walk reads one sample per bit of the framed message, so REQ_BITS of them (44_embed R139). -/
theorem embedWalk_frame_eq_none {x p : List Byte} (hx : readMsg s = .ok x) :
    embedWalk s.pix 0 (bytesToBits (frame x p)) = none ↔
      ∃ k, k < requiredBits s.curMsgLen ∧ s.pix.read (slotOffset k) = none := by
  have hlen := ((readMsg_ok s x).mp hx).1
  simp only [embedWalk_eq_none, length_bytesToBits_frame, hlen, Nat.zero_add]

theorem endsByReads_embed (hok : lengthsOk .embed s = true) : EndsByReads .embed s := by
  rcases execEmbed_cases s with ⟨hfails, _⟩ | ⟨_, hc, e⟩ | ⟨_, _, h0, e⟩ | ⟨_, hfits, hne, f, hf, e⟩ |
    ⟨_, _, _, x, p, pix, hx, hp, hw, e⟩
  · simp [hok] at hfails
  · exact .inl ⟨fun hfits => absurd hfits (Nat.not_le.mpr hc), _, e⟩
  · exact .inl ⟨fun _ hpos => absurd h0 (Nat.ne_of_gt hpos), _, e⟩
  · refine .inr ?_
    have hreads (hw : ReadsWritten .embed s) := hw hfits (Nat.pos_of_ne_zero hne)
    rcases or_assoc.mpr hf with hoperand | ⟨rfl, x, p, hx, _, hnone⟩
    · obtain ⟨⟨w, rfl⟩, hunwritten⟩ := fault_of_operand_error hoperand
      exact ⟨fun hw => hunwritten ⟨(hreads hw).1, (hreads hw).2.1⟩, w, e⟩
    · obtain ⟨k, hk, hsample⟩ := (embedWalk_frame_eq_none hx).mp hnone
      refine ⟨fun hw => ?_, _, e⟩
      obtain ⟨_, _, hpix⟩ := hreads hw
      simpa [hsample] using hpix k hk
  · refine .inl ⟨fun _ _ => ⟨written_msg_of_readMsg hx, written_pwd_of_readPwd hp, fun k hk => ?_⟩, _, e⟩
    refine Option.isSome_iff_ne_none.mpr fun hsample => ?_
    cases ((embedWalk_frame_eq_none hx).mpr ⟨k, hk, hsample⟩).symm.trans hw

theorem endsByReads_extract (hok : lengthsOk .extract s = true) : EndsByReads .extract s := by
  rcases execExtract_cases s with ⟨hfails, _⟩ | ⟨_, hs, e⟩ | ⟨_, hs, e⟩ | ⟨_, y, n, f, hs, hp, e⟩ | ⟨_, y, n, p, hs, hp, e⟩
  · simp [hok] at hfails
  · refine .inr ⟨fun ⟨bits, hC, hb, hends, _⟩ => ?_, _, e⟩
    rcases extractScan_of_lsbsAre hb hC hends with hs' | ⟨_, _, _, hs'⟩ <;> cases hs.symm.trans hs'
  · obtain ⟨bits, hC, hb⟩ := exists_lsbsAre_of_exhausted hs
    refine .inl ⟨⟨bits, hC.le, hb, .inl hC, fun y hy => ?_⟩, _, e⟩
    obtain ⟨_, hs'⟩ := extractScan_of_findAndStrip hb hC.le hy
    cases hs.symm.trans hs'
  · obtain ⟨rfl, hpwd⟩ := fault_of_readPwd_error hp
    refine .inr ⟨fun ⟨bits, hC, hb, hends, hw⟩ => ?_, _, e⟩
    rcases extractScan_of_lsbsAre hb hC hends with hs' | ⟨_, _, hy, hs'⟩ <;> cases hs.symm.trans hs'
    exact hpwd (hw y hy)
  · obtain ⟨bits, hC, hb, hy⟩ := exists_lsbsAre_of_found hs
    refine .inl ⟨⟨bits, hC, hb, .inr (by rw [hy]; rfl), fun z hz => ?_⟩, _, e⟩
    cases hy.symm.trans hz
    exact written_pwd_of_readPwd hp

theorem endsByReads_of_lengthsLegal {i : Instr} (hl : LengthsLegal i s) : EndsByReads i s := by
  have hok := lengthsOk_iff.mpr hl
  cases i with
  | ser => exact endsByReads_ser hok
  | des => exact endsByReads_des hok
  | xor => exact endsByReads_xor hok
  | frame => exact endsByReads_frame hok
  | find => exact endsByReads_find hok
  | embed => exact endsByReads_embed hok
  | extract => exact endsByReads_extract hok

end

/-- Settles O50: past the checks by `endsByReads_of_lengthsLegal`, whose two ways exclude each other; a failed check completes in
BadLength (O48). -/
theorem commandsCompleteExactlyWhenTheirReadsAreWritten :
    Obligations.CommandsCompleteExactlyWhenTheirReadsAreWritten := by
  unfold Obligations.CommandsCompleteExactlyWhenTheirReadsAreWritten
  refine fun i s => ⟨fun hl => ?_, fun hl => ⟨_, (badLengthExactlyWhenACheckFails i s).1 hl⟩⟩
  rcases endsByReads_of_lengthsLegal hl with ⟨hw, hnext⟩ | ⟨hunwritten, w, hfault⟩
  · exact ⟨iff_of_true hnext hw, absurd hw⟩
  · refine ⟨iff_of_false (fun ⟨t, hnext⟩ => ?_) hunwritten, fun _ => ⟨w, hfault⟩⟩
    cases hfault.symm.trans hnext

end Sys2Proof.Machine
end

section
/-! PROOFS. Reset (70_reset_and_hazards): the bytes the aborted command loses (R191), the reset values of the registers (R190,
R192), and the first command accepted after a reset (R194). -/

namespace Sys2Proof.Machine

/-! ### The bytes a reset loses -/

section
variable (s : State) (p : Nat → Bool) (w : Window) (a : Nat)

theorem byteAt_forget_out :
    ({ s with out := s.out.forget p } : State).byteAt w a = if w = .out ∧ p a = true then none else s.byteAt w a := by
  cases w <;> simp [State.byteAt, read_forget]

theorem byteAt_forget_bit :
    ({ s with bit := s.bit.forget p } : State).byteAt w a = if w = .bit ∧ p a = true then none else s.byteAt w a := by
  cases w with
  | bit =>
    by_cases hp : p a = true
    · simp [State.byteAt, read_forget, hp]
    · simp [State.byteAt, read_forget, hp]
  | marker | msg | pwd | out | pix => simp [State.byteAt]

theorem byteAt_forget_pix :
    ({ s with pix := s.pix.forget p } : State).byteAt w a = if w = .pix ∧ p a = true then none else s.byteAt w a := by
  cases w <;> simp [State.byteAt, read_forget]

end

section
variable {i : Instr} {s : State} {w : Window} {a : Nat}

/-- `loseBytes` makes unwritten exactly the bytes of R191's table. -/
theorem byteAt_loseBytes [Decidable (LostByte i s w a)] :
    (loseBytes i s).byteAt w a = if LostByte i s w a then none else s.byteAt w a := by
  cases i with
  | ser => exact (byteAt_forget_bit s _ w a).trans (if_congr (and_congr_right' decide_eq_true_iff) rfl rfl)
  | des | xor | frame | find | extract =>
    exact (byteAt_forget_out s _ w a).trans (if_congr (and_congr_right' decide_eq_true_iff) rfl rfl)
  | embed =>
    refine (byteAt_forget_pix s _ w a).trans (if_congr (and_congr_right' ?_) rfl rfl)
    exact (Bool.and_eq_true_iff ..).trans (and_congr decide_eq_true_iff decide_eq_true_iff)

/-- A reset keeps every buffer as the abort left it (R192). -/
theorem byteAt_warmReset : (warmReset s).byteAt w a = (abortCommand s).byteAt w a := by
  cases w <;> rfl

/-- A command with a legal word and legal lengths is aborted, or none runs and every buffer stays (R191). -/
theorem abortCommand_cases (s : State) :
    (∃ i, s.busy = true ∧ decode s.cur.word = .ok i ∧ LengthsLegal i s ∧ abortCommand s = loseBytes i s) ∨
    ((¬ ∃ i, s.busy = true ∧ decode s.cur.word = .ok i ∧ LengthsLegal i s) ∧ abortCommand s = s) := by
  unfold abortCommand
  cases hbusy : s.busy with
  | false => exact .inr ⟨by simp, rfl⟩
  | true =>
    cases hd : decode s.cur.word with
    | error r => exact .inr ⟨by simp, rfl⟩
    | ok i =>
      by_cases hl : LengthsLegal i s
      · exact .inl ⟨i, rfl, rfl, hl, by simp [lengthsOk_iff.mpr hl]⟩
      · exact .inr ⟨by simpa using hl, by simp [mt lengthsOk_iff.mp hl]⟩

/-- R191's condition on the bytes a warm reset makes unwritten. -/
def ResetLoses (s : State) (w : Window) (a : Nat) : Prop :=
  s.busy = true ∧ ∃ i, decode s.cur.word = .ok i ∧ LengthsLegal i s ∧ LostByte i s w a

theorem byteAt_warmReset_lost (h : ResetLoses s w a) : (warmReset s).byteAt w a = none := by
  classical
  obtain ⟨hbusy, i, hd, hl, hlost⟩ := h
  rw [byteAt_warmReset]
  rcases abortCommand_cases s with ⟨j, _, hd', _, e⟩ | ⟨hnone, _⟩
  · cases hd.symm.trans hd'
    rw [e, byteAt_loseBytes, if_pos hlost]
  · exact absurd ⟨i, hbusy, hd, hl⟩ hnone

theorem byteAt_warmReset_kept (h : ¬ ResetLoses s w a) : (warmReset s).byteAt w a = s.byteAt w a := by
  classical
  rw [byteAt_warmReset]
  rcases abortCommand_cases s with ⟨i, hbusy, hd, hl, e⟩ | ⟨_, e⟩
  · rw [e, byteAt_loseBytes, if_neg fun hlost => h ⟨hbusy, i, hd, hl, hlost⟩]
  · rw [e]

end

/-! ### The registers after a reset -/

theorem warmReset_cfg (s : State) : (warmReset s).cfg = s.cfg := by
  rw [warmReset, resetRegisters_cfg, abortCommand_eq]

theorem warmReset_registers (s : State) : ResetRegisters s (warmReset s) := by
  constructor
  case cfg => exact warmReset_cfg s
  all_goals rfl

theorem powerOnReset_registers (s : State) : ResetRegisters s (powerOnReset s) := by
  constructor <;> rfl

/-- Settles O51: the registers take their reset values, a warm reset loses the bytes of `byteAt_loseBytes` when it aborts a command
whose checks pass, and a power-on leaves every buffer empty. -/
theorem resetStep : Obligations.ResetStep := by
  unfold Obligations.ResetStep
  refine fun s => ⟨warmReset_registers s, powerOnReset_registers s,
    fun w a => ⟨byteAt_warmReset_lost, byteAt_warmReset_kept⟩, fun w a hw => ?_⟩
  cases w with
  | marker => exact absurd rfl hw
  | msg | pwd | out | bit | pix => rfl

/-! ### The first command after a reset -/

/-- The state in which the engine runs command `i` when it is issued straight after a warm reset, with no set-up (R194). -/
def afterReset (i : Instr) (s : State) : State := accept (encode i) (warmReset s)

section
variable (i : Instr) (s : State)

theorem afterReset_curBitLen : (afterReset i s).curBitLen = 0 := rfl
theorem readMsg_afterReset : readMsg (afterReset i s) = .ok [] := rfl
theorem readPwd_afterReset : readPwd (afterReset i s).curMsgLen (afterReset i s) = .ok [] := rfl
theorem readBits_afterReset : readBits (afterReset i s) = .ok [] := rfl

/-- With PIX_LEN = 0 there is no slot (R35). -/
theorem afterReset_capacityOf : capacityOf (afterReset i s).curPixLen = 0 := by
  rw [show (afterReset i s).curPixLen = 0 from rfl]
  rfl

theorem extractScan_afterReset :
    extractScan (afterReset i s).pix (capacityOf (afterReset i s).curPixLen) [] = .exhausted := by
  rw [afterReset_capacityOf]
  rfl

/-- Empty inputs pass every length check (R96). -/
theorem lengthsLegal_afterReset : LengthsLegal i (afterReset i s) := by
  cases i <;> simp [LengthsLegal, afterReset, warmReset, State.reset]

end

/-- Settles O52: the command runs on empty inputs with every length check passed. EMBED then fails its capacity check, EXTRACT has
no slot to scan, and FRAME writes the bare marker. -/
theorem firstCommandAfterReset : Obligations.FirstCommandAfterReset := by
  unfold Obligations.FirstCommandAfterReset
  intro s i
  change ∃ t, exec i (afterReset i s) = .next t ∧ _
  have hl := lengthsLegal_afterReset i s
  have hmsg := readMsg_afterReset i s
  have hpwd := readPwd_afterReset i s
  have kept (hi : i ≠ .frame) (a : Nat) : (warmReset s).out.read a =
      if i = .frame ∧ a < 9 then marker[a]? else (warmReset s).out.read a := (if_neg fun h => hi h.1).symm
  cases i with
  | ser => exact ⟨_, exec_ser_of_readMsg hl hmsg, rfl, rfl, rfl, rfl, rfl, rfl, rfl, kept nofun⟩
  | des =>
    exact ⟨_, exec_des_of_readBits hl rfl (readBits_afterReset .des s), rfl, rfl, rfl, rfl, rfl, rfl,
      by rw [complete_outLen, afterReset_curBitLen]; rfl, kept nofun⟩
  | xor => exact ⟨_, exec_xor_of_reads hl hmsg hpwd, rfl, rfl, rfl, rfl, rfl, rfl, rfl, kept nofun⟩
  | frame =>
    refine ⟨_, exec_frame_of_reads hl hmsg hpwd, rfl, rfl, rfl, rfl, rfl, rfl, rfl, fun a => ?_⟩
    exact (read_writeFrom_zero _ marker a).trans (if_congr (by simp) rfl rfl)
  | find => exact ⟨_, exec_find_of_none hl hmsg rfl, rfl, rfl, rfl, rfl, rfl, rfl, rfl, kept nofun⟩
  | embed =>
    have hfull : capacityOf (afterReset .embed s).curPixLen < requiredBits (afterReset .embed s).curMsgLen := by
      rw [afterReset_capacityOf]
      exact Nat.succ_pos _
    exact ⟨_, exec_embed_of_capacity_lt hl hfull, rfl, rfl, rfl, rfl, rfl, rfl, rfl, kept nofun⟩
  | extract =>
    refine ⟨_, exec_extract_of_exhausted hl (extractScan_afterReset .extract s), rfl, rfl, rfl, rfl,
      by rw [complete_bitsDone, afterReset_capacityOf]; rfl, rfl, rfl, fun a => ?_⟩
    rw [complete_out, read_forget, if_neg (by simp [afterReset_capacityOf])]
    exact kept nofun a

end Sys2Proof.Machine
end

section
/-! PROOFS. Invariants of every step (10_state, 40 R103): what the events do, said once, and the four invariants of a run. -/

namespace Sys2Proof.Machine

/-! ### Invariants, event by event -/

/-- No event breaks `P`: neither an access of the host, nor the engine, nor the hidden cursor, nor a reset or a power-on. -/
structure KeptByEvents (P : State → Prop) : Prop where
  agenda {s : State} (g : List Event) : P s → P { s with agenda := g }
  answer {s : State} (r : Response) : P s → P { s with answer := some r }
  reg {s u : State} {r : Reg} {w : Word} : P s → writeReg s r w = some u → P u
  byte {s : State} {w : Window} {o : Nat} (v : Byte) : P s → o < capOf s.cfg w → P (setByte w o v s)
  word {s : State} {w : Window} {o : Nat} (v : Word) : P s → o + 3 < capOf s.cfg w → P (setWord w o v s)
  command {s t : State} {i : Instr} : P s → s.busy = true → exec i s = .next t → P t
  illegal {s : State} : P s → s.busy = true → P (complete .illegalCommand s)
  work {s t : State} : P s → workStep s = .next t → P t
  reset {s : State} : P s → P (warmReset s)
  powerOn {s : State} : P s → P (powerOnReset s)

section
variable {P : State → Prop} (hP : KeptByEvents P) {s t : State}
include hP

theorem KeptByEvents.host {a : Access} (hs : P s) (h : hostStep a s = .next t) : P t := by
  rcases hostStep_cases h with ⟨r, rfl, _⟩ | ⟨_, _, _, _, u, _, _, _, hu, rfl⟩ | ⟨_, v, _, _, _, _, ho, _, _, rfl⟩ |
    ⟨_, v, _, _, _, _, hf, _, _, rfl⟩
  · exact hP.answer r hs
  · exact hP.answer _ (hP.reg hs hu)
  · exact hP.answer _ (hP.byte v hs ho)
  · exact hP.answer _ (hP.word v hs (wordFits_iff.mp hf).2)

theorem KeptByEvents.engine (hs : P s) (h : engineTurn s = .next t) : P t := by
  rcases engineTurn_next h with ⟨_, rfl⟩ | ⟨hbusy, _, _, hexec⟩ | ⟨hbusy, rfl⟩
  · exact hs
  · exact hP.command hs hbusy hexec
  · exact hP.illegal hs hbusy

/-- What no event breaks, every step keeps. -/
theorem KeptByEvents.step (hs : P s) (h : step s = .next t) : P t := by
  rcases step_cases h with ⟨_, e⟩ | ⟨_, rest, _, e⟩ | ⟨rest, _, e⟩ | ⟨rest, _, e⟩ | ⟨rest, _, rfl⟩ | ⟨rest, _, rfl⟩
  · exact hP.engine hs e
  · exact hP.host (hP.agenda rest hs) e
  · exact hP.engine (hP.agenda rest hs) e
  · exact hP.work (hP.agenda rest hs) e
  · exact hP.reset (hP.agenda rest hs)
  · exact hP.powerOn (hP.agenda rest hs)

end

/-- A register write leaves the configuration, the result registers, the buffers, the last answer and the coming events. -/
theorem writeReg_eq {s u : State} {r : Reg} {w : Word} (h : writeReg s r w = some u) :
    u = { s with
      ie := u.ie, busy := u.busy, done := u.done, found := u.found, ovr := u.ovr, err := u.err, msgLen := u.msgLen
      pwdLen := u.pwdLen, pixLen := u.pixLen, bitLen := u.bitLen, cur := u.cur, pipe := u.pipe } := by
  rcases writeReg_cases h with ⟨_, rfl⟩ | ⟨_, rfl⟩ | ⟨_, rfl⟩ | ⟨_, rfl⟩ | ⟨_, rfl⟩ | ⟨_, rfl⟩ | ⟨_, rfl⟩
  · rfl
  · cases hbusy : s.busy with
    | false => rw [offer_of_idle hbusy]; rfl
    | true => rw [offer_of_busy hbusy]
  all_goals rfl

theorem exists_completes_of_exec_next {i : Instr} {s t : State} (h : exec i s = .next t) : ∃ code, Completes s t code := by
  obtain ⟨code, w, hw, rfl⟩ := rowWrite_of_exec_next h
  exact ⟨code, hw.completes s⟩

/-! ### The configuration -/

theorem keptByEvents_cfg (c : Config) : KeptByEvents fun s => s.cfg = c where
  agenda _ hs := hs
  answer _ hs := hs
  reg hs hu := by rw [writeReg_eq hu]; exact hs
  byte v hs _ := by rw [setByte_eq]; exact hs
  word v hs _ := by rw [setWord_eq]; exact hs
  command hs _ h := by
    obtain ⟨_, hc⟩ := exists_completes_of_exec_next h
    exact hc.cfg.trans hs
  illegal hs _ := hs
  work hs h := by rw [workStep_next h]; exact hs
  reset hs := (warmReset_cfg _).trans hs
  powerOn hs := hs

/-! ### What a completion stores in the buffers -/

/-- OUT and OUT_LEN after a completion: both as before, a result that fits OUT and its length, or bytes lost and OUT_LEN = 0. -/
inductive OutStored (s t : State) : Prop
  | kept (hout : t.out = s.out) (hlen : t.outLen = s.outLen)
  | written (x : List Byte) (hx : x.length ≤ s.cfg.outCap) (hout : t.out = s.out.writeFrom 0 x)
      (hlen : t.outLen = wordOf x.length)
  | lost (p : Nat → Bool) (hout : t.out = s.out.forget p) (hlen : t.outLen = 0)

/-- BIT after a completion: as before, or a stream that fits it. -/
inductive BitStored (s t : State) : Prop
  | kept (hbit : t.bit = s.bit)
  | written (b : List Bool) (hb : b.length ≤ s.cfg.bitCap) (hbit : t.bit = s.bit.writeFrom 0 b)

/-- PIX after a completion: as before, or walked over. -/
inductive PixStored (s t : State) : Prop
  | kept (hpix : t.pix = s.pix)
  | walked (b : List Bool) (hpix : embedWalk s.pix 0 b = some t.pix)

/-- The three buffers a command can write, after a completion. -/
structure ResultStored (s t : State) : Prop where
  out : OutStored s t
  bit : BitStored s t
  pix : PixStored s t

/-- A completion that writes STATUS and the counts only. -/
theorem resultStored_of_kept {s t : State} (hout : t.out = s.out) (hlen : t.outLen = s.outLen) (hbit : t.bit = s.bit)
    (hpix : t.pix = s.pix) : ResultStored s t :=
  ⟨.kept hout hlen, .kept hbit, .kept hpix⟩

/-- A completion that writes `x` to OUT. -/
theorem resultStored_of_out {s t : State} (x : List Byte) (hx : x.length ≤ s.cfg.outCap) (hout : t.out = s.out.writeFrom 0 x)
    (hlen : t.outLen = wordOf x.length) (hbit : t.bit = s.bit) (hpix : t.pix = s.pix) : ResultStored s t :=
  ⟨.written x hx hout hlen, .kept hbit, .kept hpix⟩

section
variable {s t : State}

theorem execSer_stored (h : execSer s = .next t) : ResultStored s t := by
  rcases execSer_cases s with ⟨_, e⟩ | ⟨_, _, _, e⟩ | ⟨hok, x, hx, e⟩ <;> cases e.symm.trans h
  · exact resultStored_of_kept rfl rfl rfl rfl
  · have hlen := ((readMsg_ok s x).mp hx).1
    have hcap := lengthsOk_iff.mp hok
    have hbounds := config_bounds s.cfg
    refine ⟨.kept rfl rfl, .written (bytesToBits x) ?_ rfl, .kept rfl⟩
    simp only [LengthsLegal, State.curMsgLen, length_bytesToBits] at *
    omega

theorem execDes_stored (h : execDes s = .next t) : ResultStored s t := by
  rcases execDes_cases s with ⟨_, e⟩ | ⟨_, _, e⟩ | ⟨_, _, _, _, e⟩ | ⟨hok, _, b, hb, e⟩ <;> cases e.symm.trans h
  · exact resultStored_of_kept rfl rfl rfl rfl
  · exact resultStored_of_kept rfl rfl rfl rfl
  · have hlen : (wholeBytes b).length = s.curBitLen / 8 := by rw [length_wholeBytes, ((readBits_ok s b).mp hb).1]
    have hcap := lengthsOk_iff.mp hok
    have hbounds := config_bounds s.cfg
    refine resultStored_of_out (wholeBytes b) ?_ rfl (by rw [hlen]; rfl) rfl rfl
    simp only [LengthsLegal, State.curBitLen] at *
    omega

theorem execXor_stored (h : execXor s = .next t) : ResultStored s t := by
  rcases execXor_cases s with ⟨_, e⟩ | ⟨_, _, _, e⟩ | ⟨hok, x, p, hx, _, e⟩ <;> cases e.symm.trans h
  · exact resultStored_of_kept rfl rfl rfl rfl
  · have hlen : (apply x p).length = s.curMsgLen := by rw [length_apply, ((readMsg_ok s x).mp hx).1]
    have hcap := lengthsOk_iff.mp hok
    have hbounds := config_bounds s.cfg
    refine resultStored_of_out (apply x p) ?_ rfl (by rw [hlen]; rfl) rfl rfl
    simp only [LengthsLegal, State.curMsgLen] at *
    omega

theorem execFrame_stored (h : execFrame s = .next t) : ResultStored s t := by
  rcases execFrame_cases s with ⟨_, e⟩ | ⟨_, _, _, e⟩ | ⟨hok, x, p, hx, _, e⟩ <;> cases e.symm.trans h
  · exact resultStored_of_kept rfl rfl rfl rfl
  · have hlen : (frame x p).length = s.curMsgLen + 9 := by
      rw [frame, List.length_append, length_apply, length_marker, ((readMsg_ok s x).mp hx).1]
    have hcap := lengthsOk_iff.mp hok
    have hbounds := config_bounds s.cfg
    refine resultStored_of_out (frame x p) ?_ rfl (by rw [hlen]; rfl) rfl rfl
    simp only [LengthsLegal, State.curMsgLen] at *
    omega

theorem execFind_stored (h : execFind s = .next t) : ResultStored s t := by
  rcases execFind_cases s with ⟨_, e⟩ | ⟨_, _, _, e⟩ | ⟨_, _, _, _, e⟩ | ⟨hok, x, y, hx, hy, e⟩ <;> cases e.symm.trans h
  · exact resultStored_of_kept rfl rfl rfl rfl
  · exact resultStored_of_out [] (Nat.zero_le _) rfl rfl rfl rfl
  · obtain ⟨i, _, rfl⟩ := (findAndStrip_eq_some x y).mp hy
    have hlen := ((readMsg_ok s x).mp hx).1
    have hcap := lengthsOk_iff.mp hok
    have hbounds := config_bounds s.cfg
    refine resultStored_of_out (x.take i) ?_ rfl rfl rfl rfl
    simp only [LengthsLegal, State.curMsgLen, List.length_take] at *
    omega

theorem execEmbed_stored (h : execEmbed s = .next t) : ResultStored s t := by
  rcases execEmbed_cases s with ⟨_, e⟩ | ⟨_, _, e⟩ | ⟨_, _, _, e⟩ | ⟨_, _, _, _, _, e⟩ | ⟨_, _, _, x, p, pix, _, _, hw, e⟩ <;>
    cases e.symm.trans h
  · exact resultStored_of_kept rfl rfl rfl rfl
  · exact resultStored_of_kept rfl rfl rfl rfl
  · exact resultStored_of_kept rfl rfl rfl rfl
  · exact ⟨.kept rfl rfl, .kept rfl, .walked _ hw⟩

theorem execExtract_stored (h : execExtract s = .next t) : ResultStored s t := by
  rcases execExtract_cases s with ⟨_, e⟩ | ⟨_, _, e⟩ | ⟨_, _, e⟩ | ⟨_, _, _, _, _, _, e⟩ | ⟨hok, y, n, p, hscan, _, e⟩ <;>
    cases e.symm.trans h
  · exact resultStored_of_kept rfl rfl rfl rfl
  · exact ⟨.lost (fun a => decide (a < capacityOf s.curPixLen / 8)) rfl rfl, .kept rfl, .kept rfl⟩
  · have hslots := (extractScan_found_length hscan).1
    obtain ⟨_, hcap, _⟩ : LengthsLegal .extract s := lengthsOk_iff.mp hok
    have hbounds := config_bounds s.cfg
    refine resultStored_of_out (apply y p) ?_ rfl (by rw [length_apply]; rfl) rfl rfl
    simp only [State.curPixLen, capacityOf, length_apply] at *
    omega

theorem exec_stored {i : Instr} (h : exec i s = .next t) : ResultStored s t := by
  cases i with
  | ser => exact execSer_stored h
  | des => exact execDes_stored h
  | xor => exact execXor_stored h
  | frame => exact execFrame_stored h
  | find => exact execFind_stored h
  | embed => exact execEmbed_stored h
  | extract => exact execExtract_stored h

end

/-! ### Canonical buffers -/

/-- The buffers of a state are canonical, one by one. -/
structure BuffersWf (s : State) : Prop where
  msg : Store.wf s.cfg.msgCap s.msg = true
  pwd : Store.wf s.cfg.pwdCap s.pwd = true
  out : Store.wf s.cfg.outCap s.out = true
  bit : Store.wf s.cfg.bitCap s.bit = true
  pix : Store.wf s.cfg.pixCap s.pix = true

theorem memoryWf_iff (s : State) : s.memoryWf = true ↔ BuffersWf s := by
  simp only [State.memoryWf, Bool.and_eq_true]
  exact ⟨fun ⟨⟨⟨⟨hmsg, hpwd⟩, hout⟩, hbit⟩, hpix⟩ => ⟨hmsg, hpwd, hout, hbit, hpix⟩,
    fun h => ⟨⟨⟨⟨h.msg, h.pwd⟩, h.out⟩, h.bit⟩, h.pix⟩⟩

section
variable {s t : State}

theorem OutStored.wf (h : OutStored s t) (hs : Store.wf s.cfg.outCap s.out = true) : Store.wf s.cfg.outCap t.out = true := by
  cases h with
  | kept hout _ => rw [hout]; exact hs
  | written x hx hout _ => rw [hout]; exact writeFrom_wf x hs (by omega)
  | lost p hout _ => rw [hout]; exact forget_wf p hs

theorem BitStored.wf (h : BitStored s t) (hs : Store.wf s.cfg.bitCap s.bit = true) : Store.wf s.cfg.bitCap t.bit = true := by
  cases h with
  | kept hbit => rw [hbit]; exact hs
  | written b hb hbit => rw [hbit]; exact writeFrom_wf b hs (by omega)

theorem PixStored.wf (h : PixStored s t) (hs : Store.wf s.cfg.pixCap s.pix = true) : Store.wf s.cfg.pixCap t.pix = true := by
  cases h with
  | kept hpix => rw [hpix]; exact hs
  | walked b hpix => exact embedWalk_wf hs hpix

theorem buffersWf_of_exec {i : Instr} (hs : BuffersWf s) (h : exec i s = .next t) : BuffersWf t := by
  obtain ⟨_, _, _, _, _, _, hcfg, hmsg, hpwd⟩ := exec_complete h
  have hst := exec_stored h
  constructor <;> rw [hcfg]
  · rw [hmsg]; exact hs.msg
  · rw [hpwd]; exact hs.pwd
  · exact hst.out.wf hs.out
  · exact hst.bit.wf hs.bit
  · exact hst.pix.wf hs.pix

theorem buffersWf_abortCommand (hs : BuffersWf s) : BuffersWf (abortCommand s) := by
  obtain ⟨⟨p, hout⟩, ⟨q, hbit⟩, ⟨r, hpix⟩⟩ := abortCommand_forgets s
  rw [abortCommand_eq, hout, hbit, hpix]
  exact ⟨hs.msg, hs.pwd, forget_wf p hs.out, forget_wf q hs.bit, forget_wf r hs.pix⟩

theorem buffersWf_setByte {w : Window} {o : Nat} (v : Byte) (hs : BuffersWf s) (ho : o < capOf s.cfg w) :
    BuffersWf (setByte w o v s) := by
  obtain ⟨hmsg, hpwd, hbit, hpix⟩ := setByte_memoryWf v ⟨hs.msg, hs.pwd, hs.bit, hs.pix⟩ ho
  rw [setByte_eq]
  exact ⟨hmsg, hpwd, hs.out, hbit, hpix⟩

theorem buffersWf_setWord {w : Window} {o : Nat} (v : Word) (hs : BuffersWf s) (ho : o + 3 < capOf s.cfg w) :
    BuffersWf (setWord w o v s) := by
  obtain ⟨hmsg, hpwd, hbit, hpix⟩ := setWord_memoryWf v ⟨hs.msg, hs.pwd, hs.bit, hs.pix⟩ ho
  rw [setWord_eq]
  exact ⟨hmsg, hpwd, hs.out, hbit, hpix⟩

end

theorem keptByEvents_buffersWf : KeptByEvents BuffersWf where
  agenda _ hs := ⟨hs.msg, hs.pwd, hs.out, hs.bit, hs.pix⟩
  answer _ hs := ⟨hs.msg, hs.pwd, hs.out, hs.bit, hs.pix⟩
  reg hs hu := by rw [writeReg_eq hu]; exact ⟨hs.msg, hs.pwd, hs.out, hs.bit, hs.pix⟩
  byte v hs ho := buffersWf_setByte v hs ho
  word v hs ho := buffersWf_setWord v hs ho
  command hs _ h := buffersWf_of_exec hs h
  illegal hs _ := ⟨hs.msg, hs.pwd, hs.out, hs.bit, hs.pix⟩
  work hs h := by rw [workStep_next h]; exact ⟨hs.msg, hs.pwd, hs.out, hs.bit, hs.pix⟩
  reset {s} hs := by
    have ha := buffersWf_abortCommand hs
    exact ⟨ha.msg, ha.pwd, ha.out, ha.bit, ha.pix⟩
  powerOn _ := ⟨rfl, rfl, rfl, rfl, rfl⟩

/-! ### STATUS -/

/-- `statusWf`, clause by clause. -/
theorem statusWf_iff (s : State) : s.statusWf = true ↔
    (s.busy = true → s.done = false ∧ s.found = false ∧ s.err = .ok) ∧ (s.found = true → s.err = .ok) := by
  unfold State.statusWf
  cases s.busy <;> cases s.done <;> cases s.found <;> simp

/-- A completion leaves FOUND, or sets it with ERR = 0 (43 R126, 45 R156). -/
theorem found_of_exec_next {i : Instr} {s t : State} (h : exec i s = .next t) :
    t.found = s.found ∨ t.found = true ∧ t.err = .ok := by
  obtain ⟨code, w, hw, rfl⟩ := rowWrite_of_exec_next h
  cases hw with
  | find | extract => exact .inr ⟨rfl, rfl⟩
  | badLength | ser | desMalformed | out | findNothing | embedFails | embed | extractNothing => exact .inl rfl

theorem statusWf_writeReg {s u : State} {r : Reg} {w : Word} (hs : s.statusWf = true) (hu : writeReg s r w = some u) :
    u.statusWf = true := by
  rcases writeReg_cases hu with ⟨_, rfl⟩ | ⟨_, rfl⟩ | ⟨_, rfl⟩ | ⟨_, rfl⟩ | ⟨_, rfl⟩ | ⟨_, rfl⟩ | ⟨_, rfl⟩
  · exact hs
  · cases hbusy : s.busy with
    | false => rw [offer_of_idle hbusy]; rfl
    | true => rw [offer_of_busy hbusy]; exact hs
  · rw [statusWf_iff] at hs ⊢
    obtain ⟨hrun, hfound⟩ := hs
    refine ⟨fun hb => ?_, hfound⟩
    obtain ⟨hd, hf, he⟩ := hrun hb
    exact ⟨by rw [acknowledge_done, hd, Bool.false_and], hf, he⟩
  all_goals exact hs

theorem keptByEvents_statusWf : KeptByEvents fun s => s.statusWf = true where
  agenda _ hs := hs
  answer _ hs := hs
  reg hs hu := statusWf_writeReg hs hu
  byte v hs _ := by rw [setByte_eq]; exact hs
  word v hs _ := by rw [setWord_eq]; exact hs
  command {s t i} hs hbusy h := by
    have hfound : s.found = false := (((statusWf_iff s).mp hs).1 hbusy).2.1
    obtain ⟨_, hc⟩ := exists_completes_of_exec_next h
    rw [statusWf_iff, hc.busy]
    rcases found_of_exec_next h with hf | ⟨_, herr⟩
    · simp [hf, hfound]
    · simp [herr]
  illegal {s} hs hbusy := by
    have hfound : s.found = false := (((statusWf_iff s).mp hs).1 hbusy).2.1
    rw [statusWf_iff]
    simp [hfound]
  work hs h := by rw [workStep_next h]; exact hs
  reset _ := rfl
  powerOn _ := rfl

/-! ### OUT -/

theorem outReadable_of_outLen_zero {s : State} (h : s.outLen = 0) : s.OutReadable := by
  unfold State.OutReadable
  rw [h]
  exact ⟨Nat.zero_le _, fun a ha => absurd ha (Nat.not_lt_zero a)⟩

/-- The result a command writes is readable, and it keeps a readable OUT otherwise. -/
theorem OutStored.outReadable {s t : State} (h : OutStored s t) (hcfg : t.cfg = s.cfg) (hs : s.OutReadable) :
    t.OutReadable := by
  cases h with
  | kept hout hlen =>
    unfold State.OutReadable
    rw [hcfg, hout, hlen]
    exact hs
  | written x hx hout hlen =>
    have hcap := config_bounds s.cfg
    have hn : t.outLen.toNat = x.length := by rw [hlen, toNat_wordOf (by omega)]
    unfold State.OutReadable Written
    rw [hcfg, hn, hout]
    refine ⟨hx, fun a ha => ?_⟩
    rw [read_writeFrom, if_pos (by omega)]
    simpa using ha
  | lost p _ hlen => exact outReadable_of_outLen_zero hlen

theorem keptByEvents_outReadable : KeptByEvents State.OutReadable where
  agenda _ hs := hs
  answer _ hs := hs
  reg hs hu := by rw [writeReg_eq hu]; exact hs
  byte v hs _ := by rw [setByte_eq]; exact hs
  word v hs _ := by rw [setWord_eq]; exact hs
  command hs _ h := by
    obtain ⟨_, hc⟩ := exists_completes_of_exec_next h
    exact (exec_stored h).out.outReadable hc.cfg hs
  illegal hs _ := hs
  work hs h := by rw [workStep_next h]; exact hs
  reset _ := outReadable_of_outLen_zero rfl
  powerOn _ := outReadable_of_outLen_zero rfl

/-! ### The hidden cursor -/

theorem pipeWf_of_idle {s : State} (h : s.pipe = .idle) : s.pipeWf = true := by
  simp [State.pipeWf, h]

theorem pipeWf_embed_iff {s : State} {p : EmbedPipe} (h : s.pipe = .embed p) : s.pipeWf = true ↔
    s.busy = true ∧ s.cur.word = encode .embed ∧ p.k ≤ requiredBits s.curMsgLen ∧ p.px = p.k / 3 ∧ p.ch = p.k % 3 := by
  simp [State.pipeWf, h, and_assoc]

theorem pipeWf_extract_iff {s : State} {p : ExtractPipe} (h : s.pipe = .extract p) : s.pipeWf = true ↔
    s.busy = true ∧ s.cur.word = encode .extract ∧ p.n ≤ capacityOf s.curPixLen ∧ p.nbytes = p.n / 8 ∧
      p.win.length = min p.nbytes 9 ∧ p.j = p.nbytes - 9 := by
  simp [State.pipeWf, h, and_assoc]

/-- An accepted command starts its own cursor, at slot 0 (10_state R22, 40 R90). -/
theorem pipeWf_accept (c : Word) (s : State) : (accept c s).pipeWf = true := by
  have hpipe : (accept c s).pipe = Pipe.start c := rfl
  unfold Pipe.start at hpipe
  split at hpipe
  · next hd => exact (pipeWf_embed_iff hpipe).mpr ⟨rfl, decode_ok hd, Nat.zero_le _, rfl, rfl⟩
  · next hd => exact (pipeWf_extract_iff hpipe).mpr ⟨rfl, decode_ok hd, Nat.zero_le _, rfl, rfl, rfl⟩
  · exact pipeWf_of_idle hpipe

theorem pipeWf_writeReg {s u : State} {r : Reg} {w : Word} (hs : s.pipeWf = true) (hu : writeReg s r w = some u) :
    u.pipeWf = true := by
  rcases writeReg_cases hu with ⟨_, rfl⟩ | ⟨_, rfl⟩ | ⟨_, rfl⟩ | ⟨_, rfl⟩ | ⟨_, rfl⟩ | ⟨_, rfl⟩ | ⟨_, rfl⟩
  · exact hs
  · cases hbusy : s.busy with
    | false => rw [offer_of_idle hbusy]; exact pipeWf_accept w s
    | true => rw [offer_of_busy hbusy]; exact hs
  all_goals exact hs

/-- `take` counts one more LSB, and at a whole byte moves the window by one (45_extract R158). -/
theorem take_walk (p : ExtractPipe) (b : Bool) (hbytes : p.nbytes = p.n / 8) (hwin : p.win.length = min p.nbytes 9)
    (hj : p.j = p.nbytes - 9) :
    (p.take b).n = p.n + 1 ∧ (p.take b).nbytes = (p.n + 1) / 8 ∧ (p.take b).win.length = min (p.take b).nbytes 9 ∧
      (p.take b).j = (p.take b).nbytes - 9 := by
  unfold ExtractPipe.take
  split
  · refine ⟨rfl, by simp only; omega, ?_⟩
    by_cases hfull : p.win.length = 9
    · simp only [hfull, if_true, List.length_append, List.length_drop, List.length_singleton]
      omega
    · simp only [hfull, if_false, List.length_append, List.length_singleton]
      omega
  · exact ⟨rfl, by simp only; omega, hwin, hj⟩

theorem pipeWf_workEmbed {s t : State} {p : EmbedPipe} (hp : s.pipe = .embed p) (hs : s.pipeWf = true)
    (h : workEmbed p s = .next t) : t.pipeWf = true := by
  unfold workEmbed at h
  split at h
  · next hgo =>
    split at h
    · cases h
    · next sor _ =>
      split at h
      · cases h
      · cases h
        obtain ⟨hbusy, hword, _, hpx, hch⟩ := (pipeWf_embed_iff hp).mp hs
        obtain ⟨hk, hpx', hch'⟩ := advance_walk (p.load sor) hpx hch
        have hnext : p.k < requiredBits s.curMsgLen := of_decide_eq_true (Bool.and_eq_true_iff.mp hgo).2
        exact (pipeWf_embed_iff rfl).mpr ⟨hbusy, hword, by rw [hk]; exact hnext, by rw [hpx', hk], by rw [hch', hk]⟩
  · cases h; exact hs

theorem pipeWf_workExtract {s t : State} {p : ExtractPipe} (hp : s.pipe = .extract p) (hs : s.pipeWf = true)
    (h : workExtract p s = .next t) : t.pipeWf = true := by
  unfold workExtract at h
  split at h
  · next hgo =>
    split at h
    · cases h
    · next v _ =>
      cases h
      obtain ⟨hbusy, hword, _, hbytes, hwin, hj⟩ := (pipeWf_extract_iff hp).mp hs
      obtain ⟨hn, hbytes', hwin', hj'⟩ := take_walk p (lsb v) hbytes hwin hj
      have hnext : p.n < capacityOf s.curPixLen :=
        of_decide_eq_true (Bool.and_eq_true_iff.mp (Bool.and_eq_true_iff.mp hgo).1).2
      exact (pipeWf_extract_iff rfl).mpr ⟨hbusy, hword, by rw [hn]; exact hnext, by rw [hbytes', hn], hwin', hj'⟩
  · cases h; exact hs

theorem pipeWf_workStep {s t : State} (hs : s.pipeWf = true) (h : workStep s = .next t) : t.pipeWf = true := by
  unfold workStep at h
  split at h
  · cases h; exact hs
  · next p hp => exact pipeWf_workEmbed hp hs h
  · next p hp => exact pipeWf_workExtract hp hs h

theorem keptByEvents_pipeWf : KeptByEvents fun s => s.pipeWf = true where
  agenda _ hs := hs
  answer _ hs := hs
  reg hs hu := pipeWf_writeReg hs hu
  byte v hs _ := by rw [setByte_eq]; exact hs
  word v hs _ := by rw [setWord_eq]; exact hs
  command _ _ h := by
    obtain ⟨_, hc⟩ := exists_completes_of_exec_next h
    exact pipeWf_of_idle hc.pipe
  illegal _ _ := rfl
  work hs h := pipeWf_workStep hs h
  reset _ := rfl
  powerOn _ := rfl

/-! ### The obligations -/

/-- Settles O54: no event breaks the canonical form, and none touches the configuration. -/
theorem stepKeepsMemoryCanonical : Obligations.StepKeepsMemoryCanonical := by
  unfold Obligations.StepKeepsMemoryCanonical
  intro s t hs h
  rw [memoryWf_iff] at hs ⊢
  exact ⟨keptByEvents_buffersWf.step hs h, (keptByEvents_cfg s.cfg).step rfl h⟩

/-- Settles O55, by `keptByEvents_statusWf`. -/
theorem stepKeepsStatusLegal : Obligations.StepKeepsStatusLegal := by
  unfold Obligations.StepKeepsStatusLegal
  exact fun s t hs h => keptByEvents_statusWf.step hs h

/-- Settles O56, by `keptByEvents_outReadable`. -/
theorem stepKeepsOutReadable : Obligations.StepKeepsOutReadable := by
  unfold Obligations.StepKeepsOutReadable
  exact fun s t hs h => keptByEvents_outReadable.step hs h

/-- Settles O57, by `keptByEvents_pipeWf`. -/
theorem stepKeepsHiddenCursorLegal : Obligations.StepKeepsHiddenCursorLegal := by
  unfold Obligations.StepKeepsHiddenCursorLegal
  exact fun s t hs h => keptByEvents_pipeWf.step hs h

/-- Settles O53: after a reset every buffer is empty, STATUS is 0, OUT_LEN is 0 and no cursor runs. -/
theorem resetMeetsTheInvariants : Obligations.ResetMeetsTheInvariants := by
  unfold Obligations.ResetMeetsTheInvariants
  exact ⟨(memoryWf_iff _).mpr ⟨rfl, rfl, rfl, rfl, rfl⟩, rfl, outReadable_of_outLen_zero rfl, pipeWf_of_idle rfl⟩

end Sys2Proof.Machine
end

section
/-! PROOFS. What one step can change, and when (10_state R28 to R32, R41; 40 R94, R100, R103): STATUS, the buffers, the
registers of a running command, and the end of every run. -/

namespace Sys2Proof.Machine

/-! ### The event of a step -/

/-- A step that answers, by the event that comes; the engine's turn is one case, whether its event is next or none is left. -/
theorem step_comes {s t : State} (h : step s = .next t) : ∃ g,
    (EngineComes s ∧ engineTurn { s with agenda := g } = .next t) ∨
    (∃ a, s.agenda = .host a :: g ∧ hostStep a { s with agenda := g } = .next t) ∨
    (s.agenda = .work :: g ∧ workStep { s with agenda := g } = .next t) ∨
    (ResetComes s ∧ t = warmReset { s with agenda := g }) ∨
    (PowerOnComes s ∧ t = powerOnReset { s with agenda := g }) := by
  rcases step_cases h with ⟨hg, e⟩ | ⟨a, g, hg, e⟩ | ⟨g, hg, e⟩ | ⟨g, hg, e⟩ | ⟨g, hg, e⟩ | ⟨g, hg, e⟩
  · exact ⟨s.agenda, .inl ⟨.inl hg, e⟩⟩
  · exact ⟨g, .inr (.inl ⟨a, hg, e⟩)⟩
  · exact ⟨g, .inl ⟨.inr ⟨g, hg⟩, e⟩⟩
  · exact ⟨g, .inr (.inr (.inl ⟨hg, e⟩))⟩
  · exact ⟨g, .inr (.inr (.inr (.inl ⟨⟨g, hg⟩, e⟩)))⟩
  · exact ⟨g, .inr (.inr (.inr (.inr ⟨⟨g, hg⟩, e⟩)))⟩

theorem engineTurn_of_idle {s : State} (hidle : s.busy = false) : engineTurn s = .next s := by
  simp [engineTurn, hidle]

theorem engineTurn_of_decode {s : State} {i : Instr} (hbusy : s.busy = true) (hd : decode s.cur.word = .ok i) :
    engineTurn s = exec i s := by
  simp [engineTurn, engineStep, hbusy, hd]

theorem offer_cases (c : Word) (s : State) :
    (s.busy = false ∧ offer c s = accept c s) ∨ (s.busy = true ∧ offer c s = { s with ovr := true }) := by
  cases hbusy : s.busy with
  | false => exact .inl ⟨rfl, offer_of_idle hbusy c⟩
  | true => exact .inr ⟨rfl, by rw [offer_of_busy hbusy, hbusy]⟩

/-! ### STATUS -/

/-- The five STATUS fields of `t` are those of `s`. -/
structure StatusKept (s t : State) : Prop where
  busy : t.busy = s.busy
  done : t.done = s.done
  found : t.found = s.found
  ovr : t.ovr = s.ovr
  err : t.err = s.err

/-- What a step can do to STATUS, by the events that the rules name (10_state R28 to R32). -/
inductive StatusChange (s t : State) : Prop
  | kept (h : StatusKept s t)
  /-- a CMD write while idle (40 R90) -/
  | accepted (c : Word) (hcomes : RegWriteComes s 0x008 c) (hidle : s.busy = false) (h : StatusKept (accept c s) t)
      (hword : t.cur.word = c)
  /-- a CMD write while a command runs (40 R91) -/
  | dropped (c : Word) (hcomes : RegWriteComes s 0x008 c) (hbusy : s.busy = true) (h : StatusKept { s with ovr := true } t)
  /-- a STATUS write (10_state R27) -/
  | acknowledged (v : Word) (hcomes : RegWriteComes s 0x00C v) (h : StatusKept (acknowledge v s) t)
  /-- the engine completes a command (40 R93) -/
  | completed (hcomes : EngineComes s) (hrun : s.busy = true) (hbusy : t.busy = false) (hdone : t.done = true)
      (hovr : t.ovr = s.ovr)
      (hfound : t.found = s.found ∨ t.found = true ∧ (decode s.cur.word = .ok .find ∨ decode s.cur.word = .ok .extract))
  /-- a reset or a power-on (70 R190) -/
  | reset (hcomes : ResetComes s ∨ PowerOnComes s) (h : StatusKept State.reset t)

section
variable {s t : State} {g : List Event}

theorem statusChange_of_engineTurn (hcomes : EngineComes s) (h : engineTurn { s with agenda := g } = .next t) :
    StatusChange s t := by
  rcases engineTurn_next h with ⟨_, rfl⟩ | ⟨hrun, i, hd, hexec⟩ | ⟨hrun, rfl⟩
  · exact .kept ⟨rfl, rfl, rfl, rfl, rfl⟩
  · obtain ⟨code, hc⟩ := exists_completes_of_exec_next hexec
    obtain ⟨hkept, _⟩ := exec_stores hexec
    refine .completed hcomes hrun hc.busy hc.done hc.ovr (hkept.imp_right fun ⟨hfound, hi⟩ => ⟨hfound, ?_⟩)
    rcases hi with rfl | rfl
    · exact .inl hd
    · exact .inr hd
  · exact .completed hcomes hrun rfl rfl rfl (.inl rfl)

theorem statusChange_of_writeReg {b v : Word} {off : Nat} {r : Reg} {u : State} (hg : s.agenda = .host (.write32 b v) :: g)
    (hp : placeOf s.cfg b = .reg off) (hr : Reg.atOffset off = some r) (hu : writeReg { s with agenda := g } r v = some u) :
    StatusChange s { u with answer := some .okay } := by
  have haddr : RegAddressOf s.cfg off b := (placeOf_eq_reg hp).1
  have hcomes : RegWriteComes s off v := ⟨b, g, hg, haddr⟩
  rcases writeReg_cases hu with ⟨_, rfl⟩ | ⟨rfl, rfl⟩ | ⟨rfl, rfl⟩ | ⟨_, rfl⟩ | ⟨_, rfl⟩ | ⟨_, rfl⟩ | ⟨_, rfl⟩
  · exact .kept ⟨rfl, rfl, rfl, rfl, rfl⟩
  · cases atOffset_cmd hr
    rcases offer_cases v { s with agenda := g } with ⟨hidle, e⟩ | ⟨hbusy, e⟩ <;> rw [e]
    · exact .accepted v hcomes hidle ⟨rfl, rfl, rfl, rfl, rfl⟩ rfl
    · exact .dropped v hcomes hbusy ⟨rfl, rfl, rfl, rfl, rfl⟩
  · cases atOffset_status hr
    exact .acknowledged v hcomes ⟨rfl, rfl, rfl, rfl, rfl⟩
  all_goals exact .kept ⟨rfl, rfl, rfl, rfl, rfl⟩

theorem statusChange_of_hostStep {a : Access} (hg : s.agenda = .host a :: g)
    (h : hostStep a { s with agenda := g } = .next t) : StatusChange s t := by
  rcases hostStep_cases h with ⟨_, rfl, _⟩ | ⟨_, _, _, _, _, rfl, hp, hr, hu, rfl⟩ | ⟨_, _, _, _, _, _, _, _, _, rfl⟩ |
    ⟨_, _, _, _, _, _, _, _, _, rfl⟩
  · exact .kept ⟨rfl, rfl, rfl, rfl, rfl⟩
  · exact statusChange_of_writeReg hg hp hr hu
  · rw [setByte_eq]
    exact .kept ⟨rfl, rfl, rfl, rfl, rfl⟩
  · rw [setWord_eq]
    exact .kept ⟨rfl, rfl, rfl, rfl, rfl⟩

theorem step_statusChange (h : step s = .next t) : StatusChange s t := by
  obtain ⟨g, ⟨hcomes, e⟩ | ⟨a, hg, e⟩ | ⟨_, e⟩ | ⟨hcomes, rfl⟩ | ⟨hcomes, rfl⟩⟩ := step_comes h
  · exact statusChange_of_engineTurn hcomes e
  · exact statusChange_of_hostStep hg e
  · rw [workStep_next e]
    exact .kept ⟨rfl, rfl, rfl, rfl, rfl⟩
  · exact .reset (.inl hcomes) ⟨rfl, rfl, rfl, rfl, rfl⟩
  · exact .reset (.inr hcomes) ⟨rfl, rfl, rfl, rfl, rfl⟩

end

/-! ### The buffers -/

/-- Buffer `w` of `t` is that of `s`. -/
def SameBuffer (w : Window) (s t : State) : Prop :=
  match w with
  | .marker => True
  | .msg => t.msg = s.msg
  | .pwd => t.pwd = s.pwd
  | .out => t.out = s.out
  | .bit => t.bit = s.bit
  | .pix => t.pix = s.pix

theorem sameBuffer_refl (w : Window) (s : State) : SameBuffer w s s := by
  cases w <;> simp [SameBuffer]

/-- Every buffer but `w` of `t` is that of `s`. -/
def ChangesOnly (w : Window) (s t : State) : Prop := ∀ b, b ≠ w → SameBuffer b s t

/-- The buffer that a command may write (30_encoding R86). -/
def resultWindow : Instr → Window
  | .ser => .bit
  | .des => .out
  | .xor => .out
  | .frame => .out
  | .find => .out
  | .embed => .pix
  | .extract => .out

section
variable {s t : State}

theorem changesOnly_of_out (hmsg : t.msg = s.msg) (hpwd : t.pwd = s.pwd) (hbit : t.bit = s.bit) (hpix : t.pix = s.pix) :
    ChangesOnly .out s t := by
  intro b hb
  cases b <;> simp [SameBuffer, hmsg, hpwd, hbit, hpix] at hb ⊢

theorem changesOnly_of_bit (hmsg : t.msg = s.msg) (hpwd : t.pwd = s.pwd) (hout : t.out = s.out) (hpix : t.pix = s.pix) :
    ChangesOnly .bit s t := by
  intro b hb
  cases b <;> simp [SameBuffer, hmsg, hpwd, hout, hpix] at hb ⊢

theorem changesOnly_of_pix (hmsg : t.msg = s.msg) (hpwd : t.pwd = s.pwd) (hout : t.out = s.out) (hbit : t.bit = s.bit) :
    ChangesOnly .pix s t := by
  intro b hb
  cases b <;> simp [SameBuffer, hmsg, hpwd, hout, hbit] at hb ⊢

end

theorem changesOnly_exec {i : Instr} {s t : State} (h : exec i s = .next t) : ChangesOnly (resultWindow i) s t := by
  obtain ⟨_, _, _, _, _, _, _, hmsg, hpwd⟩ := exec_complete h
  obtain ⟨_, hbit, hpix, hout⟩ := exec_stores h
  cases i with
  | ser => exact changesOnly_of_bit hmsg hpwd (hout.resolve_left (by decide)) (hpix.resolve_left nofun)
  | des | xor | frame | find | extract =>
    exact changesOnly_of_out hmsg hpwd (hbit.resolve_left nofun) (hpix.resolve_left nofun)
  | embed => exact changesOnly_of_pix hmsg hpwd (hout.resolve_left (by decide)) (hbit.resolve_left nofun)

/-- An aborted command loses bytes of the buffer it writes, and of no other (70 R191). -/
theorem changesOnly_loseBytes (i : Instr) (s : State) : ChangesOnly (resultWindow i) s (loseBytes i s) := by
  cases i with
  | ser => exact changesOnly_of_bit rfl rfl rfl rfl
  | des | xor | frame | find | extract => exact changesOnly_of_out rfl rfl rfl rfl
  | embed => exact changesOnly_of_pix rfl rfl rfl rfl

theorem changesOnly_setByte (w : Window) (o : Nat) (v : Byte) (s : State) : ChangesOnly w s (setByte w o v s) := by
  intro b hb
  cases w <;> cases b <;> simp [SameBuffer, setByte] at hb ⊢

theorem ChangesOnly.trans {w : Window} {s t u : State} (h : ChangesOnly w s t) (h' : ChangesOnly w t u) :
    ChangesOnly w s u := by
  intro b hb
  have hst := h b hb
  have htu := h' b hb
  cases b with
  | marker => trivial
  | msg | pwd | out | bit | pix => exact Eq.trans htu hst

theorem changesOnly_setWord (w : Window) (o : Nat) (v : Word) (s : State) : ChangesOnly w s (setWord w o v s) :=
  (((changesOnly_setByte w _ _ s).trans (changesOnly_setByte w _ _ _)).trans (changesOnly_setByte w _ _ _)).trans
    (changesOnly_setByte w _ _ _)

/-- What a step can do to the buffers, by its writers (10_state R41). -/
inductive BufferChange (s t : State) : Prop
  | kept (h : ∀ w, SameBuffer w s t)
  | written (w : Window) (hw : w.hostWritable = true) (hcomes : BufferWriteComes s w) (h : ChangesOnly w s t)
  | ended (i : Instr) (hends : CommandEnds i s t) (h : ChangesOnly (resultWindow i) s t)
  | powerOn (hcomes : PowerOnComes s)

section
variable {s t : State} {g : List Event}

theorem bufferChange_of_engineTurn (hcomes : EngineComes s) (h : engineTurn { s with agenda := g } = .next t) :
    BufferChange s t := by
  rcases engineTurn_next h with ⟨_, rfl⟩ | ⟨hrun, i, hd, hexec⟩ | ⟨_, rfl⟩
  · exact .kept fun w => sameBuffer_refl w s
  · have hidle := (exec_complete hexec).1
    have honly := changesOnly_exec hexec
    exact .ended i ⟨hrun, hidle, hd, .inl hcomes⟩ honly
  · exact .kept fun w => sameBuffer_refl w s

/-- The host can write a buffer only while idle (20_memory R68). -/
theorem busy_eq_false_of_write {w : Window} (hz : hazard s w = false) (hw : w.hostWritable = true) : s.busy = false := by
  have hm : w ≠ .marker := by rintro rfl; cases hw
  simpa [hazard, hm] using hz

theorem bufferChange_of_hostStep {a : Access} (hg : s.agenda = .host a :: g)
    (h : hostStep a { s with agenda := g } = .next t) : BufferChange s t := by
  rcases hostStep_cases h with ⟨_, rfl, _⟩ | ⟨_, _, _, _, _, _, _, _, hu, rfl⟩ | ⟨b, v, w, o, rfl, hp, ho, hz, hw, rfl⟩ |
    ⟨b, v, w, o, rfl, hp, hf, hz, hw, rfl⟩
  · exact .kept fun w => sameBuffer_refl w s
  · rw [writeReg_eq hu]
    exact .kept fun w => sameBuffer_refl w s
  · have hidle := busy_eq_false_of_write hz hw
    exact .written w hw ⟨hidle, _, o, g, hg, .inl ⟨b, v, rfl⟩, (placeOf_eq_buffer hp).1, ho⟩ (changesOnly_setByte w o v _)
  · have hidle := busy_eq_false_of_write hz hw
    have ho : o < capOf s.cfg w := Nat.lt_of_le_of_lt (Nat.le_add_right o 3) (wordFits_iff.mp hf).2
    exact .written w hw ⟨hidle, _, o, g, hg, .inr ⟨b, v, rfl⟩, (placeOf_eq_buffer hp).1, ho⟩ (changesOnly_setWord w o v _)

theorem bufferChange_of_reset (hcomes : ResetComes s) : BufferChange s (warmReset { s with agenda := g }) := by
  rcases abortCommand_cases { s with agenda := g } with ⟨i, hrun, hd, _, e⟩ | ⟨_, e⟩
  · rw [warmReset, e]
    exact .ended i ⟨hrun, rfl, hd, .inr hcomes⟩ (changesOnly_loseBytes i { s with agenda := g })
  · rw [warmReset, e]
    exact .kept fun w => sameBuffer_refl w s

theorem step_bufferChange (h : step s = .next t) : BufferChange s t := by
  obtain ⟨g, ⟨hcomes, e⟩ | ⟨a, hg, e⟩ | ⟨_, e⟩ | ⟨hcomes, rfl⟩ | ⟨hcomes, rfl⟩⟩ := step_comes h
  · exact bufferChange_of_engineTurn hcomes e
  · exact bufferChange_of_hostStep hg e
  · rw [workStep_next e]
    exact .kept fun w => sameBuffer_refl w s
  · exact bufferChange_of_reset hcomes
  · exact .powerOn hcomes

/-- A buffer that changed was written by the host, or by a command that ended, or lost at a power-on. -/
theorem BufferChange.writers (h : BufferChange s t) {w : Window} (hne : ¬ SameBuffer w s t) :
    (w.hostWritable = true ∧ BufferWriteComes s w) ∨ (∃ i, resultWindow i = w ∧ CommandEnds i s t) ∨ PowerOnComes s := by
  cases h with
  | kept h => exact absurd (h w) hne
  | written w' hw hcomes h =>
    have e : w = w' := by_contra fun he => hne (h w he)
    exact .inl (e ▸ ⟨hw, hcomes⟩)
  | ended i hends h => exact .inr (.inl ⟨i, by_contra fun he => hne (h w (Ne.symm he)), hends⟩)
  | powerOn hcomes => exact .inr (.inr hcomes)

/-- A buffer that no command writes. -/
theorem BufferChange.writers_of_input (h : BufferChange s t) {w : Window} (hne : ¬ SameBuffer w s t)
    (hw : ∀ i, resultWindow i ≠ w) : BufferWriteComes s w ∨ PowerOnComes s := by
  rcases h.writers hne with ⟨_, hcomes⟩ | ⟨i, hi, _⟩ | hcomes
  · exact .inl hcomes
  · exact absurd hi (hw i)
  · exact .inr hcomes

/-- A buffer that command `j` alone writes. -/
theorem BufferChange.writers_of_single (h : BufferChange s t) {w : Window} (hne : ¬ SameBuffer w s t) {j : Instr}
    (hw : ∀ i, resultWindow i = w → i = j) : BufferWriteComes s w ∨ CommandEnds j s t ∨ PowerOnComes s := by
  rcases h.writers hne with ⟨_, hcomes⟩ | ⟨i, hi, hends⟩ | hcomes
  · exact .inl hcomes
  · exact .inr (.inl (hw i hi ▸ hends))
  · exact .inr (.inr hcomes)

/-- A buffer that the host cannot write. -/
theorem BufferChange.writers_of_output (h : BufferChange s t) {w : Window} (hne : ¬ SameBuffer w s t)
    (hw : w.hostWritable = false) : (∃ i, resultWindow i = w ∧ CommandEnds i s t) ∨ PowerOnComes s := by
  rcases h.writers hne with ⟨hwrite, _⟩ | hends | hcomes
  · cases hw.symm.trans hwrite
  · exact .inl hends
  · exact .inr hcomes

theorem resultWindow_eq_out {i : Instr} (h : resultWindow i = .out) : i ∈ [Instr.des, .xor, .frame, .find, .extract] := by
  cases i with
  | ser | embed => cases h
  | des | xor | frame | find | extract => decide

end

/-! ### While a command runs -/

section
variable {s t : State}

/-- While a command runs, with DONE = 0, the host can change CTRL.IE, OVR and the operand registers alone. -/
theorem writeReg_eq_of_busy {r : Reg} {w : Word} (hbusy : s.busy = true) (hdone : s.done = false)
    (h : writeReg s r w = some t) :
    t = { s with
      ie := t.ie, ovr := t.ovr, msgLen := t.msgLen, pwdLen := t.pwdLen, pixLen := t.pixLen, bitLen := t.bitLen } ∧
    (t.bitLen = s.bitLen ∨ r = .bitLen) := by
  rcases writeReg_cases h with ⟨_, rfl⟩ | ⟨_, rfl⟩ | ⟨_, rfl⟩ | ⟨_, rfl⟩ | ⟨_, rfl⟩ | ⟨_, rfl⟩ | ⟨hr, rfl⟩
  · exact ⟨rfl, .inl rfl⟩
  · rw [offer_of_busy hbusy]
    exact ⟨rfl, .inl rfl⟩
  · exact ⟨by simp [acknowledge, hdone], .inl rfl⟩
  · exact ⟨rfl, .inl rfl⟩
  · exact ⟨rfl, .inl rfl⟩
  · exact ⟨rfl, .inl rfl⟩
  · exact ⟨rfl, .inr hr⟩

/-- What a step can change before the completion (20_memory R67): nothing but CTRL.IE, OVR, the operand registers, the hidden
cursor, the last answer and the coming events. -/
structure RunKept (s t : State) : Prop where
  eq : t = { s with
    ie := t.ie, ovr := t.ovr, msgLen := t.msgLen, pwdLen := t.pwdLen, pixLen := t.pixLen, bitLen := t.bitLen
    pipe := t.pipe, answer := t.answer, agenda := t.agenda }
  bitLen : t.bitLen = s.bitLen ∨ ∃ v, RegWriteComes s 0x01C v

theorem runKept_of_hostStep {a : Access} {g : List Event} (hbusy : s.busy = true) (hdone : s.done = false)
    (hg : s.agenda = .host a :: g) (h : hostStep a { s with agenda := g } = .next t) : RunKept s t := by
  rcases hostStep_cases h with ⟨_, rfl, _⟩ | ⟨b, v, _, _, u, rfl, hp, hr, hu, rfl⟩ | ⟨_, _, _, _, _, _, _, hz, hw, _⟩ |
    ⟨_, _, _, _, _, _, _, hz, hw, _⟩
  · exact ⟨rfl, .inl rfl⟩
  · obtain ⟨heq, hbit⟩ := writeReg_eq_of_busy (s := { s with agenda := g }) hbusy hdone hu
    refine ⟨by rw [heq], hbit.imp_right ?_⟩
    rintro rfl
    cases atOffset_bitLen hr
    exact ⟨v, b, g, hg, (placeOf_eq_reg hp).1⟩
  · cases hbusy.symm.trans (busy_eq_false_of_write hz hw)
  · cases hbusy.symm.trans (busy_eq_false_of_write hz hw)

theorem runKept_of_step (hbusy : s.busy = true) (hdone : s.done = false) (h : step s = .next t) (hrun : t.busy = true) :
    RunKept s t := by
  obtain ⟨g, ⟨_, e⟩ | ⟨a, hg, e⟩ | ⟨_, e⟩ | ⟨_, rfl⟩ | ⟨_, rfl⟩⟩ := step_comes h
  · cases hrun.symm.trans (engineTurn_busy e).1
  · exact runKept_of_hostStep hbusy hdone hg e
  · rw [workStep_next e]
    exact ⟨rfl, .inl rfl⟩
  · cases hrun
  · cases hrun

end

/-! ### Runs -/

/-- Each step takes one event, and with none left the engine's turn leaves BUSY = 0 (40 R94). -/
theorem run_ends (n : Nat) (s : State) (hn : s.agenda.length = n) :
    (∃ t, Sys2Proof.core.run (n + 1) s = .next t ∧ t.ended = true) ∨ ∃ f, Sys2Proof.core.run (n + 1) s = .fault f := by
  induction n generalizing s with
  | zero =>
    have hnil : s.agenda = [] := List.length_eq_zero_iff.mp hn
    cases hstep : step s with
    | next t =>
      have hidle : t.busy = false := (engineTurn_busy (step_nil hnil ▸ hstep)).1
      refine .inl ⟨t, run_next hstep 0, ?_⟩
      simp [State.ended, step_agenda hstep, hnil, hidle]
    | fault f => exact .inr ⟨f, run_fault hstep 0⟩
    | refused r => exact absurd hstep (step_not_refused s r)
  | succ n ih =>
    cases hstep : step s with
    | next t =>
      rw [run_next hstep]
      exact ih t (by rw [step_agenda hstep, List.length_tail, hn, Nat.add_sub_cancel])
    | fault f => exact .inr ⟨f, run_fault hstep (n + 1)⟩
    | refused r => exact absurd hstep (step_not_refused s r)

/-! ### The obligations -/

/-- Settles O58: a changed buffer was written by one of its writers (`BufferChange.writers`): MSG and PWD by no command, BIT and PIX
by one command each, OUT by no host. -/
theorem buffersChangeOnlyByTheirWriters : Obligations.BuffersChangeOnlyByTheirWriters := by
  unfold Obligations.BuffersChangeOnlyByTheirWriters
  intro s t h
  have hchange := step_bufferChange h
  refine ⟨fun hne => hchange.writers_of_input (w := .msg) hne (by intro i; cases i <;> decide),
    fun hne => hchange.writers_of_input (w := .pwd) hne (by intro i; cases i <;> decide), fun hne => ?_,
    fun hne => hchange.writers_of_single (w := .bit) hne (by intro i; cases i <;> decide),
    fun hne => hchange.writers_of_single (w := .pix) hne (by intro i; cases i <;> decide)⟩
  exact (hchange.writers_of_output (w := .out) hne rfl).imp_left fun ⟨i, hi, hends⟩ => ⟨i, resultWindow_eq_out hi, hends⟩

/-- Settles O11: of the changes of `StatusChange`, each clause's bit moves the named way at the named events alone. -/
theorem statusBitsChangeOnlyAsTheRulesSay : Obligations.StatusBitsChangeOnlyAsTheRulesSay := by
  unfold Obligations.StatusBitsChangeOnlyAsTheRulesSay
  intro s t h
  cases step_statusChange h with
  | kept h => simp +contextual [h.busy, h.done, h.found, h.ovr, h.err]
  | accepted c hcomes hidle h hword =>
    have hcmd : ∃ c, RegWriteComes s 0x008 c := ⟨c, hcomes⟩
    simp +contextual [h.busy, h.done, h.found, h.ovr, hidle, hword, hcomes, hcmd]
  | dropped c hcomes hbusy h =>
    have hcmd : ∃ c, RegWriteComes s 0x008 c := ⟨c, hcomes⟩
    simp +contextual [h.busy, h.done, h.found, h.ovr, h.err, hbusy, hcmd]
  | acknowledged v hcomes h =>
    have hack (k : Nat) (hk : k < 32) (h : v[k] = true) : ∃ v, RegWriteComes s 0x00C v ∧ v[k] = true := ⟨v, hcomes, h⟩
    simp +contextual [h.busy, h.done, h.found, h.ovr, h.err, hack]
  | completed hcomes hrun hbusy hdone hovr hfound =>
    refine ⟨by simp [hrun], fun _ _ => .inl hcomes, fun _ _ => ⟨hrun, hbusy, hcomes⟩, by simp [hdone], fun h0 h1 => ?_,
      fun h1 h0 => ?_, by simp +contextual [hovr], by simp +contextual [hovr], fun _ => .inr (.inl ⟨hrun, hbusy, hcomes⟩)⟩
    · exact ⟨hrun, hbusy, hcomes, (hfound.resolve_left (by simp [h0, h1])).2⟩
    · simp [h0, h1] at hfound
  | reset hcomes h => simp [h.busy, h.done, h.found, h.ovr, hcomes, State.reset]

/-- Settles O10, by the frame of `RunKept`. -/
theorem nothingShowsBeforeCompletion : Obligations.NothingShowsBeforeCompletion := by
  unfold Obligations.NothingShowsBeforeCompletion
  intro s t hbusy hdone h hrun
  obtain ⟨heq, hbit⟩ := runKept_of_step hbusy hdone h hrun
  refine ⟨?_, ?_, ?_, ?_, ?_, ?_, ?_, ?_, ?_, ?_, ?_, ?_, hbit⟩ <;> rw [heq]

/-- Settles O12, by induction over the events (`run_ends`). -/
theorem everyRunEndsIdle : Obligations.EveryRunEndsIdle := by
  unfold Obligations.EveryRunEndsIdle
  intro s
  rcases run_ends s.agenda.length s rfl with ⟨t, e, hended⟩ | ⟨f, e⟩ <;> rw [e]
  · exact hended
  · trivial

/-- Settles O5: the engine's turn runs the decoded command. -/
theorem stepRunsTheDecodedCommand : Obligations.StepRunsTheDecodedCommand := by
  unfold Obligations.StepRunsTheDecodedCommand
  refine fun s i hbusy hd => ⟨fun rest hg => ?_, fun hg => ?_⟩
  · exact (step_cons hg).trans (engineTurn_of_decode (s := { s with agenda := rest }) hbusy hd)
  · exact (step_nil hg).trans (engineTurn_of_decode hbusy hd)

/-- Settles O6, by `step_cons` and `step_nil`. -/
theorem stepTakesTheNextEvent : Obligations.StepTakesTheNextEvent := by
  unfold Obligations.StepTakesTheNextEvent
  exact ⟨fun s rest => ⟨fun a hg => step_cons hg, fun hg => step_cons hg, fun hg => step_cons hg, fun hg => step_cons hg,
    fun hg => step_cons hg⟩, fun s hg => step_nil hg, fun s hidle => engineTurn_of_idle hidle⟩

end Sys2Proof.Machine
end

section
/-! PROOFS. Every access of the host bus (20_memory R51 to R60, R63, R68): the reads and writes of the registers, the accesses a
buffer refuses, its byte accesses, and accesses made again. -/

namespace Sys2Proof.Machine

/-! ### Registers -/

section
variable {s : State} {a : Word} {off : Nat} {r : Reg}

/-- A READ of a write-only register gets ERROR (R59). -/
theorem hostStep_read32_writeOnly (ha : RegAddressOf s.cfg off a) (hr : Reg.atOffset off = some r)
    (hv : readReg s r = none) : hostStep (.read32 a) s = .next { s with answer := some .error } := by
  simp only [hostStep, Access.addr, placeOf_of_regAddressOf ha hr, regAccess, hr, hv, answered]

/-- A WRITE to a read-only register gets ERROR (R59). -/
theorem hostStep_write32_readOnly {w : Word} (ha : RegAddressOf s.cfg off a) (hr : Reg.atOffset off = some r)
    (hw : writeReg s r w = none) : hostStep (.write32 a w) s = .next { s with answer := some .error } := by
  simp only [hostStep, Access.addr, placeOf_of_regAddressOf ha hr, regAccess, hr, hw, answered]

/-- A register write made again leaves the register as it is; CMD alone takes a second word differently (R63). -/
theorem writeReg_idem {u : State} {w : Word} (hr : r ≠ .cmd) (hu : writeReg s r w = some u) : writeReg u r w = some u := by
  rcases writeReg_cases hu with ⟨rfl, rfl⟩ | ⟨rfl, _⟩ | ⟨rfl, rfl⟩ | ⟨rfl, rfl⟩ | ⟨rfl, rfl⟩ | ⟨rfl, rfl⟩ | ⟨rfl, rfl⟩
  · rfl
  · exact absurd rfl hr
  · simp [writeReg, acknowledge]
  all_goals rfl

end

/-! ### Addresses -/

/-- An access to an offset of a buffer's window, valid or not, by its address. -/
theorem hostStep_of_window {s : State} {acc : Access} {w : Window} {o : Nat} (ha : AddressOf s.cfg w o acc.addr)
    (ho : o < w.size) : hostStep acc s = bufferAccess acc w o s := by
  simp only [hostStep, placeOf_buffer ha ho]

theorem placeAt_gap {rel : Nat} (h : 0x2000 ≤ rel) (h' : rel < 0x4000000) : placeAt rel = .outside := by
  rw [placeAt_eq, if_neg (by omega), if_neg (by omega), if_pos h']

theorem placeAt_beyond {rel : Nat} (h : 0x40000000 ≤ rel) : placeAt rel = .outside := by
  rw [placeAt_eq]
  simp (disch := omega) only [if_neg]

/-- Below SCC_BASE, beyond the last window and in the gap after MARKER there is no window (R50, R51). -/
theorem placeOf_eq_outside {c : Config} {a : Word} (h : a.toNat < c.sccBase.toNat ∨ c.sccBase.toNat + 0x40000000 ≤ a.toNat ∨
    (c.sccBase.toNat + 0x2000 ≤ a.toNat ∧ a.toNat < c.sccBase.toNat + 0x04000000)) : placeOf c a = .outside := by
  unfold placeOf
  split
  · rfl
  · rcases h with h | h | ⟨h, h'⟩
    · contradiction
    · exact placeAt_beyond (by omega)
    · exact placeAt_gap (by omega) (by omega)

/-! ### Accesses to a buffer -/

section
variable {s : State} {w : Window} {o : Nat}

theorem bufferAccess_of_invalid (acc : Access) (h : capOf s.cfg w ≤ o) : bufferAccess acc w o s = answered .error s :=
  if_pos h

theorem bufferAccess_of_hazard (acc : Access) (ho : o < capOf s.cfg w) (hz : hazard s w = true) :
    bufferAccess acc w o s = .fault (.hostBufferAccessWhileBusy w) := by
  unfold bufferAccess
  rw [if_neg (Nat.not_le.mpr ho), if_pos hz]

variable (hz : hazard s w = false)
include hz

/-- A 1-byte READ that meets no hazard: the byte, or the fault of R48. -/
theorem bufferAccess_read8 (a : Word) (ho : o < capOf s.cfg w) : bufferAccess (.read8 a) w o s =
    (s.byteAt w o).elim (.fault (.hostReadUnwritten w)) fun v => answered (.data8 v) s := by
  simp only [bufferAccess, if_neg (Nat.not_le.mpr ho), hz, Bool.false_eq_true, if_false]
  cases s.byteAt w o <;> rfl

/-- A 1-byte WRITE to a writable buffer stores the byte. -/
theorem bufferAccess_write8 (a : Word) (v : Byte) (ho : o < capOf s.cfg w) (hw : w.hostWritable = true) :
    bufferAccess (.write8 a v) w o s = answered .okay (setByte w o v s) := by
  simp only [bufferAccess, if_neg (Nat.not_le.mpr ho), hz, hw, Bool.false_eq_true, if_false, if_true]

/-- A buffer that the host may not write answers a WRITE with ERROR (R59). -/
theorem bufferAccess_of_readOnly {acc : Access} (hacc : (∃ a v, acc = .write8 a v) ∨ ∃ a v, acc = .write32 a v)
    (hw : w.hostWritable = false) : bufferAccess acc w o s = answered .error s := by
  unfold bufferAccess
  split
  · rfl
  · rcases hacc with ⟨a, v, rfl⟩ | ⟨a, v, rfl⟩ <;> simp [hz, hw]

/-- A 4-byte access that is misaligned or not wholly inside gets ERROR (R57). -/
theorem bufferAccess_of_misfit {acc : Access} (hacc : (∃ a, acc = .read32 a) ∨ ∃ a v, acc = .write32 a v)
    (hf : wordFits s.cfg w o = false) : bufferAccess acc w o s = answered .error s := by
  unfold bufferAccess
  split
  · rfl
  · rcases hacc with ⟨a, rfl⟩ | ⟨a, v, rfl⟩ <;> simp [hz, hf]

end

/-- An access that changed the last answer alone does the same again. -/
theorem hostStep_again_of_answer {acc : Access} {s t : State} {r : Response} (h : hostStep acc s = .next t)
    (ht : t = { s with answer := some r }) : hostStep acc t = .next t := by
  rw [← h, ht, hostStep_answer]

/-! ### The obligations -/

/-- Settles O22: `byteAt_setByte` says which byte the write leaves where. -/
theorem byteWriteStoresTheByte : Obligations.ByteWriteStoresTheByte := by
  unfold Obligations.ByteWriteStoresTheByte
  intro s w o a v ha ho hidle hm hout
  have hw := hostWritable_of_ne hm hout
  refine ⟨{ setByte w o v s with answer := some .okay }, ?_, rfl, ?_, fun w' o' hother => ?_, ?_⟩
  · rw [hostStep_of_addressOf ha ho, bufferAccess_write8 (hazard_eq_false (.inl hidle)) a v ho hw]
    rfl
  · rw [byteAt_answer, byteAt_setByte hw, if_pos ⟨rfl, rfl⟩, bitByte_lsb]
  · rw [byteAt_answer, byteAt_setByte hw, if_neg]
    rintro ⟨rfl, rfl⟩
    exact hother.elim (· rfl) (· rfl)
  · rw [setByte_eq]

/-- Settles O28: a READ changes the answer alone (`hostStep_cases`), and what a WRITE stores it finds stored. -/
theorem readsAreFreeAndWritesIdempotent : Obligations.ReadsAreFreeAndWritesIdempotent := by
  unfold Obligations.ReadsAreFreeAndWritesIdempotent
  refine ⟨fun s t acc hread h => ?_, fun s t acc _ hcmd h => ?_⟩
  · rcases hostStep_cases h with ⟨r, rfl, _⟩ | ⟨_, _, _, _, _, rfl, _⟩ | ⟨_, _, _, _, rfl, _⟩ | ⟨_, _, _, _, rfl, _⟩
    · rfl
    all_goals simp at hread
  · rcases hostStep_cases h with ⟨r, ht, _⟩ | ⟨b, v, off, r, u, rfl, hp, hr, hu, rfl⟩ | ⟨b, v, w, o, rfl, hp, ho, hz, hw, rfl⟩ |
      ⟨b, v, w, o, rfl, hp, hf, hz, hw, rfl⟩
    · exact hostStep_again_of_answer h ht
    · have haddr := (placeOf_eq_reg hp).1
      have hr' : r ≠ .cmd := by
        rintro rfl
        cases atOffset_cmd hr
        exact hcmd haddr
      have hcfg : u.cfg = s.cfg := (keptByEvents_cfg s.cfg).reg rfl hu
      have haddr' : RegAddressOf u.cfg off b := hcfg ▸ haddr
      rw [hostStep_answer, hostStep_write32_reg haddr' hr (writeReg_idem hr' hu)]
    · have haddr : AddressOf (setByte w o v s).cfg w o b := by rw [setByte_eq]; exact (placeOf_eq_buffer hp).1
      have ho' : o < capOf (setByte w o v s).cfg w := by rw [setByte_eq]; exact ho
      have hz' : hazard (setByte w o v s) w = false := by rw [setByte_eq]; exact hz
      rw [hostStep_answer, hostStep_of_addressOf haddr ho', bufferAccess_write8 hz' b v ho' hw, setByte_idem]
      rfl
    · have haddr : AddressOf (setWord w o v s).cfg w o b := by rw [setWord_eq]; exact (placeOf_eq_buffer hp).1
      have hf' : wordFits (setWord w o v s).cfg w o = true := by rw [setWord_eq]; exact hf
      have hz' : hazard (setWord w o v s) w = false := by rw [setWord_eq]; exact hz
      have ho' : o < capOf (setWord w o v s).cfg w := Nat.lt_of_le_of_lt (Nat.le_add_right o 3) (wordFits_iff.mp hf').2
      rw [hostStep_answer, hostStep_of_addressOf haddr ho', bufferAccess_write32 b v hf' hz' hw, setWord_idem]
      rfl

/-- Settles O15: each offset of the table holds a register that reads as the table's value. -/
theorem registerReadsAnswer : Obligations.RegisterReadsAnswer := by
  unfold Obligations.RegisterReadsAnswer
  intro s a off v ha hmem
  simp only [List.mem_cons, List.not_mem_nil, Prod.mk.injEq, or_false] at hmem
  obtain ⟨r, hr, hv⟩ : ∃ r, Reg.atOffset off = some r ∧ readReg s r = some v := by
    rcases hmem with ⟨rfl, rfl⟩ | ⟨rfl, rfl⟩ | ⟨rfl, rfl⟩ | ⟨rfl, rfl⟩ | ⟨rfl, rfl⟩ | ⟨rfl, rfl⟩ | ⟨rfl, rfl⟩ | ⟨rfl, rfl⟩ |
      ⟨rfl, rfl⟩ | ⟨rfl, rfl⟩ | ⟨rfl, rfl⟩ | ⟨rfl, rfl⟩ | ⟨rfl, rfl⟩ | ⟨rfl, rfl⟩ | ⟨rfl, rfl⟩ <;> exact ⟨_, rfl, rfl⟩
  exact hostStep_read32_reg ha hr hv

/-- Settles O16: each offset holds a register that takes the whole word. -/
theorem operandRegistersStoreEveryValue : Obligations.OperandRegistersStoreEveryValue := by
  unfold Obligations.OperandRegistersStoreEveryValue
  exact fun s a w => ⟨fun ha => hostStep_write32_reg (r := .msgLen) ha rfl rfl,
    fun ha => hostStep_write32_reg (r := .pwdLen) ha rfl rfl, fun ha => hostStep_write32_reg (r := .pixLen) ha rfl rfl,
    fun ha => hostStep_write32_reg (r := .bitLen) ha rfl rfl⟩

/-- Settles O17: CAPACITY is computed from PIX_LEN, and three quarters of a word fit in a word. -/
theorem capacityReadsLivePixLen : Obligations.CapacityReadsLivePixLen := by
  unfold Obligations.CapacityReadsLivePixLen
  refine fun s a w ha => ⟨⟨s.capacity, hostStep_read32_reg ha rfl rfl, ?_⟩, hostStep_write32_readOnly ha rfl rfl⟩
  have hlen := s.pixLen.isLt
  exact toNat_wordOf (by unfold capacityOf; omega)

/-- Settles O20: such an address lies outside every window, or at an offset that is not valid. -/
theorem unmappedAccessGetsError : Obligations.UnmappedAccessGetsError := by
  unfold Obligations.UnmappedAccessGetsError
  intro s acc h
  by_cases hout : placeOf s.cfg acc.addr = .outside
  · simp only [hostStep, hout, answered]
  · obtain ⟨w, o, ha, hcap, ho⟩ : ∃ (w : Window) (o : Nat), AddressOf s.cfg w o acc.addr ∧ capOf s.cfg w ≤ o ∧ o < w.size := by
      rcases h with h | h | h | h
      · exact absurd (placeOf_eq_outside (.inl h)) hout
      · exact absurd (placeOf_eq_outside (.inr (.inl h))) hout
      · exact absurd (placeOf_eq_outside (.inr (.inr h))) hout
      · exact h
    rw [hostStep_of_window ha ho, bufferAccess_of_invalid acc hcap, answered]

/-- Settles O21, by `bufferAccess_read8`. -/
theorem byteReadAnswersTheByte : Obligations.ByteReadAnswersTheByte := by
  unfold Obligations.ByteReadAnswersTheByte
  intro s w o a ha ho hidle
  rw [hostStep_of_addressOf (acc := .read8 a) ha ho, bufferAccess_read8 (hazard_eq_false hidle) a ho]
  exact ⟨fun v hv => by rw [hv]; rfl, fun hnone => by rw [hnone]; rfl⟩

/-- Settles O24, by `bufferAccess_of_misfit`. -/
theorem badWordAccessGetsError : Obligations.BadWordAccessGetsError := by
  unfold Obligations.BadWordAccessGetsError
  intro s acc w o ha ho hidle hacc hbad
  have hf : wordFits s.cfg w o = false := by
    rw [Bool.eq_false_iff, ne_eq, wordFits_iff]
    omega
  rw [hostStep_of_window ha ho, bufferAccess_of_misfit (hazard_eq_false hidle) hacc hf, answered]

/-- Settles O25: the host may not write MARKER and OUT, the listed registers take no write, and CMD has no value to read. -/
theorem wrongDirectionGetsError : Obligations.WrongDirectionGetsError := by
  unfold Obligations.WrongDirectionGetsError
  refine fun s a => ⟨fun w o acc ha ho hw hacc => ?_, fun v off ha hmem => ?_, fun ha => hostStep_read32_writeOnly ha rfl rfl⟩
  · have hz : hazard s w = false := hazard_eq_false (hw.symm.imp_left And.right)
    have hro : w.hostWritable = false := by rcases hw with rfl | ⟨rfl, _⟩ <;> rfl
    have haddr : AddressOf s.cfg w o acc.addr := by rcases hacc with ⟨v, rfl⟩ | ⟨v, rfl⟩ <;> exact ha
    rw [hostStep_of_window haddr ho, bufferAccess_of_readOnly hz (hacc.imp (⟨a, ·⟩) (⟨a, ·⟩)) hro, answered]
  · obtain ⟨r, hr, hv⟩ : ∃ r, Reg.atOffset off = some r ∧ writeReg s r v = none := by
      simp only [List.mem_cons, List.not_mem_nil, or_false] at hmem
      rcases hmem with rfl | rfl | rfl | rfl | rfl | rfl | rfl | rfl | rfl | rfl | rfl <;> exact ⟨_, rfl, rfl⟩
    exact hostStep_write32_readOnly ha hr hv

/-- Settles O26: at a valid offset the hazard comes before size, alignment and direction. -/
theorem bufferAccessWhileBusyFaults : Obligations.BufferAccessWhileBusyFaults := by
  unfold Obligations.BufferAccessWhileBusyFaults
  intro s acc w o hbusy hm ha ho
  rw [hostStep_of_addressOf ha ho, bufferAccess_of_hazard acc ho (by simp [hazard, hbusy, hm])]

end Sys2Proof.Machine
end

section
/-! PROOFS. The informative datapaths: the shift registers of SER and DES (41_bit_codec R113), the shift-out pipeline of EMBED
(44_embed R147), and the window detector of EXTRACT (45_extract R158), each against the function it computes. -/

namespace Sys2Proof.Machine

/-! ### Shift registers -/

/-- Shifted left `m` times, a register shows bit `7 - m` of its byte at bit 7. -/
theorem getLsbD_seven_shiftLeft (b : Byte) {m : Nat} (hm : m ≤ 7) : (b <<< m).getLsbD 7 = b.getLsbD (7 - m) := by
  rw [BitVec.getLsbD_shiftLeft, decide_eq_false (Nat.not_lt.mpr hm)]
  rfl

theorem shiftOut_eight (b : Byte) : shiftOut 8 b = byteBits b := by
  simp only [shiftOut, byteBits, ← BitVec.shiftLeft_add]
  simp (disch := decide) only [getLsbD_seven_shiftLeft]

/-- One shift doubles the register and adds the cell, modulo 256. -/
theorem shiftIn_ofNat (n : Nat) (b : Bool) : shiftIn (BitVec.ofNat 8 n) b = BitVec.ofNat 8 (2 * n + b.toNat) := by
  have hbyte (v : Byte) : shiftIn v b = BitVec.ofNat 8 (2 * v.toNat + b.toNat) := by revert v b; decide
  refine (hbyte _).trans (BitVec.eq_of_toNat_eq ?_)
  simp only [BitVec.toNat_ofNat]
  omega

theorem foldl_shiftIn_ofNat (bits : List Bool) (n : Nat) :
    bits.foldl shiftIn (BitVec.ofNat 8 n) = BitVec.ofNat 8 (bits.foldl (fun b t => 2 * b + t.toNat) n) := by
  induction bits generalizing n with
  | nil => rfl
  | cons b bits ih => rw [List.foldl_cons, List.foldl_cons, shiftIn_ofNat, ih]

/-- The starting value counts `2 ^ length` times. -/
theorem foldl_double_add (bits : List Bool) (n : Nat) : bits.foldl (fun b t => 2 * b + t.toNat) n =
    2 ^ bits.length * n + bits.foldl (fun b t => 2 * b + t.toNat) 0 := by
  induction bits generalizing n with
  | nil => simp
  | cons b bits ih =>
    rw [List.foldl_cons, List.foldl_cons, ih, ih (2 * 0 + b.toNat), List.length_cons]
    ring

/-- Eight shifts push out whatever the register held. -/
theorem foldl_shiftIn_chunk (sir : Byte) {c : List Bool} (hc : c.length = 8) : c.foldl shiftIn sir = bitsByte c := by
  have h := foldl_shiftIn_ofNat c sir.toNat
  rw [BitVec.ofNat_toNat, BitVec.setWidth_eq] at h
  rw [h, bitsByte, foldl_double_add, hc]
  refine BitVec.eq_of_toNat_eq ?_
  simp only [BitVec.toNat_ofNat]
  omega

/-! ### SER and DES -/

theorem serDatapath_eq (x : List Byte) : serDatapath x = bytesToBits x := by
  rw [serDatapath, bytesToBits, funext shiftOut_eight]

/-- Cells short of a byte store nothing. -/
theorem desDatapath_of_short {b : List Bool} {t : Nat} (sir : Byte) (h : t + b.length < 8) : desDatapath t sir b = [] := by
  induction b generalizing t sir with
  | nil => rfl
  | cons c b ih =>
    rw [List.length_cons] at h
    rw [desDatapath, if_neg (by omega), ih _ (by omega)]

/-- The cells that fill a byte store it, and the next byte begins. -/
theorem desDatapath_of_chunk {b rest : List Bool} {t : Nat} (sir : Byte) (ht : t < 8) (h : t + b.length = 8) :
    desDatapath t sir (b ++ rest) = b.foldl shiftIn sir :: desDatapath 0 (b.foldl shiftIn sir) rest := by
  induction b generalizing t sir with
  | nil => simp at h; omega
  | cons c b ih =>
    rw [List.length_cons] at h
    rw [List.cons_append, desDatapath, List.foldl_cons]
    by_cases h7 : t = 7
    · have hb : b = [] := List.length_eq_zero_iff.mp (by omega)
      rw [if_pos h7, hb]
      rfl
    · rw [if_neg h7, ih _ (by omega) (by omega)]

/-- Whatever SIR holds at first, DES's datapath stores the whole bytes. -/
theorem desDatapath_eq (sir : Byte) (b : List Bool) : desDatapath 0 sir b = wholeBytes b := by
  induction b using chunk_induction generalizing sir with
  | short b h => rw [wholeBytes_of_lt b h, desDatapath_of_short sir (by omega)]
  | chunk c rest hc ih =>
    rw [wholeBytes_append_chunk c rest hc, desDatapath_of_chunk sir (by omega) (by omega), ih, foldl_shiftIn_chunk sir hc]

/-! ### EMBED's shift-out pipeline -/

/-- From slot `p.k` on the pipeline writes stream bit `k` at the offset of slot `k`, when its cursor stands at that slot and SOR
holds the rest of the current byte. -/
theorem embedSlots_eq (framed : List Byte) (left : Nat) (p : EmbedPipe) (hpx : p.px = p.k / 3) (hch : p.ch = p.k % 3)
    (hsor : p.k % 8 ≠ 0 → p.sor = framed.getD (p.k / 8) 0 <<< (p.k % 8)) :
    embedSlots framed left p =
      (List.range' p.k left).map fun k => (slotOffset k, streamBit (fun j => framed.getD j 0) k) := by
  induction left generalizing p with
  | zero => rfl
  | succ left ih =>
    obtain ⟨q, hq, hqk, hqpx, hqch, hqsor⟩ : ∃ q, (if p.k % 8 = 0 then p.load (framed.getD (p.k / 8) 0) else p) = q ∧
        q.k = p.k ∧ q.px = p.px ∧ q.ch = p.ch ∧ q.sor = framed.getD (p.k / 8) 0 <<< (p.k % 8) := by
      by_cases h8 : p.k % 8 = 0
      · exact ⟨_, if_pos h8, rfl, rfl, rfl, by rw [h8, BitVec.shiftLeft_zero]; rfl⟩
      · exact ⟨_, if_neg h8, rfl, rfl, rfl, hsor h8⟩
    obtain ⟨hk, hpx', hch'⟩ := advance_walk q (by rw [hqpx, hqk, hpx]) (by rw [hqch, hqk, hch])
    rw [hqk] at hk hpx' hch'
    have hoffset : q.offset = slotOffset p.k := by rw [EmbedPipe.offset, hqpx, hqch, hpx, hch, slotOffset]
    have hbit : q.bit = streamBit (fun j => framed.getD j 0) p.k := by
      rw [EmbedPipe.bit, hqsor, getLsbD_seven_shiftLeft _ (by omega), streamBit]
    have hsor' : (p.k + 1) % 8 ≠ 0 → q.advance.sor = framed.getD ((p.k + 1) / 8) 0 <<< ((p.k + 1) % 8) := fun h8 => by
      rw [show (p.k + 1) / 8 = p.k / 8 by omega, show (p.k + 1) % 8 = p.k % 8 + 1 by omega, BitVec.shiftLeft_add, ← hqsor]
      rfl
    rw [embedSlots, hq, ih q.advance (by rw [hk, hpx']) (by rw [hk, hch']) (by rw [hk]; exact hsor'), hk, hoffset, hbit]
    rfl

/-! ### EXTRACT's window detector -/

/-- The accumulated bits after one more: the whole bytes, and what is left of them. -/
theorem concat_eq_wholeBytes (acc : List Bool) (b : Bool) :
    acc ++ [b] = bytesToBits (wholeBytes acc) ++ (acc.drop (8 * (acc.length / 8)) ++ [b]) := by
  rw [bytesToBits_wholeBytes, ← List.append_assoc, List.take_append_drop]

/-- The bit that fills a byte adds the byte in the shift-in register. -/
theorem wholeBytes_concat_of_full {acc : List Bool} (b : Bool) (h : (acc.length + 1) % 8 = 0) :
    wholeBytes (acc ++ [b]) = wholeBytes acc ++ [(acc ++ [b]).foldl shiftIn 0] := by
  have hc : (acc.drop (8 * (acc.length / 8)) ++ [b]).length = 8 := by simp; omega
  have hbyte := wholeBytes_append_chunk _ [] hc
  rw [List.append_nil] at hbyte
  rw [concat_eq_wholeBytes, wholeBytes_bytesToBits_append, hbyte, List.foldl_append, foldl_shiftIn_chunk _ hc]
  rfl

theorem wholeBytes_concat_of_short {acc : List Bool} (b : Bool) (h : (acc.length + 1) % 8 ≠ 0) :
    wholeBytes (acc ++ [b]) = wholeBytes acc := by
  have hc : (acc.drop (8 * (acc.length / 8)) ++ [b]).length < 8 := by simp; omega
  rw [concat_eq_wholeBytes, wholeBytes_bytesToBits_append, wholeBytes_of_lt _ hc, List.append_nil]

/-- The bytes before the last nine: those the window has pushed out. -/
def pushed (x : List Byte) : List Byte := x.take (x.length - 9)

/-- The last nine bytes: those the window holds. -/
def window (x : List Byte) : List Byte := x.drop (x.length - 9)

theorem length_window (x : List Byte) : (window x).length = min x.length 9 := by
  rw [window, List.length_drop]
  omega

theorem pushed_append_window (x : List Byte) : pushed x ++ window x = x := List.take_append_drop _ x

/-- While the window is short, nothing has been pushed out. -/
theorem window_of_short {x : List Byte} (h : x.length ≤ 9) : pushed x = [] ∧ window x = x := by
  have h0 : x.length - 9 = 0 := by omega
  exact ⟨by rw [pushed, h0, List.take_zero], by rw [window, h0, List.drop_zero]⟩

/-- A byte after a full window pushes its first byte out. -/
theorem window_concat_of_full {x w : List Byte} {v : Byte} (b : Byte) (hlen : (v :: w).length = 9) (hw : window x = v :: w) :
    pushed (x ++ [b]) = pushed x ++ [v] ∧ window (x ++ [b]) = w ++ [b] := by
  have hsplit : x ++ [b] = (pushed x ++ [v]) ++ (w ++ [b]) := by
    conv_lhs => rw [← pushed_append_window x, hw]
    simp
  have hcut : (x ++ [b]).length - 9 = (pushed x ++ [v]).length := by
    rw [hsplit, List.length_append (as := pushed x ++ [v]), List.length_append (as := w)]
    simp only [List.length_cons, List.length_nil] at hlen ⊢
    omega
  exact ⟨by rw [pushed, hcut, hsplit, List.take_left], by rw [window, hcut, hsplit, List.drop_left]⟩

/-- One more byte can complete a marker only in the window. -/
theorem firstIndex_concat {x : List Byte} (b : Byte) (hnone : firstIndex marker x = none) :
    firstIndex marker (x ++ [b]) = if window (x ++ [b]) = marker then some ((x ++ [b]).length - 9) else none := by
  have hearlier (j : Nat) (hj : j + 9 ≤ x.length) : ((x ++ [b]).drop j).take marker.length ≠ marker := by
    rw [List.drop_append_of_le_length (by omega), List.take_append_of_le_length (by simp; omega)]
    exact (firstIndex_eq_none _ _).mp hnone j (by omega)
  split
  · next hwin =>
    have hlen := congrArg List.length hwin
    simp only [window, List.length_drop, length_marker] at hlen
    refine (firstIndex_eq_some _ _ _).mpr ⟨⟨by omega, ?_⟩, fun j hj => hearlier j (by simp at hj hlen; omega)⟩
    rw [← window, hwin, List.take_length]
  · next hwin =>
    refine (firstIndex_eq_none _ _).mpr fun j hj hat => ?_
    have hlen := congrArg List.length hat
    simp only [List.length_take, List.length_drop, length_marker] at hlen
    by_cases hj' : j + 9 ≤ x.length
    · exact hearlier j hj' hat
    · have hj9 : j = (x ++ [b]).length - 9 := by simp at hlen ⊢; omega
      rw [hj9, ← window, List.take_of_length_le (by simp [window]; omega)] at hat
      exact hwin hat

/-- The check of R153 after one more bit, when no marker stood before it: it finds one exactly when the window holds it. -/
theorem checkAt_concat {acc : List Bool} (b : Bool) (hnone : firstIndex marker (wholeBytes acc) = none) :
    (window (wholeBytes (acc ++ [b])) = marker ∧ checkAt (acc ++ [b]) = some (pushed (wholeBytes (acc ++ [b])))) ∨
    (window (wholeBytes (acc ++ [b])) ≠ marker ∧ checkAt (acc ++ [b]) = none ∧
      firstIndex marker (wholeBytes (acc ++ [b])) = none) := by
  unfold checkAt
  rw [List.length_append, List.length_singleton]
  split
  · next h8 =>
    have hfirst := firstIndex_concat ((acc ++ [b]).foldl shiftIn 0) hnone
    rw [← wholeBytes_concat_of_full b h8] at hfirst
    split at hfirst
    · next hwin => exact .inl ⟨hwin, by rw [findAndStrip_eq_some]; exact ⟨_, hfirst, rfl⟩⟩
    · next hwin => exact .inr ⟨hwin, by rw [findAndStrip_eq_none]; exact hfirst, hfirst⟩
  · next h8 =>
    rw [wholeBytes_concat_of_short b h8]
    refine .inr ⟨fun hwin => ?_, rfl, hnone⟩
    refine (firstIndex_eq_none _ _).mp hnone ((wholeBytes acc).length - 9) (by omega) ?_
    rw [← window, hwin, List.take_length]

theorem apply_concat (x : List Byte) (b : Byte) (p : List Byte) : apply (x ++ [b]) p = apply x p ++ [unmask p x.length b] := by
  refine List.ext_getElem? fun k => ?_
  rcases Nat.lt_trichotomy k x.length with hk | rfl | hk
  · rw [getElem?_apply, List.getElem?_append_left hk, List.getElem?_append_left (by simpa using hk), getElem?_apply]
  · rw [getElem?_apply, List.getElem?_append_right (by simp), List.getElem?_append_right (by simp)]
    simp [unmask]
  · rw [List.getElem?_eq_none (by simp; omega), List.getElem?_eq_none (by simp; omega)]

/-- The detector after the bits `acc`: SIR holds their last byte, WIN the last nine whole bytes, and OUT the bytes pushed out
of WIN, unmasked. -/
structure Tracks (pwd : List Byte) (acc : List Bool) (p : ExtractPipe) (out : List Byte) : Prop where
  n : p.n = acc.length
  sir : p.sir = acc.foldl shiftIn 0
  win : p.win = window (wholeBytes acc)
  j : p.j = (wholeBytes acc).length - 9
  out : out = apply (pushed (wholeBytes acc)) pwd

section
variable {pwd : List Byte} {acc : List Bool} {p : ExtractPipe} {out : List Byte}

theorem Tracks.sir_concat (h : Tracks pwd acc p out) (b : Bool) : shiftIn p.sir b = (acc ++ [b]).foldl shiftIn 0 := by
  rw [List.foldl_append, ← h.sir]
  rfl

/-- A bit that completes no byte moves nothing but SIR. -/
theorem Tracks.take_of_short (h : Tracks pwd acc p out) (b : Bool) (h8 : (acc.length + 1) % 8 ≠ 0) :
    Tracks pwd (acc ++ [b]) (p.take b) (outNext pwd p out) := by
  have htake : p.take b = { p with n := p.n + 1, sir := shiftIn p.sir b } := if_neg (by rw [h.n]; exact h8)
  have hout : outNext pwd p out = out := by
    have hnone : p.pushedOut = none := if_neg (by rw [h.n]; exact fun hc => h8 hc.1)
    rw [outNext, hnone]
  rw [htake, hout]
  have hbytes := wholeBytes_concat_of_short b h8
  exact ⟨by simp [h.n], h.sir_concat b, by rw [hbytes]; exact h.win, by rw [hbytes]; exact h.j, by rw [hbytes]; exact h.out⟩

/-- A bit that completes a byte while the window has room adds the byte to it. -/
theorem Tracks.take_of_room (h : Tracks pwd acc p out) (b : Bool) (h8 : (acc.length + 1) % 8 = 0)
    (hroom : (wholeBytes acc).length < 9) : Tracks pwd (acc ++ [b]) (p.take b) (outNext pwd p out) := by
  have hwin : p.win.length ≠ markerLen := by
    rw [h.win, length_window, Nat.min_eq_left (Nat.le_of_lt hroom)]
    exact Nat.ne_of_lt hroom
  have htake : p.take b =
      { n := p.n + 1, sir := shiftIn p.sir b, nbytes := p.nbytes + 1, win := p.win ++ [shiftIn p.sir b], j := p.j } := by
    rw [ExtractPipe.take, if_pos (by rw [h.n]; exact h8), if_neg hwin, if_neg hwin]
  have hout : outNext pwd p out = out := by
    have hnone : p.pushedOut = none := if_neg fun hc => hwin hc.2
    rw [outNext, hnone]
  have hbytes := wholeBytes_concat_of_full b h8
  have hlen : (wholeBytes (acc ++ [b])).length = (wholeBytes acc).length + 1 := by rw [hbytes]; simp
  obtain ⟨hpushed, hwindow⟩ := window_of_short (Nat.le_of_lt hroom)
  obtain ⟨hpushed', hwindow'⟩ := window_of_short (x := wholeBytes (acc ++ [b])) (by omega)
  rw [htake, hout]
  refine ⟨by simp [h.n], h.sir_concat b, ?_, ?_, by rw [hpushed', ← hpushed]; exact h.out⟩
  · rw [hwindow', hbytes, ← h.sir_concat b, ← hwindow, ← h.win]
  · rw [hlen]
    exact h.j.trans (by omega)

/-- A bit that completes a byte when the window is full pushes a byte out of it, into OUT. -/
theorem Tracks.take_of_full (h : Tracks pwd acc p out) (b : Bool) (h8 : (acc.length + 1) % 8 = 0)
    (hfull : 9 ≤ (wholeBytes acc).length) : Tracks pwd (acc ++ [b]) (p.take b) (outNext pwd p out) := by
  have hn : (p.n + 1) % 8 = 0 := by rw [h.n]; exact h8
  have hwin : p.win.length = markerLen := by
    rw [h.win, length_window]
    exact Nat.min_eq_right hfull
  obtain ⟨v, w, hvw⟩ : ∃ v w, p.win = v :: w := List.exists_cons_of_length_eq_add_one hwin
  have htake : p.take b =
      { n := p.n + 1, sir := shiftIn p.sir b, nbytes := p.nbytes + 1, win := w ++ [shiftIn p.sir b], j := p.j + 1 } := by
    rw [ExtractPipe.take, if_pos hn, if_pos hwin, if_pos hwin, hvw]
    rfl
  have hout : outNext pwd p out = out ++ [unmask pwd p.j v] := by
    have hsome : p.pushedOut = some v := by rw [ExtractPipe.pushedOut, if_pos ⟨hn, hwin⟩, hvw]; rfl
    rw [outNext, hsome]
  have hbytes := wholeBytes_concat_of_full b h8
  have hlen : (wholeBytes (acc ++ [b])).length = (wholeBytes acc).length + 1 := by rw [hbytes]; simp
  have hcount : (pushed (wholeBytes acc)).length = p.j := by rw [h.j, pushed, List.length_take]; omega
  obtain ⟨hpushed, hwindow⟩ := window_concat_of_full (shiftIn p.sir b) (by rw [← hvw]; exact hwin) (h.win.symm.trans hvw)
  rw [h.sir_concat b, ← hbytes] at hpushed hwindow
  rw [htake, hout]
  refine ⟨by simp [h.n], h.sir_concat b, ?_, ?_, ?_⟩
  · rw [hwindow, h.sir_concat b]
  · rw [hlen, h.j]
    exact (Nat.sub_add_comm hfull).symm
  · rw [hpushed, apply_concat, hcount, ← h.out]

theorem Tracks.take (h : Tracks pwd acc p out) (b : Bool) : Tracks pwd (acc ++ [b]) (p.take b) (outNext pwd p out) := by
  by_cases h8 : (acc.length + 1) % 8 = 0
  · by_cases hfull : 9 ≤ (wholeBytes acc).length
    · exact h.take_of_full b h8 hfull
    · exact h.take_of_room b h8 (Nat.lt_of_not_le hfull)
  · exact h.take_of_short b h8

theorem tracks_start (pwd : List Byte) : Tracks pwd [] { n := 0, sir := 0, nbytes := 0, win := [], j := 0 } [] :=
  ⟨rfl, rfl, rfl, rfl, by simp [pushed, wholeBytes, apply, applyFrom]⟩

/-- From one state of the search on, the detector and the scan end alike: with the first marker, at one count, or without. -/
theorem windowDetect_eq_extractScan {pix : Memory} {bits : List Bool} (h : Tracks pwd acc p out)
    (hnone : firstIndex marker (wholeBytes acc) = none)
    (hpix : ∀ k, k < bits.length → (pix.read (slotOffset (acc.length + k))).map lsb = bits[k]?) :
    (extractScan pix bits.length acc = .exhausted ∧ windowDetect pwd p out bits = none) ∨
    ∃ y n, extractScan pix bits.length acc = .found y n ∧ windowDetect pwd p out bits = some (apply y pwd, n) := by
  induction bits generalizing acc p out with
  | nil => exact .inl ⟨rfl, rfl⟩
  | cons b bits ih =>
    obtain ⟨v, hv, rfl⟩ : ∃ v, pix.read (slotOffset acc.length) = some v ∧ lsb v = b := by
      simpa using hpix 0 (by simp)
    have h' := h.take (lsb v)
    rw [List.length_cons, extractScan_succ, hv, windowDetect]
    rcases checkAt_concat (lsb v) hnone with ⟨hwin, hcheck⟩ | ⟨hwin, hcheck, hnone'⟩
    · have hmatched : (p.take (lsb v)).matched = true := decide_eq_true (h'.win.trans hwin)
      refine .inr ⟨pushed (wholeBytes (acc ++ [lsb v])), acc.length + 1, by simp only [hcheck], ?_⟩
      rw [if_pos hmatched, ← h'.out, h'.n, List.length_append, List.length_singleton]
    · have hmatched : ¬ (p.take (lsb v)).matched = true := fun hm => hwin (h'.win.symm.trans (of_decide_eq_true hm))
      simp only [hcheck, if_neg hmatched]
      refine ih h' hnone' fun k hk => ?_
      have hk' := hpix (k + 1) (by simpa using hk)
      rw [List.getElem?_cons_succ] at hk'
      rw [← hk', List.length_append, List.length_singleton, Nat.add_assoc, Nat.add_comm 1 k]

end

/-! ### The obligations -/

/-- Settles O32, by `serDatapath_eq` and `desDatapath_eq`. -/
theorem datapathsComputeTheCodec : Obligations.DatapathsComputeTheCodec := by
  unfold Obligations.DatapathsComputeTheCodec
  exact ⟨serDatapath_eq, desDatapath_eq 0⟩

/-- Settles O42: by `embedSlots_eq` the pipeline writes the stream from slot 0 on. -/
theorem shiftOutPipelineWritesTheSlots : Obligations.ShiftOutPipelineWritesTheSlots := by
  unfold Obligations.ShiftOutPipelineWritesTheSlots
  intro framed
  rw [embedSlots_eq framed _ _ rfl rfl (fun h => absurd rfl h)]
  refine List.ext_getElem? fun k => ?_
  rw [List.getElem?_mapIdx, getElem?_bytesToBits, List.getElem?_map]
  by_cases hk : k < 8 * framed.length
  · have hbyte : k / 8 < framed.length := by omega
    simp [hk, hbyte, streamBit]
  · have hbyte : framed.length ≤ k / 8 := by omega
    simp [hk, hbyte]

/-- Settles O45: from the start of the search the detector and the scan end alike (`windowDetect_eq_extractScan`). -/
theorem windowDetectorAgreesWithTheScan : Obligations.WindowDetectorAgreesWithTheScan := by
  unfold Obligations.WindowDetectorAgreesWithTheScan
  intro pix pwd bits hbits
  have hpix (k : Nat) (hk : k < bits.length) : (pix.read (slotOffset (0 + k))).map lsb = bits[k]? := by
    rw [Nat.zero_add]
    exact hbits k hk
  rcases windowDetect_eq_extractScan (tracks_start pwd) rfl hpix with ⟨hscan, hdetect⟩ | ⟨y, n, hscan, hdetect⟩ <;>
    rw [hscan, hdetect]
  · simp
  · refine ⟨by simp, fun out m => ⟨fun h => ?_, fun ⟨y', h, hout⟩ => ?_⟩⟩
    · cases h
      exact ⟨y, rfl, rfl⟩
    · cases h
      rw [hout]

end Sys2Proof.Machine
end

section
/-! PROOFS. The reserved encodings by name (30_encoding R78 to R80), the password bytes the cipher uses (42_cipher R116), and what
EXTRACT does not depend on (45_extract R152, R160). -/

namespace Sys2Proof.Machine

/-! ### Reserved encodings -/

/-- A word is rejected for its reserved bits exactly when one of [31:4] is set (R80). -/
theorem decode_eq_reservedBitsSet_iff (c : Word) : decode c = .error .reservedBitsSet ↔ c.toNat / 16 ≠ 0 := by
  unfold decode
  split
  · next hr => simp [decodeOp_error, (rsvField_eq_zero c).mp hr]
  · next hr => simpa using mt (rsvField_eq_zero c).mpr hr

/-- A word is rejected for its opcode exactly when its reserved bits are 0 and OP is 0 or 8 to 15 (R80). -/
theorem decode_eq_reservedOpcode_iff (c : Word) :
    decode c = .error .reservedOpcode ↔ c.toNat / 16 = 0 ∧ (c.toNat % 16 = 0 ∨ 8 ≤ c.toNat % 16) := by
  unfold decode
  split
  · next hr => simp [decodeOp_error, toNat_opField, (rsvField_eq_zero c).mp hr]
  · next hr => simp [mt (rsvField_eq_zero c).mpr hr]

/-! ### EXTRACT's inputs -/

/-- The outcome of a step, seen through a change of the state it answers. -/
def mapNext (f : State → State) : Host.Outcome State Fault Refusal → Host.Outcome State Fault Refusal
  | .next t => .next (f t)
  | .fault r => .fault r
  | .refused r => .refused r

/-- `s` with other samples, another message, other cells and other latched MSG_LEN and BIT_LEN. -/
def withInputs (pix msg : Memory) (bit : Store Bool) (ml bl : Word) (s : State) : State :=
  { s with pix := pix, msg := msg, bit := bit, cur := { s.cur with msgLen := ml, bitLen := bl } }

/-- EXTRACT reads the samples through its scan alone, and none of the other inputs (30_encoding R86). -/
theorem execExtract_withInputs {s : State} {pix : Memory} (msg : Memory) (bit : Store Bool) (ml bl : Word)
    (hscan : extractScan pix (capacityOf s.curPixLen) [] = extractScan s.pix (capacityOf s.curPixLen) []) :
    execExtract (withInputs pix msg bit ml bl s) = mapNext (withInputs pix msg bit ml bl) (execExtract s) := by
  have hok : lengthsOk .extract (withInputs pix msg bit ml bl s) = lengthsOk .extract s := rfl
  have hcur : (withInputs pix msg bit ml bl s).curPixLen = s.curPixLen := rfl
  have hpix : (withInputs pix msg bit ml bl s).pix = pix := rfl
  have hpwd (n : Nat) : readPwd n (withInputs pix msg bit ml bl s) = readPwd n s := readPwd_congr rfl rfl n
  rw [execExtract, execExtract, hok, hcur, hpix, hscan]
  simp only [hpwd]
  split
  · cases extractScan s.pix (capacityOf s.curPixLen) [] with
    | unwritten => rfl
    | exhausted => rfl
    | found y n =>
      cases hp : readPwd y.length s with
      | error f => simp only [hp, mapNext]
      | ok p => simp only [hp, mapNext, complete, withInputs]
  · rfl

/-! ### The obligations -/

/-- Settles O35: under either password `apply` is `apply` under its first `len(x)` bytes. -/
theorem cipherReadsOnlyThePasswordBytesItUses : Obligations.CipherReadsOnlyThePasswordBytesItUses := by
  unfold Obligations.CipherReadsOnlyThePasswordBytesItUses
  intro x p q _ htake
  refine ⟨?_, (apply_take_length x p).symm⟩
  rw [← apply_take_length x p, htake, apply_take_length]

/-- Settles O46: the scan depends on the LSBs alone (`extractScan_congr`), and EXTRACT on nothing else of what changes. -/
theorem extractDependsOnlyOnTheLsbs : Obligations.ExtractDependsOnlyOnTheLsbs := by
  unfold Obligations.ExtractDependsOnlyOnTheLsbs
  intro s pix msg bit ml bl hlsb u
  have hscan : extractScan pix (capacityOf s.curPixLen) [] = extractScan s.pix (capacityOf s.curPixLen) [] :=
    extractScan_congr fun k hk => by
      rw [List.length_nil, Nat.zero_add]
      exact hlsb k hk
  have h : exec .extract u = mapNext (withInputs pix msg bit ml bl) (exec .extract s) :=
    execExtract_withInputs msg bit ml bl hscan
  refine ⟨fun t ht => ?_, fun f hf => ?_⟩
  · have hcur : t.cur = s.cur := by
      obtain ⟨_, hc⟩ := exists_completes_of_exec_next ht
      exact hc.cur
    rw [h, ht, mapNext, withInputs, hcur]
  · rw [h, hf, mapNext]

/-- Settles O1, by `decode_encode`. -/
theorem decodeOfEncodeIsTheCommand : Obligations.DecodeOfEncodeIsTheCommand := by
  unfold Obligations.DecodeOfEncodeIsTheCommand
  exact fun i _ => decode_encode i

/-- Settles O3, by `decode_eq_reservedBitsSet_iff` and `decode_eq_reservedOpcode_iff`. -/
theorem reservedWordsAreRejectedByName : Obligations.ReservedWordsAreRejectedByName := by
  unfold Obligations.ReservedWordsAreRejectedByName
  refine fun c => ⟨(decode_eq_reservedBitsSet_iff c).symm, ?_⟩
  rw [decode_eq_reservedOpcode_iff]
  omega

/-- Settles O4: the first seven words are the commands' own, and the last three are reserved. -/
theorem workedEncodingsDecode : Obligations.WorkedEncodingsDecode := by
  unfold Obligations.WorkedEncodingsDecode
  exact ⟨decode_encode .ser, decode_encode .des, decode_encode .xor, decode_encode .frame, decode_encode .find,
    decode_encode .embed, decode_encode .extract, (decode_eq_reservedBitsSet_iff _).mpr (by decide),
    (decode_eq_reservedBitsSet_iff _).mpr (by decide), (decode_eq_reservedOpcode_iff _).mpr (by decide)⟩

end Sys2Proof.Machine
end
